-- ==== Sys2Proof/Word.lean ====
section
/-! DEFINITION. The word types of the block: bytes and byte sequences (rules R2, R76). -/
namespace Sys2Proof

/-- One symbol of the 256-value alphabet (rule R2). -/
abbrev Byte := BitVec 8

/-- A byte sequence in stream order, first byte first (00_scope.md section 4.1, rule R76). -/
abbrev Bytes := List Byte

/-- A bit sequence, the bit sent first at the head (rule R72). -/
abbrev Bits := List Bool

end Sys2Proof
end

