-- ==== Sys2Proof/Config.lean ====
section
/-! DEFINITION. The fixed numbers of the hardware (rules R2 to R11), the names of its engines and
modes (rules R1, R9), and the parameters the sources leave open (rule R12). -/
namespace Sys2Proof

/-- The two engines, which share no state (rule R1). -/
inductive Engine where
  | enc
  | dec
  deriving DecidableEq, Repr

/-- The reset policy of one stream (rule R9). -/
inductive Mode where
  | none
  | fullReset
  | ratioMonitored
  deriving DecidableEq, Repr

/-- One snapshot of a compression ratio, the pair of the two counters (rules R29, R132). -/
structure Snapshot where
  U : Nat
  C : Nat
  deriving DecidableEq, Repr

/-- `DEC_ACCOUNT_WIDTH` (rule R12, decision D6): the width the Decoder adds to `D.C`. -/
inductive AccountWidth where
  | current
  | asRead
  deriving DecidableEq, Repr

/-- `TRAILING` (rule R12, decision D8): the spec describes one value, `ignore` (rule R103). -/
inductive Trailing where
  | ignore
  deriving DecidableEq, Repr

/-- `RatioExceeds` (rule R12, decision D4): the exact rational comparison of rule R133, or the
comparison of some implementation with another number format, named by a number. -/
inductive RatioTest where
  | exact
  | other (n : Nat)
  deriving DecidableEq, Repr

/-- The open parameters of rule R12, arguments of the model; no step writes them. -/
structure Params where
  /-- `CNT_W`: bits of each cumulative counter, `none` when unbounded (D5). -/
  cntW : Option Nat
  ratio : RatioTest
  decAccountWidth : AccountWidth
  /-- `SEQ_MAX`: the longest byte sequence an entry, `D.val` or `s` may hold, `none` when unbounded (D7). -/
  seqMax : Option Nat
  trailing : Trailing
  deriving DecidableEq, Repr

namespace Config

/-- `EOF_CODE` (rule R3). -/
def eofCode : Nat := 256

/-- `FIRST_DYN` (rule R4), also the count of the seed slots (rule R25). -/
def firstDyn : Nat := 257

/-- `W_MIN` (rule R5). -/
def wMin : Nat := 9

/-- `L_MIN` (rule R5). -/
def lMin : Nat := 512

/-- `W_MAX` (rule R6). -/
def wMax : Nat := 16

/-- `HEADER_W` (rule R8). -/
def headerW : Nat := 9

/-- `CEILING` (rule R10). -/
def ceiling : Nat := 65536

/-- The defaults of rule R12. -/
def defaults : Params :=
  { cntW := none, ratio := .exact, decAccountWidth := .current, seqMax := none, trailing := .ignore }

/-- The comparison `oldRatio / newRatio > 1.1` of an implementation whose number format is not the
exact one (93_implementation_defined.md U6). It has no body that a proof could see: a claim that
meets it holds for every such comparison (assumption log 9). -/
opaque otherRatioExceeds : Nat → Snapshot → Snapshot → Bool

end Config
end Sys2Proof
end

