-- ==== Sys2Proof/Syntax.lean ====
section
/-! DEFINITION. The instructions: one constructor per row of spec/opcode_table.json. A row that has a bit
encoding carries the fields of that encoding; an internal operation (rule R109: no encoding) carries the
operands its rule names. -/
namespace Sys2Proof

inductive Instr where
  -- commands (rules R104, R105)
  | compressN
  | compressR
  | compressM
  | expand
  | illegalCmd000
  | illegalCmd101
  | illegalCmd110
  | illegalCmd111
  -- mode tags (rules R91, R101)
  | tagNone
  | tagFullReset
  | tagRatioMonitored
  | tagIllegal (t : BitVec 9)
  -- codewords at each width (rules R96, R99)
  | litW9 (b : Byte)
  | eofW9
  | dynW9 (c : BitVec 9)
  | litW10 (b : Byte)
  | eofW10
  | dynW10 (c : BitVec 10)
  | litW11 (b : Byte)
  | eofW11
  | dynW11 (c : BitVec 11)
  | litW12 (b : Byte)
  | eofW12
  | dynW12 (c : BitVec 12)
  | litW13 (b : Byte)
  | eofW13
  | dynW13 (c : BitVec 13)
  | litW14 (b : Byte)
  | eofW14
  | dynW14 (c : BitVec 14)
  | litW15 (b : Byte)
  | eofW15
  | dynW15 (c : BitVec 15)
  | litW16 (b : Byte)
  | eofW16
  | dynW16 (c : BitVec 16)
  -- the Decoder's split of class DYN by its state (rule R97)
  | dynRef (c : BitVec 16)
  | dynKwkwk (c : BitVec 16)
  | dynInvalid (c : BitVec 16)
  -- Encoder operations (rules R150 to R158)
  | encStart (m : BitVec 2)
  | encStep
  | encLookup
  | encEmit (q : Bytes) (c : Nat)
  | encPolicy
  | encInsert (q : Bytes)
  | encGrow
  | encAdvance (q : Bytes)
  | encFinish
  -- Decoder operations (rules R170 to R180); decStart carries `cmd[1:0]`
  | decStart (low : BitVec 2)
  | decFirst
  | decStep
  | decOutput
  | decPolicy
  | decRead
  | decResolve (cw : Nat)
  | decInsert (q : Bytes)
  | decGrow
  | decAdvance (q : Bytes)
  | decFinish
  -- Width Controller operations of engine `x` (rules R120 to R122)
  | wcInit (x : Engine)
  | wcReached (x : Engine)
  | wcGrow (x : Engine)
  -- Reset Policy operations of engine `x` (rules R130 to R139)
  | rpSaturated (x : Engine)
  | rpAccount (x : Engine) (ubits cbits : Nat)
  | rpEval (x : Engine)
  | rpEvalNone (x : Engine)
  | rpEvalFullReset (x : Engine)
  | rpEvalRatioBaseline (x : Engine)
  | rpEvalRatioCompare (x : Engine)
  | dictReset (x : Engine)
  -- Bit Stream I/O primitives (rules R71 to R76)
  | putBits (v n : Nat)
  | getBits (n : Nat)
  | close (x : Engine)
  | writeBytes (q : Bytes)
  | readAllBytes
  -- store primitives (rules R62 to R67)
  | longestPrefix (rest : Bytes)
  | dictInsert (key : Bytes) (code : Nat)
  | dictSeed
  | tableRead (i : Nat)
  | tableWrite (i : Nat) (q : Bytes)
  | tableSeed
  deriving DecidableEq, Repr

end Sys2Proof
end

