-- ==== Sys2Proof/WellFormed.lean ====
section
/-! DEFINITION. Which instructions are well formed: the value ranges that the spec gives the fields of an
encoding and the operands of an operation. -/
namespace Sys2Proof

/-- A mode tag outside 1, 2, 3 (rule R101). -/
def tagIsIllegal (t : BitVec 9) : Bool := t.toNat == 0 || decide (3 < t.toNat)

/-- A codeword of class DYN (rule R96). -/
def isDyn (c : Nat) : Bool := decide (Config.firstDyn ≤ c)

/-- The operands PutBits takes (rule R72). -/
def putBitsOk (v n : Nat) : Bool := decide (1 ≤ n ∧ n ≤ 16 ∧ v < 2 ^ n)

/-- The widths GetBits takes (rule R73). -/
def getBitsOk (n : Nat) : Bool := decide (1 ≤ n ∧ n ≤ 16)

/-- A codeword that can stand for a sequence (rules R60, R61). -/
def isCode (c : Nat) : Bool := decide (c < Config.ceiling ∧ c ≠ Config.eofCode)

/-- The check of every field and operand. -/
def Instr.wellFormed : Instr → Bool
  | .tagIllegal t => tagIsIllegal t
  | .dynW9 c => isDyn c.toNat
  | .dynW10 c => isDyn c.toNat
  | .dynW11 c => isDyn c.toNat
  | .dynW12 c => isDyn c.toNat
  | .dynW13 c => isDyn c.toNat
  | .dynW14 c => isDyn c.toNat
  | .dynW15 c => isDyn c.toNat
  | .dynW16 c => isDyn c.toNat
  | .dynRef c => isDyn c.toNat
  | .dynKwkwk c => isDyn c.toNat
  | .dynInvalid c => isDyn c.toNat
  | .encEmit q c => !q.isEmpty && isCode c
  | .encInsert q => !q.isEmpty
  | .encAdvance q => !q.isEmpty
  | .decResolve cw => isCode cw
  | .decInsert q => !q.isEmpty
  | .decAdvance q => !q.isEmpty
  | .rpAccount _ ubits cbits => decide (8 ≤ ubits ∧ 9 ≤ cbits ∧ cbits ≤ 16)
  | .putBits v n => putBitsOk v n
  | .getBits n => getBitsOk n
  | .longestPrefix rest => !rest.isEmpty
  | .dictInsert key code => !key.isEmpty && isCode code
  | .tableRead i => decide (i < Config.ceiling)
  | .tableWrite i q => decide (i < Config.ceiling) && !q.isEmpty
  | .compressN => true
  | .compressR => true
  | .compressM => true
  | .expand => true
  | .illegalCmd000 => true
  | .illegalCmd101 => true
  | .illegalCmd110 => true
  | .illegalCmd111 => true
  | .tagNone => true
  | .tagFullReset => true
  | .tagRatioMonitored => true
  | .litW9 _ => true
  | .eofW9 => true
  | .litW10 _ => true
  | .eofW10 => true
  | .litW11 _ => true
  | .eofW11 => true
  | .litW12 _ => true
  | .eofW12 => true
  | .litW13 _ => true
  | .eofW13 => true
  | .litW14 _ => true
  | .eofW14 => true
  | .litW15 _ => true
  | .eofW15 => true
  | .litW16 _ => true
  | .eofW16 => true
  | .encStart _ => true
  | .encStep => true
  | .encLookup => true
  | .encPolicy => true
  | .encGrow => true
  | .encFinish => true
  | .decStart _ => true
  | .decFirst => true
  | .decStep => true
  | .decOutput => true
  | .decPolicy => true
  | .decRead => true
  | .decGrow => true
  | .decFinish => true
  | .wcInit _ => true
  | .wcReached _ => true
  | .wcGrow _ => true
  | .rpSaturated _ => true
  | .rpEval _ => true
  | .rpEvalNone _ => true
  | .rpEvalFullReset _ => true
  | .rpEvalRatioBaseline _ => true
  | .rpEvalRatioCompare _ => true
  | .dictReset _ => true
  | .close _ => true
  | .writeBytes _ => true
  | .readAllBytes => true
  | .dictSeed => true
  | .tableSeed => true

end Sys2Proof
end

