-- ==== Sys2Proof/Decode.lean ====
section
/-! DEFINITION. Bit and byte order (rules R72, R75, R90), the decoder of command words, mode tags and
codewords, and the encoder. A unit does not carry its own width (rule R95): the decoder is told which kind of
unit it reads, and takes that many bits from the head of a bit sequence. -/
namespace Sys2Proof

/-- The `n` low bits of `v`, the most significant first (rule R72). -/
def natBits : Nat → Nat → Bits
  | 0, _ => []
  | n + 1, v => v.testBit n :: natBits n v

/-- The number whose binary form is `bs`, the first bit the most significant (rule R73). -/
def bitsToNat (bs : Bits) : Nat := bs.foldl (fun a b => 2 * a + b.toNat) 0

/-- A byte as 8 bits, bit 7 first (rule R72). -/
def byteBits (b : Byte) : Bits := natBits 8 b.toNat

/-- The bits of a byte stream in stream order (rule R72). -/
def streamBits (bs : Bytes) : Bits := bs.flatMap byteBits

/-- The bytes of a bit sequence cut into eights, the first bit of each the most significant
(rule R72). Bits after the last full byte are in no byte yet. -/
def packBytes : Bits → Bytes
  | a :: b :: c :: d :: e :: f :: g :: h :: rest =>
      BitVec.ofNat 8 (bitsToNat [a, b, c, d, e, f, g, h]) :: packBytes rest
  | _ => []

/-- The zero bits that pad `n` bits to a whole number of bytes (rule R74). -/
def padBits (n : Nat) : Bits := List.replicate ((8 - n % 8) % 8) false

/-- What kind of unit stands next: a command word (R104), a mode tag (R91) or a codeword at a width (R92). -/
inductive Frame where
  | command
  | header
  | codeword (w : Nat)
  deriving DecidableEq, Repr

/-- Why the decoder reads no instruction. -/
inductive Reject where
  /-- Fewer bits are left than the unit has: `EndOfInput` of rule R73. -/
  | endOfInput
  /-- No codeword has that width (rule R46). -/
  | noSuchWidth
  deriving DecidableEq, Repr

/-- The bits of a unit. -/
def frameWidth : Frame → Nat
  | .command => 3
  | .header => Config.headerW
  | .codeword w => w

/-- The command word `cmd[2:0]` (rules R104, R105). -/
def decodeCommand (cmd : BitVec 3) : Instr :=
  match cmd.toNat with
  | 0 => .illegalCmd000
  | 1 => .compressN
  | 2 => .compressR
  | 3 => .compressM
  | 4 => .expand
  | 5 => .illegalCmd101
  | 6 => .illegalCmd110
  | _ => .illegalCmd111

/-- The mode tag (rules R91, R101). -/
def decodeTag (t : BitVec 9) : Instr :=
  match t.toNat with
  | 1 => .tagNone
  | 2 => .tagFullReset
  | 3 => .tagRatioMonitored
  | _ => .tagIllegal t

/-- A codeword of value `v` at width `w` (rules R96, R99). -/
def decodeCodeword (w v : Nat) : Option Instr :=
  match w with
  | 9 => some (if v < 256 then .litW9 (BitVec.ofNat 8 v) else if v = 256 then .eofW9 else .dynW9 (BitVec.ofNat 9 v))
  | 10 => some (if v < 256 then .litW10 (BitVec.ofNat 8 v) else if v = 256 then .eofW10 else .dynW10 (BitVec.ofNat 10 v))
  | 11 => some (if v < 256 then .litW11 (BitVec.ofNat 8 v) else if v = 256 then .eofW11 else .dynW11 (BitVec.ofNat 11 v))
  | 12 => some (if v < 256 then .litW12 (BitVec.ofNat 8 v) else if v = 256 then .eofW12 else .dynW12 (BitVec.ofNat 12 v))
  | 13 => some (if v < 256 then .litW13 (BitVec.ofNat 8 v) else if v = 256 then .eofW13 else .dynW13 (BitVec.ofNat 13 v))
  | 14 => some (if v < 256 then .litW14 (BitVec.ofNat 8 v) else if v = 256 then .eofW14 else .dynW14 (BitVec.ofNat 14 v))
  | 15 => some (if v < 256 then .litW15 (BitVec.ofNat 8 v) else if v = 256 then .eofW15 else .dynW15 (BitVec.ofNat 15 v))
  | 16 => some (if v < 256 then .litW16 (BitVec.ofNat 8 v) else if v = 256 then .eofW16 else .dynW16 (BitVec.ofNat 16 v))
  | _ => none

/-- Read one unit from the head of a bit sequence and give the rest. -/
def decode (f : Frame) (bs : Bits) : Except Reject (Instr × Bits) :=
  if bs.length < frameWidth f then .error .endOfInput
  else
    let v := bitsToNat (bs.take (frameWidth f))
    let rest := bs.drop (frameWidth f)
    match f with
    | .command => .ok (decodeCommand (BitVec.ofNat 3 v), rest)
    | .header => .ok (decodeTag (BitVec.ofNat 9 v), rest)
    | .codeword w =>
      match decodeCodeword w v with
      | some i => .ok (i, rest)
      | none => .error .noSuchWidth

/-- A unit of `w` bits holding `v`. -/
def unitBits (f : Frame) (v : Nat) : Option (Frame × Bits) := some (f, natBits (frameWidth f) v)

/-- The kind of unit and the bits of an instruction that has an encoding. The internal operations and the
state-dependent classes have none of their own (rules R97, R109). -/
def encode : Instr → Option (Frame × Bits)
  | .illegalCmd000 => unitBits .command 0
  | .compressN => unitBits .command 1
  | .compressR => unitBits .command 2
  | .compressM => unitBits .command 3
  | .expand => unitBits .command 4
  | .illegalCmd101 => unitBits .command 5
  | .illegalCmd110 => unitBits .command 6
  | .illegalCmd111 => unitBits .command 7
  | .tagNone => unitBits .header 1
  | .tagFullReset => unitBits .header 2
  | .tagRatioMonitored => unitBits .header 3
  | .tagIllegal t => unitBits .header t.toNat
  | .litW9 b => unitBits (.codeword 9) b.toNat
  | .eofW9 => unitBits (.codeword 9) Config.eofCode
  | .dynW9 c => unitBits (.codeword 9) c.toNat
  | .litW10 b => unitBits (.codeword 10) b.toNat
  | .eofW10 => unitBits (.codeword 10) Config.eofCode
  | .dynW10 c => unitBits (.codeword 10) c.toNat
  | .litW11 b => unitBits (.codeword 11) b.toNat
  | .eofW11 => unitBits (.codeword 11) Config.eofCode
  | .dynW11 c => unitBits (.codeword 11) c.toNat
  | .litW12 b => unitBits (.codeword 12) b.toNat
  | .eofW12 => unitBits (.codeword 12) Config.eofCode
  | .dynW12 c => unitBits (.codeword 12) c.toNat
  | .litW13 b => unitBits (.codeword 13) b.toNat
  | .eofW13 => unitBits (.codeword 13) Config.eofCode
  | .dynW13 c => unitBits (.codeword 13) c.toNat
  | .litW14 b => unitBits (.codeword 14) b.toNat
  | .eofW14 => unitBits (.codeword 14) Config.eofCode
  | .dynW14 c => unitBits (.codeword 14) c.toNat
  | .litW15 b => unitBits (.codeword 15) b.toNat
  | .eofW15 => unitBits (.codeword 15) Config.eofCode
  | .dynW15 c => unitBits (.codeword 15) c.toNat
  | .litW16 b => unitBits (.codeword 16) b.toNat
  | .eofW16 => unitBits (.codeword 16) Config.eofCode
  | .dynW16 c => unitBits (.codeword 16) c.toNat
  | .dynRef _ => none
  | .dynKwkwk _ => none
  | .dynInvalid _ => none
  | .encStart _ => none
  | .encStep => none
  | .encLookup => none
  | .encEmit _ _ => none
  | .encPolicy => none
  | .encInsert _ => none
  | .encGrow => none
  | .encAdvance _ => none
  | .encFinish => none
  | .decStart _ => none
  | .decFirst => none
  | .decStep => none
  | .decOutput => none
  | .decPolicy => none
  | .decRead => none
  | .decResolve _ => none
  | .decInsert _ => none
  | .decGrow => none
  | .decAdvance _ => none
  | .decFinish => none
  | .wcInit _ => none
  | .wcReached _ => none
  | .wcGrow _ => none
  | .rpSaturated _ => none
  | .rpAccount _ _ _ => none
  | .rpEval _ => none
  | .rpEvalNone _ => none
  | .rpEvalFullReset _ => none
  | .rpEvalRatioBaseline _ => none
  | .rpEvalRatioCompare _ => none
  | .dictReset _ => none
  | .putBits _ _ => none
  | .getBits _ => none
  | .close _ => none
  | .writeBytes _ => none
  | .readAllBytes => none
  | .longestPrefix _ => none
  | .dictInsert _ _ => none
  | .dictSeed => none
  | .tableRead _ => none
  | .tableWrite _ _ => none
  | .tableSeed => none

/-- The narrowest codeword width that holds `v` (rule R99). -/
def narrowestWidth (v : Nat) : Nat :=
  if v < 2 ^ 9 then 9 else if v < 2 ^ 10 then 10 else if v < 2 ^ 11 then 11 else if v < 2 ^ 12 then 12
  else if v < 2 ^ 13 then 13 else if v < 2 ^ 14 then 14 else if v < 2 ^ 15 then 15 else 16

/-- The kind of unit that a bare number of `nbits` bits is taken for, since the number itself does not say
(rule R95, assumption log 10): at most 8 bits, a command word; 10 to 15 bits, a codeword of that width; otherwise
a legal mode tag, or else a codeword at the narrowest width that holds it. -/
def tableFrame (nbits w : Nat) : Frame :=
  if nbits ≤ 8 then .command
  else if 10 ≤ nbits ∧ nbits ≤ 15 then .codeword nbits
  else if 1 ≤ w ∧ w ≤ 3 then .header
  else .codeword (narrowestWidth w)

/-- The unit that `w` stands for, as the stream holds it: its bits most significant first, then zero bits to
a whole number of bytes (rules R72, R74). -/
def tableBits (nbits w : Nat) : Bits :=
  let n := frameWidth (tableFrame nbits w)
  natBits n w ++ padBits n

/-- The instruction the decoder reads from a unit of value `w`. -/
def decodeTableWord (nbits w : Nat) : Option Instr :=
  match decode (tableFrame nbits w) (tableBits nbits w) with
  | .ok (i, _) => some i
  | .error _ => none

end Sys2Proof
end

