-- ==== Sys2Proof/Machine/State.lean ====
section
/-! DEFINITION. The state of the block: both engines with all they own, their stream ends, the host's pending
events and the open parameters; the reasons a run can stop; the state at power-on. -/
namespace Sys2Proof.Machine

/-- Encoder phases (rule R21). -/
inductive EncPhase where
  | idle
  | step
  | done
  | fault
  deriving DecidableEq, Repr

/-- Decoder phases (rule R33). -/
inductive DecPhase where
  | idle
  | first
  | loop
  | done
  | fault
  deriving DecidableEq, Repr

/-- The faults of the block (rule R200). They are state that the host reads, not stops of the model. -/
inductive FaultCode where
  | none
  | invocationError
  | prematureEnd
  | badModeTag
  | codewordOutOfRange
  | counterOverflow
  deriving DecidableEq, Repr

/-- A dictionary store: the codewords that stand for a sequence, each with its sequence, codewords strictly
rising. A codeword not listed stands for no sequence (rules R26, R37, R60). -/
abbrev Store := List (Nat × Bytes)

/-- What both engines hold of the Width Controller and the Reset Policy (rules R22 to R25, R28 to R30, R34 to
R36, R39 to R41). -/
structure Common where
  mode : Mode
  W : Nat
  L : Nat
  count : Nat
  U : Nat
  C : Nat
  oldRatio : Option Snapshot
  newRatio : Option Snapshot
  ratioSet : Bool
  deriving DecidableEq, Repr

/-- The Encoder's registers (rules R22 to R30). -/
structure EncRegs where
  common : Common
  dict : Store
  inp : Bytes
  pos : Nat
  deriving DecidableEq, Repr

/-- The Decoder's registers (rules R34 to R43). `readW` is the width at which the codeword of `val` was read,
which `DEC_ACCOUNT_WIDTH == as_read` needs (rule R173, assumption log 7). -/
structure DecRegs where
  common : Common
  table : Store
  val : Option Bytes
  readW : Option Nat
  src : Bytes
  bitpos : Nat
  deriving DecidableEq, Repr

/-- The Encoder's bit sink (rules R32, R74). -/
structure BitSink where
  bits : Bits
  closed : Bool
  deriving DecidableEq, Repr

/-- The Decoder's byte sink (rules R44, R74). -/
structure ByteSink where
  bytes : Bytes
  closed : Bool
  deriving DecidableEq, Repr

/-- The Encoder. `regs` is `none` where the spec says that every register holds `none`: in phase IDLE and in
phase FAULT (rules R50, R51, R209). -/
structure Encoder where
  phase : EncPhase
  fault : FaultCode
  info : Option Nat
  regs : Option EncRegs
  out : Option BitSink
  deriving DecidableEq, Repr

/-- The Decoder; `regs` as for the Encoder. -/
structure Decoder where
  phase : DecPhase
  fault : FaultCode
  info : Option Nat
  regs : Option DecRegs
  out : Option ByteSink
  deriving DecidableEq, Repr

/-- What comes from outside the engines: a command word with the input stream the host connected before it
(rules R104, R233), or the choice of the engine that moves next (rule R217; assumption log 5). -/
inductive Event where
  | command (cmd : BitVec 3) (input : Bytes)
  | turn (x : Engine)
  deriving DecidableEq, Repr

/-- What an internal operation run on its own returned (rule R45; assumption log 6). -/
inductive Ret where
  | nothing
  | flag (b : Bool)
  | number (v : Option Nat)
  | seq (q : Bytes)
  | entry (q : Bytes) (c : Nat)
  deriving DecidableEq, Repr

structure State where
  enc : Encoder
  dec : Decoder
  /-- The bytes waiting at the Encoder's input end, which ReadAllBytes delivers (rule R71 (a)). -/
  byteSource : Bytes
  /-- The bytes waiting at the Decoder's input end, which DEC.START takes as `D.src` (rule R43). -/
  bitSource : Bytes
  host : List Event
  ret : Ret
  params : Params
  deriving DecidableEq, Repr

/-- Why the model stops. The block itself has no such state: its own faults are next states. -/
inductive Fault where
  /-- An operation run in a phase in which it is not enabled (rules R21, R33, R109; 93 U16 'stuck'). Raised by
  the engine operations. Safe. -/
  | notEnabled
  /-- A read of a piece of state that holds `none` (rule R50, decision D10). Raised by every operation that reads
  a register, a store slot or a sink. Safe. -/
  | noValue
  /-- Operands outside the contract the operation's rule states, for which the spec gives no effect (rules R62,
  R63, R65, R66, R72, R73, R122, R137, R138). Raised by the operations those rules define. Safe. -/
  | outsideContract
  /-- A write to a sink after Close (rule R74). Raised by PutBits and WriteBytes. Safe. -/
  | sinkClosed
  /-- A unit of another width than the one the Decoder reads next (rules R77, R95). Raised by the codeword rows
  when run on their own. Safe. -/
  | widthMismatch
  /-- A row of rule R97 run in a state in which its condition does not hold. Raised by DYN.REF, DYN.KWKWK and
  DYN.INVALID. Safe. -/
  | wrongClass
  deriving DecidableEq, Repr

/-- Why the model gives no meaning. -/
inductive Refusal where
  /-- An instruction of the table that has no meaning yet. Raised by `exec`'s arm alone. Safe. -/
  | notModelled (mnemonic : String)
  /-- A byte sequence longer than a finite `SEQ_MAX`: 93 U9 says a model must refuse it. Raised by the operations
  that make a sequence or hold one, and by those that are given one. Safe. -/
  | seqTooLong
  deriving DecidableEq, Repr

/-- Power-on (rules R51, R230): both engines idle, fault codes 0, everything else `none`; nothing waits at the
inputs (assumption logs 4, 5, 6); the parameters at the defaults of rule R12. -/
def State.reset : State :=
  { enc := { phase := .idle, fault := .none, info := none, regs := none, out := none }
    dec := { phase := .idle, fault := .none, info := none, regs := none, out := none }
    byteSource := []
    bitSource := []
    host := []
    ret := .nothing
    params := Config.defaults }

end Sys2Proof.Machine
end

