-- ==== Sys2Proof/Machine/Flags.lean ====
section
/-! DEFINITION. The codes the host reads, and every condition the spec computes from registers (10_state.md
section 6): the phases in which an engine runs, capacity reached, saturation, the ratio test. -/
namespace Sys2Proof.Machine

/-- The numeric phase codes of rule R109. -/
def EncPhase.code : EncPhase → Nat
  | .idle => 0
  | .step => 1
  | .done => 2
  | .fault => 3

/-- The numeric phase codes of rule R109. -/
def DecPhase.code : DecPhase → Nat
  | .idle => 0
  | .first => 1
  | .loop => 2
  | .done => 3
  | .fault => 4

/-- The fault codes of rule R200. -/
def FaultCode.code : FaultCode → Nat
  | .none => 0
  | .invocationError => 1
  | .prematureEnd => 2
  | .badModeTag => 3
  | .codewordOutOfRange => 4
  | .counterOverflow => 5

/-- The number of a mode (rule R9). -/
def modeNumber : Mode → Nat
  | .none => 1
  | .fullReset => 2
  | .ratioMonitored => 3

/-- The mode a number names (rule R9). -/
def modeOfNumber : Nat → Option Mode
  | 1 => some .none
  | 2 => some .fullReset
  | 3 => some .ratioMonitored
  | _ => none

/-- An engine inside an invocation: phase STEP, FIRST or LOOP (rule R109). In every other phase only its START is
enabled (rules R21, R33). -/
def State.running (x : Engine) (s : State) : Bool :=
  match x with
  | .enc => decide (s.enc.phase = .step)
  | .dec => decide (s.dec.phase = .first ∨ s.dec.phase = .loop)

/-- WC.REACHED (rule R121): the Encoder tests `count == L`, the Decoder `count == L - 1`. -/
def capacityReached (x : Engine) (c : Common) : Bool :=
  match x with
  | .enc => decide (c.count = c.L ∧ c.W < Config.wMax)
  | .dec => decide (c.count + 1 = c.L ∧ c.W < Config.wMax)

/-- RP.SATURATED (rule R130). -/
def saturated (c : Common) : Bool := decide (c.count = Config.ceiling)

/-- `RatioExceeds` (rule R133), `oldRatio / newRatio > 11/10` with the denominators multiplied out, or the
comparison of another number format (rule R12). -/
def ratioExceeds (t : RatioTest) (old new : Snapshot) : Bool :=
  match t with
  | .exact => decide (10 * old.U * new.C > 11 * old.C * new.U)
  | .other n => Config.otherRatioExceeds n old new

/-- A sum that does not fit a counter of `cntW` bits (rule R205). -/
def counterOverflows (cntW : Option Nat) (v : Nat) : Bool :=
  match cntW with
  | none => false
  | some n => decide (2 ^ n ≤ v)

/-- A sequence within `SEQ_MAX` (rule R12). -/
def seqFits (seqMax : Option Nat) (q : Bytes) : Bool :=
  match seqMax with
  | none => true
  | some n => decide (q.length ≤ n)

end Sys2Proof.Machine
end

