-- ==== Sys2Proof/Machine/Ops.lean ====
section
/-! DEFINITION. The operations the meanings are made of: how an operation ends, the registers, taking a fault of
the block, the two dictionary stores, the Bit Stream I/O primitives. -/
namespace Sys2Proof.Machine

/-- How an operation of an engine ends. `go`: it returns a value and the operation that called it goes on.
`ended`: the step ends here with this state, because a fault of the block was raised (rule R209) or DEC.FINISH
ran inside DEC.READ (rule R175). `fault`, `refused`: the model stops. -/
inductive Run (α : Type) where
  | go (a : α) (s : State)
  | ended (s : State)
  | fault (f : Fault)
  | refused (r : Refusal)

/-- Go on with `k` where the operation went on. -/
def Run.bind {α β : Type} (m : Run α) (k : α → State → Run β) : Run β :=
  match m with
  | .go a s => k a s
  | .ended s => .ended s
  | .fault f => .fault f
  | .refused r => .refused r

/-- The outcome of an operation that returns nothing to keep. -/
def Run.outcome {α : Type} (m : Run α) : Host.Outcome State Fault Refusal :=
  match m with
  | .go _ s => .next s
  | .ended s => .next s
  | .fault f => .fault f
  | .refused r => .refused r

/-- The outcome of an operation run on its own whose returned value is kept in `ret` (assumption log 6). -/
def Run.outcomeRet {α : Type} (m : Run α) (f : α → Ret) : Host.Outcome State Fault Refusal :=
  match m with
  | .go a s => .next { s with ret := f a }
  | .ended s => .next s
  | .fault e => .fault e
  | .refused r => .refused r

/-- Run `k` if the condition under which the operation is enabled holds (rule R109). -/
def whenEnabled {α : Type} (b : Bool) (k : Run α) : Run α :=
  if b then k else .fault .notEnabled

/-! ### Registers -/

/-- The Encoder's registers; reading them while they hold `none` is a fault of the model (rule R50). -/
def readEnc (s : State) : Run EncRegs :=
  match s.enc.regs with
  | some r => .go r s
  | none => .fault .noValue

/-- The Decoder's registers. -/
def readDec (s : State) : Run DecRegs :=
  match s.dec.regs with
  | some r => .go r s
  | none => .fault .noValue

def State.setEnc (r : EncRegs) (s : State) : State := { s with enc := { s.enc with regs := some r } }

def State.setDec (r : DecRegs) (s : State) : State := { s with dec := { s.dec with regs := some r } }

/-- The Width Controller and Reset Policy registers of engine `x`. -/
def readCommon (x : Engine) (s : State) : Run Common :=
  match x with
  | .enc => (readEnc s).bind fun r s => .go r.common s
  | .dec => (readDec s).bind fun r s => .go r.common s

/-- Write the Width Controller and Reset Policy registers of engine `x`. -/
def writeCommon (x : Engine) (c : Common) (s : State) : Run Unit :=
  match x with
  | .enc => (readEnc s).bind fun r s => .go () (s.setEnc { r with common := c })
  | .dec => (readDec s).bind fun r s => .go () (s.setDec { r with common := c })

/-- The registers both engines start with (rules R52, R53, R231). -/
def startCommon (m : Mode) : Common :=
  { mode := m, W := Config.wMin, L := Config.lMin, count := Config.firstDyn, U := 0, C := 0
    oldRatio := none, newRatio := none, ratioSet := false }

/-! ### Taking a fault, and leaving one -/

/-- `raise F(info)` (rule R209): the code and the phase are written, the output stays, every other register of the
engine holds `none` from then on (assumption log 2). -/
def State.raise (x : Engine) (code : FaultCode) (info : Option Nat) (s : State) : State :=
  match x with
  | .enc => { s with enc := { s.enc with phase := .fault, fault := code, info := info, regs := none } }
  | .dec => { s with dec := { s.dec with phase := .fault, fault := code, info := info, regs := none } }

/-- The output of an invocation that begins is empty and open, whatever the engine held (rules R20, R52, R53, R231); so
it is where DEC.START raises a fault (rules R201, R210, assumption log 3). -/
def State.clearOut (x : Engine) (s : State) : State :=
  match x with
  | .enc => { s with enc := { s.enc with out := some { bits := [], closed := false } } }
  | .dec => { s with dec := { s.dec with out := some { bytes := [], closed := false } } }

/-- The Encoder's output where ENC.START raises InvocationError: the bits stay (rule R150) and it is not closed (rule R220,
decision D9); where there is none yet it is empty (rule R201). Assumption log 3. -/
def State.keepOut (s : State) : State :=
  { s with enc := { s.enc with out := some { s.enc.out.getD { bits := [], closed := false } with closed := false } } }

/-- The running operation ends at the raise (rule R209). There is no return from a fault (rule R211): only the
START operation of the same engine leaves phase FAULT, and it begins a new invocation. -/
def raiseFault {α : Type} (x : Engine) (code : FaultCode) (info : Option Nat) (s : State) : Run α :=
  .ended (s.raise x code info)

/-! ### The dictionary stores -/

/-- The sequence of a codeword (rules R26, R37). -/
def Store.read (i : Nat) : Store → Option Bytes
  | [] => none
  | (j, q) :: t => if j = i then some q else Store.read i t

/-- Let codeword `i` stand for `q`; the codewords stay strictly rising. -/
def Store.write (i : Nat) (q : Bytes) : Store → Store
  | [] => [(i, q)]
  | (j, p) :: t =>
    if i < j then (i, q) :: (j, p) :: t
    else if i = j then (i, q) :: t
    else (j, p) :: Store.write i q t

/-- The codeword of a key (rule R26). -/
def Store.codeOf (key : Bytes) : Store → Option Nat
  | [] => none
  | (j, p) :: t => if p = key then some j else Store.codeOf key t

/-- The 256 one-byte sequences, `<b>` at codeword `b`, and nothing else (rules R64, R67). That they stand
there whatever `SEQ_MAX` is, 0 too, is the model's choice: no seed is refused (assumption log 12). -/
def Store.seed : Store := (List.range 256).map fun b => (b, [BitVec.ofNat 8 b])

/-- The longest key that is a prefix of `rest`, with its codeword (rule R62). Every key is looked at: the keys need
not be prefix-closed (rule R238). -/
def Store.longestMatch (rest : Bytes) : Store → Option (Bytes × Nat)
  | [] => none
  | (c, key) :: t =>
    let best := Store.longestMatch rest t
    if key ≠ [] ∧ key.isPrefixOf rest then
      match best with
      | none => some (key, c)
      | some b => if b.1.length < key.length then some (key, c) else some b
    else best

/-- The canonical form of a store: codewords strictly rising, so that equal maps are equal lists. -/
def Store.wf : Store → Bool
  | [] => true
  | [_] => true
  | a :: b :: t => decide (a.1 < b.1) && Store.wf (b :: t)

/-- The store canonical form, for both engines. -/
def Memory.wf (s : State) : Bool :=
  (match s.enc.regs with | some r => r.dict.wf | none => true) &&
  (match s.dec.regs with | some r => r.table.wf | none => true)

/-- LongestPrefix(E.dict, rest) (rule R62), for a non-empty `rest`. It changes nothing. -/
def longestPrefix (rest : Bytes) (s : State) : Run (Bytes × Nat) :=
  (readEnc s).bind fun r s =>
  match r.dict.longestMatch rest with
  | some b => .go b s
  | none => .fault .outsideContract

/-- A sequence longer than a finite `SEQ_MAX` is refused (93 U9), not truncated (assumption log 12). -/
def holdSeq (q : Bytes) (s : State) : Run Unit :=
  if seqFits s.params.seqMax q then .go () s else .refused .seqTooLong

/-- An operation whose operand is the sequence `q`, run on its own: `q` itself is within `SEQ_MAX` (rule R12). -/
def givenSeq {α : Type} (q : Bytes) (k : State → Run α) (s : State) : Run α := (holdSeq q s).bind fun _ s => k s

/-- DictInsert(E.dict, key, code) (rule R63): its contract is a new non-empty key and a new codeword. That it takes
codeword 256 too, which no caller gives it, is the model's choice (assumption log 11). -/
def dictInsert (key : Bytes) (code : Nat) (s : State) : Run Unit :=
  (readEnc s).bind fun r s =>
  if key = [] ∨ Config.ceiling ≤ code ∨ r.dict.codeOf key ≠ none ∨ r.dict.read code ≠ none then
    .fault .outsideContract
  else (holdSeq key s).bind fun _ s => .go () (s.setEnc { r with dict := r.dict.write code key })

/-- E.dict <- DictSeed() (rule R64); it checks no `SEQ_MAX` (assumption log 12). -/
def dictSeed (s : State) : Run Unit :=
  (readEnc s).bind fun r s => .go () (s.setEnc { r with dict := Store.seed })

/-- TableRead(D.table, i) (rule R65), for `0 <= i <= 65535`; an index that holds `none` is a fault of the model. -/
def tableRead (i : Nat) (s : State) : Run Bytes :=
  if Config.ceiling ≤ i then .fault .outsideContract
  else (readDec s).bind fun r s =>
    match r.table.read i with
    | some q => .go q s
    | none => .fault .noValue

/-- TableWrite(D.table, i, seq) (rule R66), for a non-empty `seq` and an index of the table (rule R60). That
it stores at every index, the EOF slot 256 and one that holds a sequence among them, is the model's choice: the only
caller gives a free index from 257 up (assumption log 11). -/
def tableWrite (i : Nat) (q : Bytes) (s : State) : Run Unit :=
  if Config.ceiling ≤ i ∨ q = [] then .fault .outsideContract
  else (readDec s).bind fun r s =>
    (holdSeq q s).bind fun _ s => .go () (s.setDec { r with table := r.table.write i q })

/-- D.table <- TableSeed() (rule R67), after which `D.count` is 257; it checks no `SEQ_MAX` (assumption log 12). -/
def tableSeed (s : State) : Run Unit :=
  (readDec s).bind fun r s =>
  .go () (s.setDec { r with table := Store.seed, common := { r.common with count := Config.firstDyn } })

/-! ### The Bit Stream I/O primitives -/

/-- ReadAllBytes() (rules R71 (a), R76, R82): the whole input, which is consumed. -/
def readAllBytes (s : State) : Run Bytes := .go s.byteSource { s with byteSource := [] }

/-- PutBits(v, n) (rule R72) on the Encoder's bit sink. -/
def putBits (v n : Nat) (s : State) : Run Unit :=
  if putBitsOk v n then
    match s.enc.out with
    | none => .fault .noValue
    | some o =>
      if o.closed then .fault .sinkClosed
      else .go () { s with enc := { s.enc with out := some { o with bits := o.bits ++ natBits n v } } }
  else .fault .outsideContract

/-- The `n` bits of `src` from bit `at` on as a number, `none` when fewer are left (rule R73). -/
def peekBits (src : Bytes) (pos n : Nat) : Option Nat :=
  if pos + n ≤ (streamBits src).length then some (bitsToNat (((streamBits src).drop pos).take n)) else none

/-- GetBits(n) (rule R73): `none` is `EndOfInput`, and then nothing is consumed. -/
def getBits (n : Nat) (s : State) : Run (Option Nat) :=
  if getBitsOk n then
    (readDec s).bind fun r s =>
    match peekBits r.src r.bitpos n with
    | none => .go none s
    | some v => .go (some v) (s.setDec { r with bitpos := r.bitpos + n })
  else .fault .outsideContract

/-- WriteBytes(seq) (rule R76) on the Decoder's byte sink. -/
def writeBytes (q : Bytes) (s : State) : Run Unit :=
  match s.dec.out with
  | none => .fault .noValue
  | some o =>
    if o.closed then .fault .sinkClosed
    else .go () { s with dec := { s.dec with out := some { o with bytes := o.bytes ++ q } } }

/-- The bit sink closed: zero bits to a whole number of bytes (rule R74). -/
def BitSink.close (o : BitSink) : BitSink := { bits := o.bits ++ padBits o.bits.length, closed := true }

/-- The compressed output as a byte sequence (rules R32, R74). -/
def BitSink.toBytes (o : BitSink) : Bytes := packBytes o.bits

/-- Close(ch) (rule R74) on the sink of engine `x` (assumption log 14 for a second Close). -/
def closeSink (x : Engine) (s : State) : Run Unit :=
  match x with
  | .enc =>
    match s.enc.out with
    | none => .fault .noValue
    | some o => .go () { s with enc := { s.enc with out := some o.close } }
  | .dec =>
    match s.dec.out with
    | none => .fault .noValue
    | some o => .go () { s with dec := { s.dec with out := some { o with closed := true } } }

end Sys2Proof.Machine
end

