-- ==== Sys2Proof/Machine/Width.lean ====
section
/-! DEFINITION. The Width Controller (40_width_controller.md): WC.INIT, WC.REACHED, WC.GROW. -/
namespace Sys2Proof.Machine

/-- The width state at its start value (rule R120). -/
def initWidth (c : Common) : Common := { c with W := Config.wMin, L := Config.lMin }

/-- The width-growth transition (rule R122); it changes nothing but `W` and `L`. -/
def growWidth (c : Common) : Common := { c with W := c.W + 1, L := c.L * 2 }

/-- ENC.GROW and DEC.GROW: grow where the capacity is reached (rules R121, R156, R178). -/
def growIfReached (x : Engine) (s : State) : Run Unit :=
  (readCommon x s).bind fun c s =>
  if capacityReached x c then writeCommon x (growWidth c) s else .go () s

/-- WC.INIT (rule R120). -/
def execWcInit (x : Engine) (s : State) : Host.Outcome State Fault Refusal :=
  (whenEnabled (s.running x) ((readCommon x s).bind fun c s => writeCommon x (initWidth c) s)).outcome

/-- WC.REACHED (rule R121): it reads state and returns the trigger. -/
def execWcReached (x : Engine) (s : State) : Host.Outcome State Fault Refusal :=
  (whenEnabled (s.running x)
    ((readCommon x s).bind fun c s => .go (capacityReached x c) s)).outcomeRet .flag

/-- WC.GROW (rule R122), whose precondition is `X.W < 16`. -/
def execWcGrow (x : Engine) (s : State) : Host.Outcome State Fault Refusal :=
  (whenEnabled (s.running x) ((readCommon x s).bind fun c s =>
    if c.W < Config.wMax then writeCommon x (growWidth c) s else .fault .outsideContract)).outcome

end Sys2Proof.Machine
end

