-- ==== Sys2Proof/Machine/Policy.lean ====
section
/-! DEFINITION. The Reset Policy (41_reset_policy.md): RP.SATURATED, RP.ACCOUNT, RP.EVAL and its variants,
DICT.RESET. -/
namespace Sys2Proof.Machine

/-- RP.ACCOUNT (rule R131): both counters grow exactly, or CounterOverflow is raised (rule R205,
assumption log 12). -/
def accountBits (x : Engine) (ubits cbits : Nat) (s : State) : Run Unit :=
  (readCommon x s).bind fun c s =>
  if counterOverflows s.params.cntW (c.U + ubits) || counterOverflows s.params.cntW (c.C + cbits) then
    raiseFault x .counterOverflow none s
  else writeCommon x { c with U := c.U + ubits, C := c.C + cbits } s

/-- The ratio at this moment (rule R132). -/
def snapshot (c : Common) : Snapshot := { U := c.U, C := c.C }

/-- RP.EVAL.NONE (rule R135). -/
def evalNone (c : Common) : Bool × Common := (false, c)

/-- RP.EVAL.FULLRESET (rule R136). -/
def evalFullReset (c : Common) : Bool × Common := (true, c)

/-- RP.EVAL.RATIO, baseline case (rule R137). -/
def evalBaseline (c : Common) : Bool × Common :=
  (false, { c with oldRatio := some (snapshot c), ratioSet := true })

/-- RP.EVAL.RATIO, compare case, against the baseline `old` (rule R138). -/
def evalCompare (t : RatioTest) (old : Snapshot) (c : Common) : Bool × Common :=
  if ratioExceeds t old (snapshot c) then
    (true, { c with ratioSet := false, oldRatio := none, newRatio := none })
  else (false, { c with newRatio := some (snapshot c) })

/-- RP.EVAL.RATIO (rules R137, R138); `none` where the compare case would read a baseline that holds `none`. -/
def evalRatio (t : RatioTest) (c : Common) : Option (Bool × Common) :=
  if c.ratioSet then c.oldRatio.map fun old => evalCompare t old c else some (evalBaseline c)

/-- RP.EVAL (rule R134): whether the dictionary must be reset now, and the policy state after. -/
def evalPolicy (t : RatioTest) (c : Common) : Option (Bool × Common) :=
  if saturated c then
    match c.mode with
    | .none => some (evalNone c)
    | .fullReset => some (evalFullReset c)
    | .ratioMonitored => evalRatio t c
  else some (false, c)

/-- RP.EVAL on engine `x`. -/
def runEval (x : Engine) (s : State) : Run Bool :=
  (readCommon x s).bind fun c s =>
  match evalPolicy s.params.ratio c with
  | none => .fault .noValue
  | some (fire, c') => (writeCommon x c' s).bind fun _ s => .go fire s

/-- DICT.RESET (rule R139): the seed dictionary, `count` 257, `W` 9, `L` 512; rule R54 lists what stays. -/
def resetDict (x : Engine) (s : State) : Run Unit :=
  ((match x with
    | .enc => dictSeed s
    | .dec => tableSeed s) : Run Unit).bind fun _ s =>
  (readCommon x s).bind fun c s => writeCommon x (initWidth { c with count := Config.firstDyn }) s

/-- ENC.POLICY and DEC.POLICY (rules R154, R174). -/
def applyPolicy (x : Engine) (s : State) : Run Unit :=
  (runEval x s).bind fun fire s => if fire then resetDict x s else .go () s

/-- Run a variant of RP.EVAL on its own, in the case its rule names. -/
def runVariant (x : Engine) (inCase : Common → Bool) (variant : State → Common → Option (Bool × Common))
    (s : State) : Run Bool :=
  whenEnabled (s.running x) ((readCommon x s).bind fun c s =>
    if inCase c then
      match variant s c with
      | none => .fault .noValue
      | some (fire, c') => (writeCommon x c' s).bind fun _ s => .go fire s
    else .fault .outsideContract)

/-- RP.SATURATED (rule R130): it reads state and returns the condition. -/
def execRpSaturated (x : Engine) (s : State) : Host.Outcome State Fault Refusal :=
  (whenEnabled (s.running x) ((readCommon x s).bind fun c s => .go (saturated c) s)).outcomeRet .flag

/-- RP.ACCOUNT (rule R131). -/
def execRpAccount (x : Engine) (ubits cbits : Nat) (s : State) : Host.Outcome State Fault Refusal :=
  (whenEnabled (s.running x) (accountBits x ubits cbits s)).outcome

/-- RP.EVAL (rule R134). -/
def execRpEval (x : Engine) (s : State) : Host.Outcome State Fault Refusal :=
  (whenEnabled (s.running x) (runEval x s)).outcomeRet .flag

/-- RP.EVAL.NONE (rule R135), mode 1. -/
def execRpEvalNone (x : Engine) (s : State) : Host.Outcome State Fault Refusal :=
  (runVariant x (fun c => decide (c.mode = .none)) (fun _ c => some (evalNone c)) s).outcomeRet .flag

/-- RP.EVAL.FULLRESET (rule R136), mode 2. -/
def execRpEvalFullReset (x : Engine) (s : State) : Host.Outcome State Fault Refusal :=
  (runVariant x (fun c => decide (c.mode = .fullReset)) (fun _ c => some (evalFullReset c)) s).outcomeRet .flag

/-- RP.EVAL.RATIO, baseline case (rule R137): mode 3, `ratioSet` false. -/
def execRpEvalRatioBaseline (x : Engine) (s : State) : Host.Outcome State Fault Refusal :=
  (runVariant x (fun c => decide (c.mode = .ratioMonitored ∧ c.ratioSet = false))
    (fun _ c => some (evalBaseline c)) s).outcomeRet .flag

/-- RP.EVAL.RATIO, compare case (rule R138): mode 3, `ratioSet` true. -/
def execRpEvalRatioCompare (x : Engine) (s : State) : Host.Outcome State Fault Refusal :=
  (runVariant x (fun c => decide (c.mode = .ratioMonitored ∧ c.ratioSet = true))
    (fun s c => c.oldRatio.map fun old => evalCompare s.params.ratio old c) s).outcomeRet .flag

/-- DICT.RESET (rule R139). -/
def execDictReset (x : Engine) (s : State) : Host.Outcome State Fault Refusal :=
  (whenEnabled (s.running x) (resetDict x s)).outcome

end Sys2Proof.Machine
end

