-- ==== Sys2Proof/Machine/Encoder.lean ====
section
/-! DEFINITION. The Encoder (42_encoder.md): ENC.START, ENC.STEP with its six sub-steps, ENC.FINISH. -/
namespace Sys2Proof.Machine

/-- ENC.START(m) (rule R150). `m` is `cmd[1:0]`; an illegal mode raises InvocationError, whose info is the
command word; the input is not read, no header is written and the output stays (assumption log 3). The seed is held
whatever `SEQ_MAX` is (assumption log 12). -/
def encStart (m : BitVec 2) (s : State) : Run Unit :=
  match modeOfNumber m.toNat with
  | none => raiseFault .enc .invocationError (some m.toNat) s.keepOut
  | some mode =>
    (readAllBytes (s.clearOut .enc)).bind fun inp s =>
    let regs : EncRegs := { common := startCommon mode, dict := Store.seed, inp := inp, pos := 0 }
    let s := { s with enc := { s.enc with fault := .none, info := none, regs := some regs } }
    (putBits (modeNumber mode) Config.headerW s).bind fun _ s =>
    .go () { s with enc := { s.enc with phase := .step } }

/-- ENC.LOOKUP (rule R152). `s` is within `SEQ_MAX` (rule R12). -/
def encLookup (s : State) : Run (Bytes × Nat) :=
  (readEnc s).bind fun r s =>
  (longestPrefix (r.inp.drop r.pos) s).bind fun found s =>
  (holdSeq found.1 s).bind fun _ s => .go found s

/-- ENC.EMIT(s, c) (rule R153). -/
def encEmit (q : Bytes) (c : Nat) (s : State) : Run Unit :=
  (readEnc s).bind fun r s =>
  (putBits c r.common.W s).bind fun _ s => accountBits .enc (8 * q.length) r.common.W s

/-- ENC.POLICY (rule R154). -/
def encPolicy (s : State) : Run Unit := applyPolicy .enc s

/-- The entry ENC.INSERT adds: `s` followed by the next input byte (rule R155). -/
def insertKey (q : Bytes) (r : EncRegs) : Bytes := (r.inp.drop r.pos).take (q.length + 1)

/-- ENC.INSERT(s) (rule R155). -/
def encInsert (q : Bytes) (s : State) : Run Unit :=
  (readEnc s).bind fun r s =>
  if r.pos + q.length < r.inp.length ∧ r.common.count < r.common.L then
    (dictInsert (insertKey q r) r.common.count s).bind fun _ s =>
    writeCommon .enc { r.common with count := r.common.count + 1 } s
  else .go () s

/-- ENC.GROW (rule R156). -/
def encGrow (s : State) : Run Unit := growIfReached .enc s

/-- ENC.ADVANCE(s) (rule R157). -/
def encAdvance (q : Bytes) (s : State) : Run Unit :=
  (readEnc s).bind fun r s => .go () (s.setEnc { r with pos := r.pos + q.length })

/-- ENC.STEP (rule R151): the six sub-steps in their order. -/
def encStepBody (s : State) : Run Unit :=
  (encLookup s).bind fun found s =>
  (encEmit found.1 found.2 s).bind fun _ s =>
  (encPolicy s).bind fun _ s =>
  (encInsert found.1 s).bind fun _ s =>
  (encGrow s).bind fun _ s =>
  encAdvance found.1 s

/-- ENC.FINISH (rule R158). -/
def encFinishBody (s : State) : Run Unit :=
  (readEnc s).bind fun r s =>
  (putBits Config.eofCode r.common.W s).bind fun _ s =>
  (closeSink .enc s).bind fun _ s =>
  .go () { s with enc := { s.enc with phase := .done } }

/-- A command word for the Encoder (rule R104). To a running engine it is not accepted and changes nothing
(rules R109, R233; assumption log 1). -/
def encCommand (m : BitVec 2) (s : State) : Host.Outcome State Fault Refusal :=
  if s.running .enc then .next s else (encStart m s).outcome

/-- COMPRESS.N (rule R104): ENC.START with mode None. -/
def execCompressN (s : State) : Host.Outcome State Fault Refusal := encCommand 1 s

/-- COMPRESS.R (rule R104): ENC.START with mode FullReset. -/
def execCompressR (s : State) : Host.Outcome State Fault Refusal := encCommand 2 s

/-- COMPRESS.M (rule R104): ENC.START with mode RatioMonitored. -/
def execCompressM (s : State) : Host.Outcome State Fault Refusal := encCommand 3 s

/-- The illegal command 000 (rule R105): InvocationError in the Encoder. -/
def execIllegalCmd000 (s : State) : Host.Outcome State Fault Refusal := encCommand 0 s

/-- ENC.START (rule R150), enabled in IDLE, DONE and FAULT. -/
def execEncStart (m : BitVec 2) (s : State) : Host.Outcome State Fault Refusal :=
  (whenEnabled (!s.running .enc) (encStart m s)).outcome

/-- ENC.STEP (rule R151), enabled in STEP while input remains. -/
def execEncStep (s : State) : Host.Outcome State Fault Refusal :=
  (whenEnabled (s.running .enc) ((readEnc s).bind fun r s =>
    whenEnabled (decide (r.pos < r.inp.length)) (encStepBody s))).outcome

/-- ENC.LOOKUP (rule R152) on its own: it writes nothing and returns `s` and its codeword. -/
def execEncLookup (s : State) : Host.Outcome State Fault Refusal :=
  (whenEnabled (s.running .enc) (encLookup s)).outcomeRet fun b => .entry b.1 b.2

/-- ENC.EMIT (rule R153). -/
def execEncEmit (q : Bytes) (c : Nat) (s : State) : Host.Outcome State Fault Refusal :=
  (whenEnabled (s.running .enc) (givenSeq q (encEmit q c) s)).outcome

/-- ENC.POLICY (rule R154). -/
def execEncPolicy (s : State) : Host.Outcome State Fault Refusal :=
  (whenEnabled (s.running .enc) (encPolicy s)).outcome

/-- ENC.INSERT (rule R155). -/
def execEncInsert (q : Bytes) (s : State) : Host.Outcome State Fault Refusal :=
  (whenEnabled (s.running .enc) (givenSeq q (encInsert q) s)).outcome

/-- ENC.GROW (rule R156). -/
def execEncGrow (s : State) : Host.Outcome State Fault Refusal :=
  (whenEnabled (s.running .enc) (encGrow s)).outcome

/-- ENC.ADVANCE (rule R157). -/
def execEncAdvance (q : Bytes) (s : State) : Host.Outcome State Fault Refusal :=
  (whenEnabled (s.running .enc) (givenSeq q (encAdvance q) s)).outcome

/-- ENC.FINISH (rule R158), enabled in STEP when no input remains. -/
def execEncFinish (s : State) : Host.Outcome State Fault Refusal :=
  (whenEnabled (s.running .enc) ((readEnc s).bind fun r s =>
    whenEnabled (decide (r.pos = r.inp.length)) (encFinishBody s))).outcome

end Sys2Proof.Machine
end

