-- ==== Sys2Proof/Machine/Operands.lean ====
section
/-! DEFINITION. The operand forms: the class of a codeword (rules R96, R97), and the three ways a codeword comes to
the Decoder: read from the stream at `D.W`, or given by a unit that is run as an instruction, at a width or in a
class. -/
namespace Sys2Proof.Machine

/-- The classes of rules R96 and R97. -/
inductive UnitClass where
  | lit
  | eof
  | ref
  | kwkwk
  | invalid
  deriving DecidableEq, Repr

/-- The class of codeword `c` in a Decoder with `count` slots; `first` is the first codeword position, where every
codeword above 256 is INVALID (rules R97, R102). -/
def unitClass (first : Bool) (count c : Nat) : UnitClass :=
  if c < Config.eofCode then .lit
  else if c = Config.eofCode then .eof
  else if first then .invalid
  else if c < count then .ref
  else if c = count then .kwkwk
  else .invalid

/-- Take `n` bits of the stream as read, at width `n` (rules R43, R73). -/
def consumeUnit (n : Nat) (r : DecRegs) : DecRegs := { r with bitpos := r.bitpos + n, readW := some n }

/-- The next codeword, GetBits(D.W) (rules R73, R171, R175); `none` is `EndOfInput`. -/
def readUnit (s : State) : Run (Option Nat) :=
  (readDec s).bind fun r s =>
  (getBits r.common.W s).bind fun v s =>
  match v with
  | none => .go none s
  | some c => .go (some c) (s.setDec (consumeUnit r.common.W r))

/-- The unit of value `c` at width `w` stands next in the stream: it is read whole (rules R77, R100,
assumption log 13). -/
def presentUnit (w c : Nat) (s : State) : Run (Option Nat) :=
  (readDec s).bind fun r s =>
  if r.common.W = w then .go (some c) (s.setDec (consumeUnit w r)) else .fault .widthMismatch

/-- The unit of value `c` stands next in the stream at the current width, and its class is `k` (rule R97). -/
def presentClass (k : UnitClass) (c : Nat) (s : State) : Run (Option Nat) :=
  (readDec s).bind fun r s =>
  if c < 2 ^ r.common.W ∧ unitClass (decide (s.dec.phase = .first)) r.common.count c = k then
    .go (some c) (s.setDec (consumeUnit r.common.W r))
  else .fault .wrongClass

/-- The mode tag at the head of the stream that waits at the Decoder's input, `none` where it has fewer than 9 bits
(rules R91, R170). -/
def headerTag (s : State) : Option Nat := peekBits s.bitSource 0 Config.headerW

end Sys2Proof.Machine
end

