-- ==== Sys2Proof/Machine/Primitives.lean ====
section
/-! DEFINITION. The stream and store primitives run on their own (20_memory.md). A stream operation is always
enabled (rule R83); a store operation is one of the operations inside a step of its engine (rule R109). What a
primitive returns goes to `ret`. -/
namespace Sys2Proof.Machine

/-- PutBits (rule R72). -/
def execPutBits (v n : Nat) (s : State) : Host.Outcome State Fault Refusal := (putBits v n s).outcome

/-- GetBits (rule R73). -/
def execGetBits (n : Nat) (s : State) : Host.Outcome State Fault Refusal := (getBits n s).outcomeRet .number

/-- Close (rule R74). -/
def execClose (x : Engine) (s : State) : Host.Outcome State Fault Refusal := (closeSink x s).outcome

/-- WriteBytes (rule R76). -/
def execWriteBytes (q : Bytes) (s : State) : Host.Outcome State Fault Refusal := (writeBytes q s).outcome

/-- ReadAllBytes (rules R71, R76). -/
def execReadAllBytes (s : State) : Host.Outcome State Fault Refusal := (readAllBytes s).outcomeRet .seq

/-- LongestPrefix (rule R62). -/
def execLongestPrefix (rest : Bytes) (s : State) : Host.Outcome State Fault Refusal :=
  (whenEnabled (s.running .enc) (longestPrefix rest s)).outcomeRet fun b => .entry b.1 b.2

/-- DictInsert (rule R63). -/
def execDictInsert (key : Bytes) (code : Nat) (s : State) : Host.Outcome State Fault Refusal :=
  (whenEnabled (s.running .enc) (dictInsert key code s)).outcome

/-- DictSeed (rule R64): reseeding replaces the whole dictionary. -/
def execDictSeed (s : State) : Host.Outcome State Fault Refusal :=
  (whenEnabled (s.running .enc) (dictSeed s)).outcome

/-- TableRead (rule R65). -/
def execTableRead (i : Nat) (s : State) : Host.Outcome State Fault Refusal :=
  (whenEnabled (s.running .dec) (tableRead i s)).outcomeRet .seq

/-- TableWrite (rule R66). -/
def execTableWrite (i : Nat) (q : Bytes) (s : State) : Host.Outcome State Fault Refusal :=
  (whenEnabled (s.running .dec) (tableWrite i q s)).outcome

/-- TableSeed (rule R67): reseeding discards every dynamically assigned entry. -/
def execTableSeed (s : State) : Host.Outcome State Fault Refusal :=
  (whenEnabled (s.running .dec) (tableSeed s)).outcome

end Sys2Proof.Machine
end

