-- ==== Sys2Proof/Machine/Decoder.lean ====
section
/-! DEFINITION. The Decoder (43_decoder.md): DEC.START, DEC.FIRST, DEC.STEP with its seven sub-steps, DEC.FINISH.
DEC.FIRST and DEC.STEP take the way the codeword comes to them as an argument, since the same operation runs on a
codeword read from the stream and on a unit run as an instruction. -/
namespace Sys2Proof.Machine

/-- DEC.START (rule R170). `low` is `cmd[1:0]`, `tag` the mode tag, `none` for `EndOfInput`. An illegal command
raises InvocationError, whose info is the command word, and no input is read. The seed is held whatever `SEQ_MAX` is
(assumption log 12). -/
def decStart (low : BitVec 2) (tag : Option Nat) (s : State) : Run Unit :=
  let s := s.clearOut .dec
  if low ≠ 0 then raiseFault .dec .invocationError (some (4 + low.toNat)) s
  else
    let src := s.bitSource
    let s := { s with bitSource := [], dec := { s.dec with fault := .none, info := none } }
    match tag with
    | none => raiseFault .dec .prematureEnd (some 0) s
    | some t =>
      match modeOfNumber t with
      | none => raiseFault .dec .badModeTag (some t) s
      | some mode =>
        let regs : DecRegs := { common := startCommon mode, table := Store.seed, val := none, readW := none, src := src, bitpos := Config.headerW }
        .go () { s with dec := { s.dec with phase := .first, regs := some regs } }

/-- PrematureEnd at the read that failed (rule R202). -/
def raisePremature {α : Type} (s : State) : Run α :=
  (readDec s).bind fun r s => raiseFault .dec .prematureEnd (some r.bitpos) s

/-- DEC.FINISH (rule R180). -/
def decFinishBody (s : State) : Run Unit :=
  (closeSink .dec s).bind fun _ s => .go () { s with dec := { s.dec with phase := .done } }

/-- DEC.FIRST (rule R171). `D.val` is within `SEQ_MAX` (rule R12). -/
def decFirstBody (rd : State → Run (Option Nat)) (s : State) : Run Unit :=
  (rd s).bind fun v s =>
  match v with
  | none => raisePremature s
  | some cw =>
    if cw = Config.eofCode then decFinishBody s
    else if Config.eofCode < cw then raiseFault .dec .codewordOutOfRange (some cw) s
    else
      (tableRead cw s).bind fun q s =>
      (holdSeq q s).bind fun _ s =>
      (readDec s).bind fun r s =>
      let s := s.setDec { r with val := some q }
      .go () { s with dec := { s.dec with phase := .loop } }

/-- The width DEC.OUTPUT accounts (rule R173, decision D6). -/
def accountWidth (p : Params) (r : DecRegs) : Option Nat :=
  match p.decAccountWidth with
  | .current => some r.common.W
  | .asRead => r.readW

/-- DEC.OUTPUT (rule R173). -/
def decOutput (s : State) : Run Unit :=
  (readDec s).bind fun r s =>
  match r.val, accountWidth s.params r with
  | some q, some w => (writeBytes q s).bind fun _ s => accountBits .dec (8 * q.length) w s
  | _, _ => .fault .noValue

/-- DEC.POLICY (rule R174). -/
def decPolicy (s : State) : Run Unit := applyPolicy .dec s

/-- DEC.READ (rule R175): the codeword, or the end of the step after DEC.FINISH. -/
def decRead (rd : State → Run (Option Nat)) (s : State) : Run Nat :=
  (rd s).bind fun v s =>
  match v with
  | none => raisePremature s
  | some cw => if cw = Config.eofCode then (decFinishBody s).bind fun _ s => .ended s else .go cw s

/-- `q` followed by the first byte of `p` (rules R176, R177); `none` where `p` is empty. -/
def appendFirst (q p : Bytes) : Option Bytes := p.head?.map fun b => q ++ [b]

/-- DEC.RESOLVE(cw) (rule R176). `s` is within `SEQ_MAX` (rule R12). -/
def decResolve (cw : Nat) (s : State) : Run Bytes :=
  (readDec s).bind fun r s =>
  if r.common.count < cw then raiseFault .dec .codewordOutOfRange (some cw) s
  else if cw = r.common.count then
    match r.val.bind fun q => appendFirst q q with
    | some q => (holdSeq q s).bind fun _ s => .go q s
    | none => .fault .noValue
  else (tableRead cw s).bind fun q s => (holdSeq q s).bind fun _ s => .go q s

/-- DEC.INSERT(s) (rule R177). -/
def decInsert (q : Bytes) (s : State) : Run Unit :=
  (readDec s).bind fun r s =>
  if r.common.count < r.common.L then
    match r.val.bind fun p => appendFirst p q with
    | some e =>
      (tableWrite r.common.count e s).bind fun _ s =>
      writeCommon .dec { r.common with count := r.common.count + 1 } s
    | none => .fault .noValue
  else .go () s

/-- DEC.GROW (rule R178). -/
def decGrow (s : State) : Run Unit := growIfReached .dec s

/-- DEC.ADVANCE(s) (rule R179). -/
def decAdvance (q : Bytes) (s : State) : Run Unit :=
  (readDec s).bind fun r s => .go () (s.setDec { r with val := some q })

/-- DEC.STEP (rule R172): the seven sub-steps in their order. -/
def decStepBody (rd : State → Run (Option Nat)) (s : State) : Run Unit :=
  (decOutput s).bind fun _ s =>
  (decPolicy s).bind fun _ s =>
  (decRead rd s).bind fun cw s =>
  (decResolve cw s).bind fun q s =>
  (decInsert q s).bind fun _ s =>
  (decGrow s).bind fun _ s =>
  decAdvance q s

/-- A unit of the stream (rule R97): in phase FIRST what DEC.FIRST does with it, in phase LOOP what DEC.STEP does. -/
def decUnit (rd : State → Run (Option Nat)) (s : State) : Run Unit :=
  match s.dec.phase with
  | .first => decFirstBody rd s
  | .loop => decStepBody rd s
  | .idle => .fault .notEnabled
  | .done => .fault .notEnabled
  | .fault => .fault .notEnabled

/-- A command word for the Decoder (rule R104). To a running engine it is not accepted and changes nothing
(rules R109, R233; assumption log 1). -/
def decCommand (low : BitVec 2) (s : State) : Host.Outcome State Fault Refusal :=
  if s.running .dec then .next s else (decStart low (headerTag s) s).outcome

/-- EXPAND (rule R104): DEC.START. -/
def execExpand (s : State) : Host.Outcome State Fault Refusal := decCommand 0 s

/-- The illegal command 101 (rule R105): InvocationError in the Decoder. -/
def execIllegalCmd101 (s : State) : Host.Outcome State Fault Refusal := decCommand 1 s

/-- The illegal command 110 (rule R105): InvocationError in the Decoder. -/
def execIllegalCmd110 (s : State) : Host.Outcome State Fault Refusal := decCommand 2 s

/-- The illegal command 111 (rule R105): InvocationError in the Decoder. -/
def execIllegalCmd111 (s : State) : Host.Outcome State Fault Refusal := decCommand 3 s

/-- DEC.START on the stream header of value `t` (rules R91, R101, R170). -/
def startOnTag (t : Nat) (s : State) : Host.Outcome State Fault Refusal :=
  (whenEnabled (!s.running .dec) (decStart 0 (some t) s)).outcome

/-- TAG.NONE (rule R91): the header of a stream made in mode None. -/
def execTagNone (s : State) : Host.Outcome State Fault Refusal := startOnTag 1 s

/-- TAG.FULLRESET (rule R91). -/
def execTagFullReset (s : State) : Host.Outcome State Fault Refusal := startOnTag 2 s

/-- TAG.RATIOMONITORED (rule R91). -/
def execTagRatioMonitored (s : State) : Host.Outcome State Fault Refusal := startOnTag 3 s

/-- TAG.ILLEGAL (rule R101): DEC.START raises BadModeTag. -/
def execTagIllegal (t : BitVec 9) (s : State) : Host.Outcome State Fault Refusal := startOnTag t.toNat s

/-- DEC.START (rule R170), enabled in IDLE, DONE and FAULT. -/
def execDecStart (low : BitVec 2) (s : State) : Host.Outcome State Fault Refusal :=
  (whenEnabled (!s.running .dec) (decStart low (headerTag s) s)).outcome

/-- DEC.FIRST (rule R171), enabled in FIRST. -/
def execDecFirst (s : State) : Host.Outcome State Fault Refusal :=
  (whenEnabled (decide (s.dec.phase = .first)) (decFirstBody readUnit s)).outcome

/-- DEC.STEP (rule R172), enabled in LOOP. -/
def execDecStep (s : State) : Host.Outcome State Fault Refusal :=
  (whenEnabled (decide (s.dec.phase = .loop)) (decStepBody readUnit s)).outcome

/-- DEC.OUTPUT (rule R173). -/
def execDecOutput (s : State) : Host.Outcome State Fault Refusal :=
  (whenEnabled (decide (s.dec.phase = .loop)) (decOutput s)).outcome

/-- DEC.POLICY (rule R174). -/
def execDecPolicy (s : State) : Host.Outcome State Fault Refusal :=
  (whenEnabled (decide (s.dec.phase = .loop)) (decPolicy s)).outcome

/-- DEC.READ (rule R175) on its own: it returns the codeword. -/
def execDecRead (s : State) : Host.Outcome State Fault Refusal :=
  (whenEnabled (decide (s.dec.phase = .loop)) (decRead readUnit s)).outcomeRet fun cw => .number (some cw)

/-- DEC.RESOLVE (rule R176) on its own: it returns the sequence. -/
def execDecResolve (cw : Nat) (s : State) : Host.Outcome State Fault Refusal :=
  (whenEnabled (decide (s.dec.phase = .loop)) (decResolve cw s)).outcomeRet .seq

/-- DEC.INSERT (rule R177). -/
def execDecInsert (q : Bytes) (s : State) : Host.Outcome State Fault Refusal :=
  (whenEnabled (decide (s.dec.phase = .loop)) (givenSeq q (decInsert q) s)).outcome

/-- DEC.GROW (rule R178). -/
def execDecGrow (s : State) : Host.Outcome State Fault Refusal :=
  (whenEnabled (decide (s.dec.phase = .loop)) (decGrow s)).outcome

/-- DEC.ADVANCE (rule R179). -/
def execDecAdvance (q : Bytes) (s : State) : Host.Outcome State Fault Refusal :=
  (whenEnabled (decide (s.dec.phase = .loop)) (givenSeq q (decAdvance q) s)).outcome

/-- DEC.FINISH (rule R180), reached in phase FIRST or LOOP. -/
def execDecFinish (s : State) : Host.Outcome State Fault Refusal :=
  (whenEnabled (s.running .dec) (decFinishBody s)).outcome

end Sys2Proof.Machine
end

