-- ==== Sys2Proof/Machine/Units.lean ====
section
/-! DEFINITION. The units of the compressed stream after the mode tag, run as instructions: the codeword rows at each
width (rules R96, R99) and the rows of the Decoder's split of class DYN (rule R97). A unit runs as DEC.FIRST or
DEC.STEP with this codeword as the one read. -/
namespace Sys2Proof.Machine

/-- The codeword `c` at width `w` (rules R96, R97). -/
def runCodeword (w c : Nat) (s : State) : Host.Outcome State Fault Refusal := (decUnit (presentUnit w c) s).outcome

/-- The codeword `c` at the current width, in class `k` (rule R97). -/
def runClass (k : UnitClass) (c : Nat) (s : State) : Host.Outcome State Fault Refusal :=
  (decUnit (presentClass k c) s).outcome

/-- LIT.W9 (rule R96). -/
def execLitW9 (b : Byte) (s : State) : Host.Outcome State Fault Refusal := runCodeword 9 b.toNat s

/-- EOF.W9 (rule R93). -/
def execEofW9 (s : State) : Host.Outcome State Fault Refusal := runCodeword 9 Config.eofCode s

/-- DYN.W9 (rule R96). -/
def execDynW9 (c : BitVec 9) (s : State) : Host.Outcome State Fault Refusal := runCodeword 9 c.toNat s

/-- LIT.W10 (rule R96). -/
def execLitW10 (b : Byte) (s : State) : Host.Outcome State Fault Refusal := runCodeword 10 b.toNat s

/-- EOF.W10 (rule R93). -/
def execEofW10 (s : State) : Host.Outcome State Fault Refusal := runCodeword 10 Config.eofCode s

/-- DYN.W10 (rule R96). -/
def execDynW10 (c : BitVec 10) (s : State) : Host.Outcome State Fault Refusal := runCodeword 10 c.toNat s

/-- LIT.W11 (rule R96). -/
def execLitW11 (b : Byte) (s : State) : Host.Outcome State Fault Refusal := runCodeword 11 b.toNat s

/-- EOF.W11 (rule R93). -/
def execEofW11 (s : State) : Host.Outcome State Fault Refusal := runCodeword 11 Config.eofCode s

/-- DYN.W11 (rule R96). -/
def execDynW11 (c : BitVec 11) (s : State) : Host.Outcome State Fault Refusal := runCodeword 11 c.toNat s

/-- LIT.W12 (rule R96). -/
def execLitW12 (b : Byte) (s : State) : Host.Outcome State Fault Refusal := runCodeword 12 b.toNat s

/-- EOF.W12 (rule R93). -/
def execEofW12 (s : State) : Host.Outcome State Fault Refusal := runCodeword 12 Config.eofCode s

/-- DYN.W12 (rule R96). -/
def execDynW12 (c : BitVec 12) (s : State) : Host.Outcome State Fault Refusal := runCodeword 12 c.toNat s

/-- LIT.W13 (rule R96). -/
def execLitW13 (b : Byte) (s : State) : Host.Outcome State Fault Refusal := runCodeword 13 b.toNat s

/-- EOF.W13 (rule R93). -/
def execEofW13 (s : State) : Host.Outcome State Fault Refusal := runCodeword 13 Config.eofCode s

/-- DYN.W13 (rule R96). -/
def execDynW13 (c : BitVec 13) (s : State) : Host.Outcome State Fault Refusal := runCodeword 13 c.toNat s

/-- LIT.W14 (rule R96). -/
def execLitW14 (b : Byte) (s : State) : Host.Outcome State Fault Refusal := runCodeword 14 b.toNat s

/-- EOF.W14 (rule R93). -/
def execEofW14 (s : State) : Host.Outcome State Fault Refusal := runCodeword 14 Config.eofCode s

/-- DYN.W14 (rule R96). -/
def execDynW14 (c : BitVec 14) (s : State) : Host.Outcome State Fault Refusal := runCodeword 14 c.toNat s

/-- LIT.W15 (rule R96). -/
def execLitW15 (b : Byte) (s : State) : Host.Outcome State Fault Refusal := runCodeword 15 b.toNat s

/-- EOF.W15 (rule R93). -/
def execEofW15 (s : State) : Host.Outcome State Fault Refusal := runCodeword 15 Config.eofCode s

/-- DYN.W15 (rule R96). -/
def execDynW15 (c : BitVec 15) (s : State) : Host.Outcome State Fault Refusal := runCodeword 15 c.toNat s

/-- LIT.W16 (rule R96). -/
def execLitW16 (b : Byte) (s : State) : Host.Outcome State Fault Refusal := runCodeword 16 b.toNat s

/-- EOF.W16 (rule R93). -/
def execEofW16 (s : State) : Host.Outcome State Fault Refusal := runCodeword 16 Config.eofCode s

/-- DYN.W16 (rule R96). -/
def execDynW16 (c : BitVec 16) (s : State) : Host.Outcome State Fault Refusal := runCodeword 16 c.toNat s

/-- DYN.REF (rule R97): an assigned codeword. -/
def execDynRef (c : BitVec 16) (s : State) : Host.Outcome State Fault Refusal := runClass .ref c.toNat s

/-- DYN.KWKWK (rule R97): the next codeword to be assigned. -/
def execDynKwkwk (c : BitVec 16) (s : State) : Host.Outcome State Fault Refusal := runClass .kwkwk c.toNat s

/-- DYN.INVALID (rules R97, R102, R204): CodewordOutOfRange is raised. -/
def execDynInvalid (c : BitVec 16) (s : State) : Host.Outcome State Fault Refusal := runClass .invalid c.toNat s

end Sys2Proof.Machine
end

