-- ==== Sys2Proof/Machine/Dispatch.lean ====
section
/-! DEFINITION. Which meaning each instruction has. -/
namespace Sys2Proof.Machine

def exec (i : Instr) (s : State) : Host.Outcome State Fault Refusal :=
  match i with
  | .compressN => Sys2Proof.Machine.execCompressN s
  | .compressR => Sys2Proof.Machine.execCompressR s
  | .compressM => Sys2Proof.Machine.execCompressM s
  | .expand => Sys2Proof.Machine.execExpand s
  | .illegalCmd000 => Sys2Proof.Machine.execIllegalCmd000 s
  | .illegalCmd101 => Sys2Proof.Machine.execIllegalCmd101 s
  | .illegalCmd110 => Sys2Proof.Machine.execIllegalCmd110 s
  | .illegalCmd111 => Sys2Proof.Machine.execIllegalCmd111 s
  | .tagNone => Sys2Proof.Machine.execTagNone s
  | .tagFullReset => Sys2Proof.Machine.execTagFullReset s
  | .tagRatioMonitored => Sys2Proof.Machine.execTagRatioMonitored s
  | .tagIllegal t => Sys2Proof.Machine.execTagIllegal t s
  | .litW9 b => Sys2Proof.Machine.execLitW9 b s
  | .eofW9 => Sys2Proof.Machine.execEofW9 s
  | .dynW9 c => Sys2Proof.Machine.execDynW9 c s
  | .litW10 b => Sys2Proof.Machine.execLitW10 b s
  | .eofW10 => Sys2Proof.Machine.execEofW10 s
  | .dynW10 c => Sys2Proof.Machine.execDynW10 c s
  | .litW11 b => Sys2Proof.Machine.execLitW11 b s
  | .eofW11 => Sys2Proof.Machine.execEofW11 s
  | .dynW11 c => Sys2Proof.Machine.execDynW11 c s
  | .litW12 b => Sys2Proof.Machine.execLitW12 b s
  | .eofW12 => Sys2Proof.Machine.execEofW12 s
  | .dynW12 c => Sys2Proof.Machine.execDynW12 c s
  | .litW13 b => Sys2Proof.Machine.execLitW13 b s
  | .eofW13 => Sys2Proof.Machine.execEofW13 s
  | .dynW13 c => Sys2Proof.Machine.execDynW13 c s
  | .litW14 b => Sys2Proof.Machine.execLitW14 b s
  | .eofW14 => Sys2Proof.Machine.execEofW14 s
  | .dynW14 c => Sys2Proof.Machine.execDynW14 c s
  | .litW15 b => Sys2Proof.Machine.execLitW15 b s
  | .eofW15 => Sys2Proof.Machine.execEofW15 s
  | .dynW15 c => Sys2Proof.Machine.execDynW15 c s
  | .litW16 b => Sys2Proof.Machine.execLitW16 b s
  | .eofW16 => Sys2Proof.Machine.execEofW16 s
  | .dynW16 c => Sys2Proof.Machine.execDynW16 c s
  | .dynRef c => Sys2Proof.Machine.execDynRef c s
  | .dynKwkwk c => Sys2Proof.Machine.execDynKwkwk c s
  | .dynInvalid c => Sys2Proof.Machine.execDynInvalid c s
  | .encStart m => Sys2Proof.Machine.execEncStart m s
  | .encStep => Sys2Proof.Machine.execEncStep s
  | .encLookup => Sys2Proof.Machine.execEncLookup s
  | .encEmit q c => Sys2Proof.Machine.execEncEmit q c s
  | .encPolicy => Sys2Proof.Machine.execEncPolicy s
  | .encInsert q => Sys2Proof.Machine.execEncInsert q s
  | .encGrow => Sys2Proof.Machine.execEncGrow s
  | .encAdvance q => Sys2Proof.Machine.execEncAdvance q s
  | .encFinish => Sys2Proof.Machine.execEncFinish s
  | .decStart low => Sys2Proof.Machine.execDecStart low s
  | .decFirst => Sys2Proof.Machine.execDecFirst s
  | .decStep => Sys2Proof.Machine.execDecStep s
  | .decOutput => Sys2Proof.Machine.execDecOutput s
  | .decPolicy => Sys2Proof.Machine.execDecPolicy s
  | .decRead => Sys2Proof.Machine.execDecRead s
  | .decResolve cw => Sys2Proof.Machine.execDecResolve cw s
  | .decInsert q => Sys2Proof.Machine.execDecInsert q s
  | .decGrow => Sys2Proof.Machine.execDecGrow s
  | .decAdvance q => Sys2Proof.Machine.execDecAdvance q s
  | .decFinish => Sys2Proof.Machine.execDecFinish s
  | .wcInit x => Sys2Proof.Machine.execWcInit x s
  | .wcReached x => Sys2Proof.Machine.execWcReached x s
  | .wcGrow x => Sys2Proof.Machine.execWcGrow x s
  | .rpSaturated x => Sys2Proof.Machine.execRpSaturated x s
  | .rpAccount x ubits cbits => Sys2Proof.Machine.execRpAccount x ubits cbits s
  | .rpEval x => Sys2Proof.Machine.execRpEval x s
  | .rpEvalNone x => Sys2Proof.Machine.execRpEvalNone x s
  | .rpEvalFullReset x => Sys2Proof.Machine.execRpEvalFullReset x s
  | .rpEvalRatioBaseline x => Sys2Proof.Machine.execRpEvalRatioBaseline x s
  | .rpEvalRatioCompare x => Sys2Proof.Machine.execRpEvalRatioCompare x s
  | .dictReset x => Sys2Proof.Machine.execDictReset x s
  | .putBits v n => Sys2Proof.Machine.execPutBits v n s
  | .getBits n => Sys2Proof.Machine.execGetBits n s
  | .close x => Sys2Proof.Machine.execClose x s
  | .writeBytes q => Sys2Proof.Machine.execWriteBytes q s
  | .readAllBytes => Sys2Proof.Machine.execReadAllBytes s
  | .longestPrefix rest => Sys2Proof.Machine.execLongestPrefix rest s
  | .dictInsert key code => Sys2Proof.Machine.execDictInsert key code s
  | .dictSeed => Sys2Proof.Machine.execDictSeed s
  | .tableRead n => Sys2Proof.Machine.execTableRead n s
  | .tableWrite n q => Sys2Proof.Machine.execTableWrite n q s
  | .tableSeed => Sys2Proof.Machine.execTableSeed s

end Sys2Proof.Machine
end

