-- ==== Sys2Proof/Machine/Fetch.lean ====
section
/-! DEFINITION. Which instruction runs next: a command of the host, the operation the Encoder's phase enables, or the
unit at the head of the Decoder's stream (rules R95, R109, R170 to R172). -/
namespace Sys2Proof.Machine

/-- The engine `cmd[2]` selects (rule R104). -/
def commandEngine (cmd : BitVec 3) : Engine := if cmd.getLsbD 2 then .dec else .enc

/-- The host connects the engine's input stream before it gives the command (rule R233). The input of a running engine
is its own already (rules R27, R43), and a command to it changes nothing (rule R109). -/
def connect (cmd : BitVec 3) (input : Bytes) (s : State) : State :=
  match commandEngine cmd with
  | .enc => if s.running .enc then s else { s with byteSource := input }
  | .dec => if s.running .dec then s else { s with bitSource := input }

/-- The instruction a command word runs (rules R104, R105). An EXPAND that is accepted reads the mode tag in the same
step (rule R170): where there is a tag, it is the instruction. -/
def commandInstr (cmd : BitVec 3) (s : State) : Instr :=
  if cmd = 4 ∧ s.running .dec = false then
    match decode .header (streamBits s.bitSource) with
    | .ok (i, _) => i
    | .error _ => .expand
  else decodeCommand cmd

/-- The unit the Decoder reads next from this state, at width `D.W` (rule R95). -/
def nextUnit (s : State) : Option Instr :=
  match s.dec.regs with
  | none => none
  | some r =>
    match decode (.codeword r.common.W) ((streamBits r.src).drop r.bitpos) with
    | .ok (i, _) => some i
    | .error _ => none

/-- The unit DEC.STEP reads: at the width its sub-steps a and b leave (rules R172, R175). -/
def nextLoopUnit (s : State) : Option Instr :=
  match (decOutput s).bind fun _ s => decPolicy s with
  | .go _ s => nextUnit s
  | .ended _ => none
  | .fault _ => none
  | .refused _ => none

/-- The instruction engine `x` runs next, `none` where it does nothing until started (rules R109, R219). Where the
Decoder's stream holds no whole unit, DEC.FIRST or DEC.STEP runs and finds `EndOfInput`. -/
def engineInstr (x : Engine) (s : State) : Option Instr :=
  match x with
  | .enc =>
    if s.running .enc then
      match s.enc.regs with
      | none => some .encStep
      | some r => if r.pos < r.inp.length then some .encStep else some .encFinish
    else none
  | .dec =>
    match s.dec.phase with
    | .first => some ((nextUnit s).getD .decFirst)
    | .loop => some ((nextLoopUnit s).getD .decStep)
    | .idle => none
    | .done => none
    | .fault => none

/-- The next instruction and the state it runs on. The host's events come first; without one the Encoder moves, then
the Decoder (rule R217, assumption log 5). -/
def fetch (s : State) : Option Instr × State :=
  match s.host with
  | .command cmd input :: rest =>
    let s := connect cmd input { s with host := rest }
    (some (commandInstr cmd s), s)
  | .turn x :: rest =>
    let s := { s with host := rest }
    (engineInstr x s, s)
  | [] => (if s.running .enc then engineInstr .enc s else engineInstr .dec s, s)

/-- A unit of the Decoder's stream placed where the next step reads it: a command word at the host's port, a tag as
the head of the stream an EXPAND starts on, a codeword as the first one of a Decoder at that width. -/
def placeUnit (f : Frame) (w : Nat) (bits : Bits) (s : State) : State :=
  match f with
  | .command => { s with host := .command (BitVec.ofNat 3 w) [] :: s.host }
  | .header => { s with host := .command 4 (packBytes bits) :: s.host }
  | .codeword n =>
    let regs : DecRegs :=
      { common := { startCommon .none with W := n, L := 2 ^ n }, table := Store.seed, val := none, readW := none
        src := packBytes bits, bitpos := 0 }
    { s with
      dec := { phase := .first, fault := .none, info := none, regs := some regs, out := some { bytes := [], closed := false } }
      host := .turn .dec :: s.host }

end Sys2Proof.Machine
end

