-- ==== Sys2Proof/Machine/Step.lean ====
section
/-! DEFINITION. One step of the machine: the next instruction, run whole (rule R14). Where no engine is started and
the host asks for nothing, nothing happens (rule R219). -/
namespace Sys2Proof.Machine

def step (s : State) : Host.Outcome State Fault Refusal :=
  match fetch s with
  | (some i, s) => exec i s
  | (none, s) => .next s

/-- `s` with the instruction of `decodeTableWord nbits w` where the next step finds it (assumption log 10). -/
def State.withFetchWord (s : State) (nbits w : Nat) : State :=
  placeUnit (tableFrame nbits w) w (tableBits nbits w) s

end Sys2Proof.Machine
end

