-- ==== Sys2Proof/Safety.lean ====
section
/-! DEFINITION. What holds at every step boundary (10_state.md section 5), and what a safe step is. -/
namespace Sys2Proof

/-- The engine an instruction runs on (rules R20, R104, R109): `true` for the Encoder. -/
def Instr.onEncoder : Instr → Bool
  | .compressN | .compressR | .compressM | .illegalCmd000 | .encStart _ | .encStep | .encLookup | .encEmit _ _
  | .encPolicy | .encInsert _ | .encGrow | .encAdvance _ | .encFinish | .putBits _ _ | .readAllBytes
  | .longestPrefix _ | .dictInsert _ _ | .dictSeed => true
  | .wcInit x | .wcReached x | .wcGrow x | .rpSaturated x | .rpAccount x _ _ | .rpEval x | .rpEvalNone x
  | .rpEvalFullReset x | .rpEvalRatioBaseline x | .rpEvalRatioCompare x | .dictReset x | .close x => decide (x = .enc)
  | .expand | .illegalCmd101 | .illegalCmd110 | .illegalCmd111 | .tagNone | .tagFullReset | .tagRatioMonitored
  | .tagIllegal _ | .litW9 _ | .eofW9 | .dynW9 _ | .litW10 _ | .eofW10 | .dynW10 _ | .litW11 _ | .eofW11
  | .dynW11 _ | .litW12 _ | .eofW12 | .dynW12 _ | .litW13 _ | .eofW13 | .dynW13 _ | .litW14 _ | .eofW14
  | .dynW14 _ | .litW15 _ | .eofW15 | .dynW15 _ | .litW16 _ | .eofW16 | .dynW16 _ | .dynRef _ | .dynKwkwk _
  | .dynInvalid _ | .decStart _ | .decFirst | .decStep | .decOutput | .decPolicy | .decRead | .decResolve _
  | .decInsert _ | .decGrow | .decAdvance _ | .decFinish | .getBits _ | .writeBytes _ | .tableRead _
  | .tableWrite _ _ | .tableSeed => false

end Sys2Proof

namespace Sys2Proof.Machine

/-- The enabling conditions of rule R109: where an instruction runs. A command word is taken in every phase (to a running
engine it changes nothing), a stream operation is always enabled (rule R83), and a mode tag is read by a START. A sub-step
of ENC.STEP, and an operation that both engines share, run on their own anywhere in the phases of a step, and registers that
hold `none` are a fault of their own (assumption log 1). -/
def enabled : Instr → State → Bool
  | .compressN, _ | .compressR, _ | .compressM, _ | .illegalCmd000, _ | .expand, _ | .illegalCmd101, _
  | .illegalCmd110, _ | .illegalCmd111, _ => true
  | .putBits _ _, _ | .getBits _, _ | .close _, _ | .writeBytes _, _ | .readAllBytes, _ => true
  | .encStart _, s => !s.running .enc
  | .decStart _, s | .tagNone, s | .tagFullReset, s | .tagRatioMonitored, s | .tagIllegal _, s => !s.running .dec
  | .encStep, s => s.running .enc && s.enc.regs.all fun r => decide (r.pos < r.inp.length)
  | .encFinish, s => s.running .enc && s.enc.regs.all fun r => decide (r.pos = r.inp.length)
  | .encLookup, s | .encEmit _ _, s | .encPolicy, s | .encInsert _, s | .encGrow, s | .encAdvance _, s
  | .longestPrefix _, s | .dictInsert _ _, s | .dictSeed, s => s.running .enc
  | .decFirst, s => decide (s.dec.phase = .first)
  | .decStep, s | .decOutput, s | .decPolicy, s | .decRead, s | .decResolve _, s | .decInsert _, s | .decGrow, s
  | .decAdvance _, s => decide (s.dec.phase = .loop)
  | .litW9 _, s | .eofW9, s | .dynW9 _, s | .litW10 _, s | .eofW10, s | .dynW10 _, s | .litW11 _, s | .eofW11, s
  | .dynW11 _, s | .litW12 _, s | .eofW12, s | .dynW12 _, s | .litW13 _, s | .eofW13, s | .dynW13 _, s
  | .litW14 _, s | .eofW14, s | .dynW14 _, s | .litW15 _, s | .eofW15, s | .dynW15 _, s | .litW16 _, s | .eofW16, s
  | .dynW16 _, s | .dynRef _, s | .dynKwkwk _, s | .dynInvalid _, s => s.running .dec
  | .decFinish, s | .tableRead _, s | .tableWrite _ _, s | .tableSeed, s => s.running .dec
  | .wcInit x, s | .wcReached x, s | .wcGrow x, s | .rpSaturated x, s | .rpAccount x _ _, s | .rpEval x, s
  | .rpEvalNone x, s | .rpEvalFullReset x, s | .rpEvalRatioBaseline x, s | .rpEvalRatioCompare x, s
  | .dictReset x, s => s.running x

/-- Rules R46, R47 and the use of the baseline (rules R30, R138): it is held only in mode 3, only while the dictionary
is saturated, and the flag says that it is there. -/
structure Common.Inv (c : Common) : Prop where
  width : 9 ≤ c.W ∧ c.W ≤ 16
  capacity : c.L = 2 ^ c.W
  seeded : 257 ≤ c.count
  bounded : c.count ≤ c.L
  baseline : c.ratioSet = true → c.mode = .ratioMonitored ∧ c.count = 65536 ∧ c.oldRatio ≠ none

/-- Rule R48 for a store whose next codeword is `n`: canonical form, exactly the assigned codewords, the literals, and
at least two bytes for every dynamic codeword. -/
structure Store.Inv (t : Store) (n : Nat) : Prop where
  canonical : t.wf = true
  assigned : ∀ c, t.read c ≠ none ↔ (c < 256 ∨ (257 ≤ c ∧ c < n))
  literal : ∀ b : Byte, t.read b.toNat = some [b]
  dynamic : ∀ c q, 257 ≤ c → t.read c = some q → 2 ≤ q.length

/-- The Encoder's registers between steps: rules R27, R28, R46 to R48. No two codewords have one key; the counter `U`
is 8 for every input byte covered; `bits`, the length of the sink before ENC.FINISH, is the header and every accounted
codeword. -/
structure EncRegs.Inv (r : EncRegs) (bits : Nat) : Prop where
  common : r.common.Inv
  dict : r.dict.Inv r.common.count
  keys : ∀ c d q, r.dict.read c = some q → r.dict.read d = some q → c = d
  cursor : r.pos ≤ r.inp.length
  grown : r.common.count = r.common.L → r.common.W = 16
  uncompressed : r.common.U = 8 * r.pos
  compressed : bits = 9 + r.common.C

/-- The Decoder's registers between steps: rules R37, R39, R43, R46 to R48. Below width 16 the count stays two below
the capacity (rule R47); the counter `U` is 8 for every byte written. -/
structure DecRegs.Inv (r : DecRegs) (bytes : Nat) : Prop where
  common : r.common.Inv
  table : r.table.Inv r.common.count
  grown : r.common.W < 16 → r.common.count + 2 ≤ r.common.L
  consumed : r.bitpos ≤ (streamBits r.src).length
  uncompressed : r.common.U = 8 * bytes

/-- The Encoder in each phase (rules R21, R50, R51, R163, R200, R220). -/
def Encoder.Inv (e : Encoder) : Prop :=
  match e.phase with
  | .idle => e.fault = .none ∧ e.regs = none ∧ e.out = none
  | .step => e.fault = .none ∧ ∃ r o, e.regs = some r ∧ e.out = some o ∧ o.closed = false ∧ r.Inv o.bits.length
  | .done => e.fault = .none ∧ ∃ r o, e.regs = some r ∧ e.out = some o ∧ o.closed = true ∧ 8 ∣ o.bits.length ∧
      r.Inv (9 + r.common.C)
  | .fault => (e.fault = .invocationError ∨ e.fault = .counterOverflow) ∧ e.regs = none ∧
      ∃ o, e.out = some o ∧ o.closed = false

/-- The Decoder in each phase (rules R33, R38, R50, R51, R53, R220). -/
def Decoder.Inv (d : Decoder) : Prop :=
  match d.phase with
  | .idle => d.fault = .none ∧ d.regs = none ∧ d.out = none
  | .first => d.fault = .none ∧ ∃ r, d.regs = some r ∧ d.out = some { bytes := [], closed := false } ∧ r.Inv 0 ∧
      r.common.W = 9 ∧ r.common.count = 257 ∧ r.val = none
  | .loop => d.fault = .none ∧ ∃ r o q w, d.regs = some r ∧ d.out = some o ∧ o.closed = false ∧ r.Inv o.bytes.length ∧
      r.val = some q ∧ q ≠ [] ∧ r.readW = some w ∧ 9 ≤ w ∧ w ≤ 16
  | .done => d.fault = .none ∧ ∃ r o, d.regs = some r ∧ d.out = some o ∧ o.closed = true ∧ r.Inv o.bytes.length
  | .fault => d.fault ≠ .none ∧ d.regs = none ∧ ∃ o, d.out = some o ∧ o.closed = false

/-- The invariant of the machine. -/
def State.Inv (s : State) : Prop := s.enc.Inv ∧ s.dec.Inv

/-- A step that does not stop: it answers a next state. -/
def State.Safe (s : State) : Prop := ∃ t, step s = .next t

/-- The condition of hazard R235 in the Encoder's state at ENC.FINISH: the input is not empty and ends on a growth
point. -/
def EndsOnGrowth (r : EncRegs) : Prop :=
  0 < r.inp.length ∧ r.common.count + 1 = r.common.L ∧ r.common.W < 16

/-- Engine `x` moves next, on state `u`: by an event of the host, or, with no event, the Encoder before the Decoder. -/
def Moves (s : State) (x : Engine) (u : State) : Prop :=
  (∃ rest, s.host = .turn x :: rest ∧ u = { s with host := rest }) ∨
  (s.host = [] ∧ u = s ∧ x = if s.enc.phase = .step then .enc else .dec)

/-! ### The terms in which results are stated -/

/-- The counters and the sequences are unbounded, the defaults of `CNT_W` and `SEQ_MAX` (rule R12). -/
def State.Unbounded (s : State) : Prop := s.params.cntW = none ∧ s.params.seqMax = none

/-- The Encoder is in phase STEP with these registers and an open sink. -/
structure EncReady (s : State) (r : EncRegs) (o : BitSink) : Prop where
  phase : s.enc.phase = .step
  regs : s.enc.regs = some r
  out : s.enc.out = some o
  isOpen : o.closed = false
  unbounded : s.Unbounded

/-- The Decoder is in phase FIRST with these registers and an open sink. -/
structure FirstReady (s : State) (r : DecRegs) (o : ByteSink) : Prop where
  phase : s.dec.phase = .first
  regs : s.dec.regs = some r
  out : s.dec.out = some o

/-- The Decoder is in phase LOOP with these registers, `D.val == q` and an open sink; `DEC_ACCOUNT_WIDTH` is at its
default. -/
structure LoopReady (s : State) (r : DecRegs) (o : ByteSink) (q : Bytes) : Prop where
  phase : s.dec.phase = .loop
  regs : s.dec.regs = some r
  out : s.dec.out = some o
  isOpen : o.closed = false
  val : r.val = some q
  unbounded : s.Unbounded
  account : s.params.decAccountWidth = .current

/-- The policy has nothing to do in this step (rules R134, R135). -/
def QuietPolicy (c : Common) : Prop := c.count ≠ 65536 ∨ c.mode = .none

/-- The registers after `q` was accounted at width `w` (rule R131). -/
def Common.accounted (c : Common) (q : Bytes) (w : Nat) : Common := { c with U := c.U + 8 * q.length, C := c.C + w }

/-- The registers after ENC.GROW (rule R156). -/
def Common.encGrown (c : Common) : Common :=
  if c.count = c.L ∧ c.W < 16 then { c with W := c.W + 1, L := 2 * c.L } else c

/-- The registers after DEC.GROW (rule R178). -/
def Common.decGrown (c : Common) : Common :=
  if c.count + 1 = c.L ∧ c.W < 16 then { c with W := c.W + 1, L := 2 * c.L } else c

/-- The registers after DICT.RESET (rule R54). -/
def Common.afterReset (c : Common) : Common := { c with W := 9, L := 512, count := 257 }

/-- The Encoder's registers after sub-steps 4 to 6 of an ENC.STEP that found `q` (rules R155 to R157). -/
def EncRegs.advanced (r : EncRegs) (q : Bytes) : EncRegs :=
  if r.pos + q.length < r.inp.length ∧ r.common.count < r.common.L then
    { r with
      common := { r.common with count := r.common.count + 1 }.encGrown
      dict := r.dict.write r.common.count ((r.inp.drop r.pos).take (q.length + 1))
      pos := r.pos + q.length }
  else { r with common := r.common.encGrown, pos := r.pos + q.length }

/-- What sub-step 4 needs of the dictionary (rule R63): a new key and a new codeword of the codeword space. -/
def EncRegs.CanInsert (r : EncRegs) (q : Bytes) : Prop :=
  r.pos + q.length < r.inp.length ∧ r.common.count < r.common.L →
    r.common.count < 65536 ∧ r.dict.read r.common.count = none ∧
    r.dict.codeOf ((r.inp.drop r.pos).take (q.length + 1)) = none

/-- The Decoder's registers after the unit of width `w` was taken (rules R43, R73). -/
def DecRegs.taken (r : DecRegs) (w : Nat) : DecRegs := { r with bitpos := r.bitpos + w, readW := some w }

/-- The Decoder's registers after sub-steps e to g of a DEC.STEP with `D.val == q` that resolved a sequence `p` whose
first byte is `b` (rules R177 to R179). -/
def DecRegs.advanced (r : DecRegs) (q p : Bytes) (b : Byte) : DecRegs :=
  if r.common.count < r.common.L then
    { r with
      common := { r.common with count := r.common.count + 1 }.decGrown
      table := r.table.write r.common.count (q ++ [b])
      val := some p }
  else { r with common := r.common.decGrown, val := some p }

/-- The LIT rows with their widths (rule R99). -/
def litUnits (b : Byte) : List (Nat × Instr) :=
  [(9, .litW9 b), (10, .litW10 b), (11, .litW11 b), (12, .litW12 b), (13, .litW13 b), (14, .litW14 b),
   (15, .litW15 b), (16, .litW16 b)]

/-- The EOF rows with their widths (rule R99). -/
def eofUnits : List (Nat × Instr) :=
  [(9, .eofW9), (10, .eofW10), (11, .eofW11), (12, .eofW12), (13, .eofW13), (14, .eofW14), (15, .eofW15),
   (16, .eofW16)]

/-- The DYN rows with their widths (rule R99), for a codeword that the width holds. -/
def dynUnits (c : BitVec 16) : List (Nat × Instr) :=
  [(9, .dynW9 (c.setWidth 9)), (10, .dynW10 (c.setWidth 10)), (11, .dynW11 (c.setWidth 11)),
   (12, .dynW12 (c.setWidth 12)), (13, .dynW13 (c.setWidth 13)), (14, .dynW14 (c.setWidth 14)),
   (15, .dynW15 (c.setWidth 15)), (16, .dynW16 c)]

/-- The Encoder's side of a state: all it owns and its input end (rule R20). -/
def State.encSide (s : State) : Encoder × Bytes := (s.enc, s.byteSource)

/-- The Decoder's side of a state: all it owns and its input end (rule R20). -/
def State.decSide (s : State) : Decoder × Bytes := (s.dec, s.bitSource)

end Sys2Proof.Machine
end

