-- ==== Sys2Proof/Certificates/Slice0/Obligations.lean ====
section
/-! DEFINITION. The statements for the provers. Each docstring names the rules it rests on; where a clause is the
model's own choice it names the entry of the assumption log. -/

open Sys2Proof Sys2Proof.Machine

/-! ### Power-on, invariants, whole-machine rules -/

/-- R51, R230: after power-on both engines are idle with fault code 0 and every register, store and output holds
`none`, and with no command of the host nothing runs. -/
def Obligations.PowerOnIsIdleAndEmpty : Prop :=
  State.reset.enc.phase = .idle ∧ State.reset.dec.phase = .idle ∧
  State.reset.enc.fault.code = 0 ∧ State.reset.dec.fault.code = 0 ∧
  State.reset.enc.regs = none ∧ State.reset.dec.regs = none ∧
  State.reset.enc.out = none ∧ State.reset.dec.out = none ∧ step State.reset = .next State.reset

/-- The invariant of rules R46 to R48, R27, R28, R39, R220 holds at power-on, and so does the canonical form of the
stores. -/
def Obligations.InvariantAtPowerOn : Prop := State.reset.Inv ∧ Memory.wf State.reset = true

/-- R46, R47, R48, and with them R27, R28, R30, R39, R43 and the phase rules of R220: every step keeps the invariant, from
every state that meets it, whatever the host does. `State.Inv` also holds what no rule states as its own: the canonical form
of the stores (log 11) and the range of `readW` (log 7) are the model's, and the Decoder's `count + 2 <= L` below width 16 and
the content clauses are inferences that R47 and R48 mark as derived. -/
def Obligations.StepKeepsInvariant : Prop := ∀ s t : State, s.Inv → step s = .next t → t.Inv

/-- R160, R163, R182, R206: from a state that meets the invariant no step stops: the lookup finds a prefix, no table
slot is read that holds `none`, no sink is full. `SEQ_MAX` is at its default. -/
def Obligations.NoStepStopsUnderInvariant : Prop := ∀ s : State, s.Inv → s.params.seqMax = none → s.Safe

/-- Every instruction keeps the canonical form of both stores (log 11). -/
def Obligations.InstructionsKeepStoresCanonical : Prop :=
  ∀ (i : Instr) (s t : State), Memory.wf s = true → exec i s = .next t → Memory.wf t = true

/-- R20, R217: an instruction of one engine leaves all the other engine owns, and the other's input end, unchanged. -/
def Obligations.InstructionsTouchOneEngine : Prop :=
  ∀ (i : Instr) (s t : State), exec i s = .next t →
    (i.onEncoder = true → t.decSide = s.decSide) ∧ (i.onEncoder = false → t.encSide = s.encSide) ∧
    t.params = s.params ∧ t.host = s.host

/-- R20, R217: what an instruction does to its own engine does not depend on the other engine. -/
def Obligations.EnginesLearnNothingOfEachOther : Prop :=
  ∀ (i : Instr) (s t : State),
    (i.onEncoder = true → ∀ d b, exec i s = .next t →
      exec i { s with dec := d, bitSource := b } = .next { t with dec := d, bitSource := b }) ∧
    (i.onEncoder = false → ∀ e b, exec i s = .next t →
      exec i { s with enc := e, byteSource := b } = .next { t with enc := e, byteSource := b })

/-- R211: phase FAULT is left only by the START of the same engine. -/
def Obligations.FaultIsLeftOnlyByStart : Prop :=
  ∀ (i : Instr) (s t : State), exec i s = .next t →
    (s.enc.phase = .fault → t.enc.phase ≠ .fault → i ∈ [.compressN, .compressR, .compressM] ∨ ∃ m, i = .encStart m) ∧
    (s.dec.phase = .fault → t.dec.phase ≠ .fault →
      i ∈ [.expand, .tagNone, .tagFullReset, .tagRatioMonitored] ∨ (∃ m, i = .tagIllegal m) ∨ ∃ l, i = .decStart l)

/-- R209, R50: an instruction that takes an engine into phase FAULT leaves its registers at `none` and a fault code
that is not 0. -/
def Obligations.FaultEntryDiscardsRegisters : Prop :=
  ∀ (i : Instr) (s t : State), exec i s = .next t →
    (s.enc.phase ≠ .fault → t.enc.phase = .fault → t.enc.regs = none ∧ t.enc.fault.code ≠ 0) ∧
    (s.dec.phase ≠ .fault → t.dec.phase = .fault → t.dec.regs = none ∧ t.dec.fault.code ≠ 0)

/-- R123, R124, R121: in one ENC.STEP or DEC.STEP the width stays, or grows by one where the count has reached `L`
(Encoder) or `L - 1` (Decoder), or returns to 9 in a dictionary reset, which happens only at saturation. -/
def Obligations.WidthIsMonotonicBetweenResets : Prop :=
  (∀ (s t : State) (r u : EncRegs), s.enc.regs = some r → r.common.Inv → exec .encStep s = .next t →
    t.enc.regs = some u →
    (r.common.count = 65536 ∧ u.common.W = 9 ∧ u.common.count ≤ 258) ∨
    u.common.W = r.common.W ∨
    (u.common.W = r.common.W + 1 ∧ u.common.count = 2 ^ r.common.W)) ∧
  (∀ (s t : State) (r u : DecRegs), s.dec.regs = some r → r.common.Inv → exec .decStep s = .next t →
    t.dec.regs = some u →
    (r.common.count = 65536 ∧ u.common.W = 9 ∧ u.common.count ≤ 258) ∨
    u.common.W = r.common.W ∨
    (u.common.W = r.common.W + 1 ∧ u.common.count + 1 = 2 ^ r.common.W))

/-- R161, R183: every ENC.STEP covers at least one input byte and every DEC.FIRST and DEC.STEP that does not end the
invocation takes at least 9 bits of a finite input. -/
def Obligations.EveryStepMakesProgress : Prop :=
  (∀ (s t : State) (r u : EncRegs), s.enc.regs = some r → exec .encStep s = .next t → t.enc.regs = some u →
    r.pos < u.pos ∧ u.pos ≤ u.inp.length ∧ u.inp = r.inp) ∧
  (∀ (s t : State) (r u : DecRegs) (i : Instr), s.dec.regs = some r → r.common.Inv → i = .decFirst ∨ i = .decStep →
    exec i s = .next t → t.dec.phase = .loop → t.dec.regs = some u →
    r.bitpos + 9 ≤ u.bitpos ∧ u.bitpos ≤ (streamBits u.src).length ∧ u.src = r.src)

/-- R210: a fault of a DEC.STEP leaves exactly the bytes of the completed DEC.OUTPUT, the one of this step included, and
the sink open. -/
def Obligations.FaultKeepsOutputOfTheStep : Prop :=
  ∀ (s t : State) (r : DecRegs) (o : ByteSink) (q : Bytes), s.dec.regs = some r → s.dec.out = some o → r.val = some q →
    exec .decStep s = .next t → t.dec.phase = .fault →
    t.dec.out = some { bytes := o.bytes ++ q, closed := false }

/-- R252, R134: below saturation the mode has no part in an ENC.STEP: the same codeword at the same width, in every
mode. -/
def Obligations.ModeIsIdleBelowSaturation : Prop :=
  ∀ (s : State) (r : EncRegs) (m : Mode), s.enc.regs = some r → r.common.count ≠ 65536 →
    exec .encStep (s.setEnc { r with common := { r.common with mode := m } }) =
      match exec .encStep s with
      | .next t => .next { t with enc := { t.enc with
          regs := t.enc.regs.map fun u => { u with common := { u.common with mode := m } } } }
      | .fault f => .fault f
      | .refused f => .refused f

/-- R249, R235: the round trip. In modes None and FullReset, `expand (compress X)` is `X`, for every byte sequence `X`
whose compression does not end on a growth point. -/
def Obligations.RoundTripIsLossless : Prop :=
  ∀ (X : Bytes) (m : BitVec 3), m = 1 ∨ m = 2 →
    ∃ (k : Nat) (e : State) (r : EncRegs) (o : BitSink),
      Sys2Proof.core.run k { State.reset with host := [.command m X] } = .next e ∧
      e.enc.phase = .done ∧ e.enc.regs = some r ∧ e.enc.out = some o ∧
      (¬ EndsOnGrowth r → ∃ (j : Nat) (d : State),
        Sys2Proof.core.run j { State.reset with host := [.command 4 o.toBytes] } = .next d ∧
        d.dec.phase = .done ∧ d.dec.fault.code = 0 ∧ d.dec.out = some { bytes := X, closed := true })

/-! ### Encoding, fetch -/

/-- R90 to R92, R96, R99, R104: decoding the encoding of a well-formed instruction gives it back, whatever follows it in
the stream. -/
def Obligations.DecodeOfEncodeIsIdentity : Prop :=
  ∀ (i : Instr) (f : Frame) (bits rest : Bits), i.wellFormed = true → encode i = some (f, bits) →
    decode f (bits ++ rest) = .ok (i, rest)

/-- R96, R101, R105: every unit the decoder reads is a well-formed instruction whose encoding is the bits it took: each
bit pattern has one meaning. -/
def Obligations.EncodeOfDecodeIsIdentity : Prop :=
  ∀ (f : Frame) (bs rest : Bits) (i : Instr), decode f bs = .ok (i, rest) →
    i.wellFormed = true ∧ encode i = some (f, bs.take (frameWidth f)) ∧ rest = bs.drop (frameWidth f)

/-- R91, R99, R104: some units written out bit by bit. -/
def Obligations.UnitsOfTheSpecDecode : Prop :=
  decode .command [false, true, true] = .ok (.compressM, []) ∧
  decode .command [true, false, false] = .ok (.expand, []) ∧
  decode .header [false, false, false, false, false, false, false, true, false] = .ok (.tagFullReset, []) ∧
  decode (.codeword 9) [false, false, true, false, false, false, false, false, true] = .ok (.litW9 0x41, []) ∧
  decode (.codeword 10) [false, true, false, false, false, false, false, false, false, false] = .ok (.eofW10, []) ∧
  decode (.codeword 9) [true, false, false, false, false, false, false, false, true] = .ok (.dynW9 257, [])

/-- R72, R73, R75: what PutBits put, cut into bytes, GetBits reads back at the same offset, whatever stands before and
after. -/
def Obligations.GetBitsReadsWhatPutBitsPut : Prop :=
  ∀ (before after : Bits) (v n : Nat), v < 2 ^ n →
    8 ∣ (before ++ natBits n v ++ after).length →
    peekBits (packBytes (before ++ natBits n v ++ after)) before.length n = some v

/-- R14, R95, R109, R170 to R172, R175, R219: a step runs the instruction that stands next: the host's command, the tag of
the stream an accepted EXPAND starts on, the Encoder's operation, the unit that the bits at `D.bitpos` decode to at the width
DEC.FIRST or DEC.STEP reads. Where no unit decodes (fewer bits left than the width), EXPAND, DEC.FIRST or DEC.STEP itself
runs, and so it is where the sub-steps before DEC.READ do not go on; a turn given to an engine that is not running changes
nothing else. The host's list and its turns are the model's (log 5). -/
def Obligations.StepRunsTheDecodedInstruction : Prop :=
  (∀ s cmd input rest, s.host = .command cmd input :: rest →
    let u := connect cmd input { s with host := rest }
    (cmd ≠ 4 ∨ u.running .dec = true → step s = exec (decodeCommand cmd) u) ∧
    (cmd = 4 → u.running .dec = false →
      (∀ i tail, decode .header (streamBits u.bitSource) = .ok (i, tail) → step s = exec i u) ∧
      (∀ e, decode .header (streamBits u.bitSource) = .error e → step s = exec .expand u))) ∧
  (∀ s u, Moves s .enc u → u.enc.phase = .step →
    (u.enc.regs = none → step s = exec .encStep u) ∧
    (∀ r, u.enc.regs = some r →
      (r.pos < r.inp.length → step s = exec .encStep u) ∧ (r.inp.length ≤ r.pos → step s = exec .encFinish u))) ∧
  (∀ s u, Moves s .dec u → u.dec.phase = .first →
    (u.dec.regs = none → step s = exec .decFirst u) ∧
    (∀ r, u.dec.regs = some r →
      let unit := decode (.codeword r.common.W) ((streamBits r.src).drop r.bitpos)
      (∀ i tail, unit = .ok (i, tail) → step s = exec i u) ∧ (∀ e, unit = .error e → step s = exec .decFirst u))) ∧
  (∀ s u, Moves s .dec u → u.dec.phase = .loop →
    (∀ v, ((decOutput u).bind fun _ => decPolicy) = .go () v →
      (v.dec.regs = none → step s = exec .decStep u) ∧
      (∀ r, v.dec.regs = some r →
        let unit := decode (.codeword r.common.W) ((streamBits r.src).drop r.bitpos)
        (∀ i tail, unit = .ok (i, tail) → step s = exec i u) ∧ (∀ e, unit = .error e → step s = exec .decStep u))) ∧
    ((∀ v, ((decOutput u).bind fun _ => decPolicy) ≠ .go () v) → step s = exec .decStep u)) ∧
  (∀ s x rest, s.host = .turn x :: rest → s.running x = false → step s = .next { s with host := rest }) ∧
  (∀ s, s.host = [] → s.running .enc = false → s.running .dec = false → step s = .next s)

/-- R170, R91: an EXPAND or a DEC.START whose stream begins with a tag does what the tag's row does. -/
def Obligations.ExpandRunsItsTag : Prop :=
  ∀ (s : State) (i : Instr) (tail : Bits), s.running .dec = false →
    decode .header (streamBits s.bitSource) = .ok (i, tail) →
    exec .expand s = exec i s ∧ exec (.decStart 0) s = exec i s

/-- R171, R172, R175, R96: DEC.FIRST does what the row of the unit at `D.bitpos` does, and DEC.STEP what the row of the
unit it reads does, at the width that its output and policy sub-steps leave. -/
def Obligations.DecoderOperationsRunTheirUnit : Prop :=
  (∀ (s : State) (r : DecRegs) (i : Instr) (tail : Bits), s.dec.phase = .first → s.dec.regs = some r →
    decode (.codeword r.common.W) ((streamBits r.src).drop r.bitpos) = .ok (i, tail) →
    exec .decFirst s = exec i s) ∧
  (∀ (s v : State) (r : DecRegs) (i : Instr) (tail : Bits), s.dec.phase = .loop →
    ((decOutput s).bind fun _ => decPolicy) = .go () v → v.dec.regs = some r →
    decode (.codeword r.common.W) ((streamBits r.src).drop r.bitpos) = .ok (i, tail) →
    exec .decStep s = exec i s)

/-- R151, R172, R14: ENC.STEP is its six sub-steps in their order and DEC.STEP its seven, in every mode, saturated or
not: where each, run as an instruction, goes on to the next, the step leaves what the last one leaves. What a sub-step
returns goes to `ret` when it is run alone (log 6); a whole step leaves `ret` as it was. -/
def Obligations.StepsAreTheirSubSteps : Prop :=
  (∀ (s s2 s3 s4 s5 s6 : State) (r : EncRegs) (q : Bytes) (c : Nat), s.enc.regs = some r → r.pos < r.inp.length →
    exec .encLookup s = .next { s with ret := .entry q c } → exec (.encEmit q c) s = .next s2 →
    exec .encPolicy s2 = .next s3 → exec (.encInsert q) s3 = .next s4 → exec .encGrow s4 = .next s5 →
    exec (.encAdvance q) s5 = .next s6 → exec .encStep s = .next s6) ∧
  (∀ (s s1 s2 s3 s4 s5 s6 : State) (cw : Nat) (q : Bytes), exec .decOutput s = .next s1 →
    exec .decPolicy s1 = .next s2 → exec .decRead s2 = .next { s3 with ret := .number (some cw) } → s3.ret = s.ret →
    exec (.decResolve cw) s3 = .next { s3 with ret := .seq q } → exec (.decInsert q) s3 = .next s4 →
    exec .decGrow s4 = .next s5 → exec (.decAdvance q) s5 = .next s6 → exec .decStep s = .next s6)

/-! ### Commands and starts -/

/-- R150, R52, R104, R231: each COMPRESS command, and ENC.START with its mode, starts the Encoder: every register at its
start value, the whole input taken, the 9-bit tag written. That the input end is left empty (log 4) and `info` at `none`
(log 8) is the model's choice, and so is that the seed is held whatever `SEQ_MAX` is (log 12). -/
def Obligations.CompressStartsTheEncoder : Prop :=
  ∀ (s : State), s.enc.phase ≠ .step →
    ∀ p ∈ [((1 : BitVec 2), Mode.none, Instr.compressN), (2, .fullReset, .compressR), (3, .ratioMonitored, .compressM)],
    let t : State := { s with
      byteSource := []
      enc := {
        phase := .step, fault := .none, info := none
        regs := some {
          common := { mode := p.2.1, W := 9, L := 512, count := 257, U := 0, C := 0, oldRatio := none,
                      newRatio := none, ratioSet := false }
          dict := Store.seed, inp := s.byteSource, pos := 0 }
        out := some { bits := natBits 9 p.1.toNat, closed := false } } }
    exec p.2.2 s = .next t ∧ exec (.encStart p.1) s = .next t

/-- R170, R53, R104, R231: EXPAND, DEC.START and the legal mode tags start the Decoder: the mode from the tag, every
register at its start value, 9 bits taken. The model's own are here: the input end left empty (log 4), `readW` and `info` at
`none` (logs 7, 8), and that a tag row runs as the DEC.START that reads this tag, whatever the input end holds (log 13); and the seed
is held whatever `SEQ_MAX` is (log 12). -/
def Obligations.ExpandStartsTheDecoder : Prop :=
  ∀ (s : State), s.running .dec = false →
    ∀ p ∈ [(1, Mode.none, Instr.tagNone), (2, .fullReset, .tagFullReset), (3, .ratioMonitored, .tagRatioMonitored)],
    let t : State := { s with
      bitSource := []
      dec := {
        phase := .first, fault := .none, info := none
        regs := some {
          common := { mode := p.2.1, W := 9, L := 512, count := 257, U := 0, C := 0, oldRatio := none,
                      newRatio := none, ratioSet := false }
          table := Store.seed, val := none, readW := none, src := s.bitSource, bitpos := 9 }
        out := some { bytes := [], closed := false } } }
    exec p.2.2 s = .next t ∧
    (peekBits s.bitSource 0 9 = some p.1 → exec .expand s = .next t ∧ exec (.decStart 0) s = .next t)

/-- R105, R150, R170, R201, R209, R210, R220: an illegal command word raises InvocationError in the engine `cmd[2]` selects:
no input is read and nothing is written. The Encoder's output keeps its bits (R150), and is empty where there was none; the
Decoder's is empty (R210); neither is closed (R220, D9). That the registers become `none` here too is R209 with R50 (log 2),
and what becomes of the output of an earlier invocation is the model's reading (log 3). -/
def Obligations.IllegalCommandsRaiseInvocationError : Prop :=
  (∀ s : State, s.enc.phase ≠ .step →
    let t : State := { s with enc := { phase := .fault, fault := .invocationError, info := some 0, regs := none, out := some { s.enc.out.getD { bits := [], closed := false } with closed := false } } }
    exec .illegalCmd000 s = .next t ∧ exec (.encStart 0) s = .next t) ∧
  (∀ s : State, s.running .dec = false →
    ∀ p ∈ [((1 : BitVec 2), Instr.illegalCmd101), (2, .illegalCmd110), (3, .illegalCmd111)],
    let t : State := { s with dec := { phase := .fault, fault := .invocationError, info := some (4 + p.1.toNat), regs := none, out := some { bytes := [], closed := false } } }
    exec p.2 s = .next t ∧ exec (.decStart p.1) s = .next t)

/-- R109: a command to a running engine is not accepted and changes nothing. The model follows R109 here (log 1, DEDUCED,
unsafe): D23 of 92 and U16 of 93 call the case one without a transition, which R233 forbids the host. -/
def Obligations.CommandToRunningEngineChangesNothing : Prop :=
  ∀ s : State,
    (s.running .enc = true → ∀ i ∈ [Instr.compressN, .compressR, .compressM, .illegalCmd000], exec i s = .next s) ∧
    (s.running .dec = true → ∀ i ∈ [Instr.expand, .illegalCmd101, .illegalCmd110, .illegalCmd111], exec i s = .next s)

/-- R101, R170, R202, R203, R209, R210: a stream of fewer than 9 bits raises PrematureEnd and an illegal tag BadModeTag, both
with the output empty and the registers `none`. That the input end is left empty (log 4) and `info` is a field (log 8) is the
model's choice. -/
def Obligations.BadHeadersRaiseTheirFaults : Prop :=
  ∀ s : State, s.running .dec = false →
    (peekBits s.bitSource 0 9 = none →
      exec .expand s = .next { s with bitSource := [], dec := { phase := .fault, fault := .prematureEnd, info := some 0, regs := none, out := some { bytes := [], closed := false } } }) ∧
    (∀ t : BitVec 9, t.toNat = 0 ∨ 3 < t.toNat →
      let u : State := { s with bitSource := [], dec := { phase := .fault, fault := .badModeTag, info := some t.toNat, regs := none, out := some { bytes := [], closed := false } } }
      exec (.tagIllegal t) s = .next u ∧ (peekBits s.bitSource 0 9 = some t.toNat → exec .expand s = .next u))

/-! ### Units of the stream -/

/-- R171, R96: a literal at the first position becomes `D.val`; nothing is written, accounted or inserted. R202: where
fewer than `D.W` bits are left, DEC.FIRST raises PrematureEnd and the output stays. A literal longer than a finite `SEQ_MAX`
is refused instead (log 12). -/
def Obligations.FirstLiteralBecomesVal : Prop :=
  ∀ (s : State) (r : DecRegs) (o : ByteSink), FirstReady s r o →
    (∀ (b : Byte) (q : Bytes), r.table.read b.toNat = some q → seqFits s.params.seqMax q = true →
      let t : State := { s with dec := { s.dec with phase := .loop, regs := some { r.taken r.common.W with val := some q } } }
      (∀ p ∈ litUnits b, p.1 = r.common.W → exec p.2 s = .next t) ∧
      (1 ≤ r.common.W → r.common.W ≤ 16 → peekBits r.src r.bitpos r.common.W = some b.toNat → exec .decFirst s = .next t)) ∧
    (1 ≤ r.common.W → r.common.W ≤ 16 → peekBits r.src r.bitpos r.common.W = none →
      exec .decFirst s = .next { s with dec := { s.dec with
        phase := .fault, fault := .prematureEnd, info := some r.bitpos, regs := none, out := some o } })

/-- R171, R93, R180: the EOF codeword at the first position ends the invocation with the output as it is and closed. -/
def Obligations.FirstEofFinishes : Prop :=
  ∀ (s : State) (r : DecRegs) (o : ByteSink), FirstReady s r o → ∀ p ∈ eofUnits, p.1 = r.common.W →
    exec p.2 s = .next { s with dec := { s.dec with
      phase := .done, regs := some (r.taken p.1), out := some { o with closed := true } } }

/-- R102, R204: a codeword above 256 at the first position raises CodewordOutOfRange, 257 included. -/
def Obligations.FirstDynamicIsOutOfRange : Prop :=
  ∀ (s : State) (r : DecRegs) (o : ByteSink) (c : BitVec 16), FirstReady s r o → 257 ≤ c.toNat → c.toNat < 2 ^ r.common.W →
    let t : State := { s with dec := { s.dec with phase := .fault, fault := .codewordOutOfRange, info := some c.toNat, regs := none } }
    (∀ p ∈ dynUnits c, p.1 = r.common.W → exec p.2 s = .next t) ∧ exec (.dynInvalid c) s = .next t

/-- R172 to R179, R96: a literal in phase LOOP, where the policy has nothing to do: `D.val` is written and accounted at
`D.W`, the literal's sequence resolved, `D.val` with its first byte inserted, the width grown at `L - 1`, and the
sequence becomes `D.val`. -/
def Obligations.LoopLiteralStep : Prop :=
  ∀ (s : State) (r : DecRegs) (o : ByteSink) (q p : Bytes) (b f : Byte), LoopReady s r o q → QuietPolicy r.common →
    r.table.read b.toNat = some (f :: p) → b.toNat < r.common.count →
    (r.common.count < r.common.L → r.common.count < 65536) →
    ∀ u ∈ litUnits b, u.1 = r.common.W →
    exec u.2 s = .next { s with dec := { s.dec with
      out := some { o with bytes := o.bytes ++ q }
      regs := some (({ r with common := r.common.accounted q u.1 }.taken u.1).advanced q (f :: p) f) } }

/-- R172 to R179, R97: an assigned codeword in phase LOOP, where the policy has nothing to do; the row of its width and
DYN.REF do the same. -/
def Obligations.LoopReferenceStep : Prop :=
  ∀ (s : State) (r : DecRegs) (o : ByteSink) (q p : Bytes) (c : BitVec 16) (f : Byte), LoopReady s r o q →
    QuietPolicy r.common → 257 ≤ c.toNat → c.toNat < r.common.count → c.toNat < 2 ^ r.common.W →
    r.table.read c.toNat = some (f :: p) → (r.common.count < r.common.L → r.common.count < 65536) →
    let t : State := { s with dec := { s.dec with
      out := some { o with bytes := o.bytes ++ q }
      regs := some (({ r with common := r.common.accounted q r.common.W }.taken r.common.W).advanced q (f :: p) f) } }
    (∀ u ∈ dynUnits c, u.1 = r.common.W → exec u.2 s = .next t) ∧ exec (.dynRef c) s = .next t

/-- R172 to R179, R97, R176: the KwKwK codeword, the next one to be assigned: the sequence is `D.val` and its first byte,
and it is what is inserted; the row of its width and DYN.KWKWK do the same. -/
def Obligations.LoopKwkwkStep : Prop :=
  ∀ (s : State) (r : DecRegs) (o : ByteSink) (p : Bytes) (c : BitVec 16) (f : Byte), LoopReady s r o (f :: p) →
    QuietPolicy r.common → 257 ≤ c.toNat → c.toNat = r.common.count → c.toNat < 2 ^ r.common.W →
    let t : State := { s with dec := { s.dec with
      out := some { o with bytes := o.bytes ++ f :: p }
      regs := some (({ r with common := r.common.accounted (f :: p) r.common.W }.taken r.common.W).advanced (f :: p)
        (f :: p ++ [f]) f) } }
    (∀ u ∈ dynUnits c, u.1 = r.common.W → exec u.2 s = .next t) ∧ exec (.dynKwkwk c) s = .next t

/-- R97, R176, R204, R210: a codeword above the count raises CodewordOutOfRange after `D.val` was written. -/
def Obligations.LoopInvalidIsOutOfRange : Prop :=
  ∀ (s : State) (r : DecRegs) (o : ByteSink) (q : Bytes) (c : BitVec 16), LoopReady s r o q → QuietPolicy r.common →
    257 ≤ c.toNat → r.common.count < c.toNat → c.toNat < 2 ^ r.common.W →
    let t : State := { s with dec := { s.dec with
      phase := .fault, fault := .codewordOutOfRange, info := some c.toNat, regs := none
      out := some { o with bytes := o.bytes ++ q } } }
    (∀ u ∈ dynUnits c, u.1 = r.common.W → exec u.2 s = .next t) ∧ exec (.dynInvalid c) s = .next t

/-- R173, R175, R180, R93: the EOF codeword in phase LOOP: `D.val` is written and accounted, the sink closed, the
invocation done; nothing is resolved, inserted or grown. -/
def Obligations.LoopEofFinishes : Prop :=
  ∀ (s : State) (r : DecRegs) (o : ByteSink) (q : Bytes), LoopReady s r o q → QuietPolicy r.common →
    ∀ u ∈ eofUnits, u.1 = r.common.W →
    exec u.2 s = .next { s with dec := { s.dec with
      phase := .done
      out := some { bytes := o.bytes ++ q, closed := true }
      regs := some ({ r with common := r.common.accounted q u.1 }.taken u.1) } }

/-- R172, R175, R202: DEC.STEP completes on a codeword of its stream as rules R172 to R179 say, and raises PrematureEnd,
with `D.val` written, where fewer than `D.W` bits are left. -/
def Obligations.DecStepReadsItsStream : Prop :=
  ∀ (s : State) (r : DecRegs) (o : ByteSink) (q : Bytes), LoopReady s r o q → QuietPolicy r.common →
    1 ≤ r.common.W → r.common.W ≤ 16 →
    (∀ (c : Nat) (f : Byte) (p : Bytes), peekBits r.src r.bitpos r.common.W = some c → c ≠ 256 → c < r.common.count →
      r.table.read c = some (f :: p) → c < 65536 → (r.common.count < r.common.L → r.common.count < 65536) →
      exec .decStep s = .next { s with dec := { s.dec with
        out := some { o with bytes := o.bytes ++ q }
        regs := some (({ r with common := r.common.accounted q r.common.W }.taken r.common.W).advanced q (f :: p) f) } }) ∧
    (peekBits r.src r.bitpos r.common.W = none →
      exec .decStep s = .next { s with dec := { s.dec with
        phase := .fault, fault := .prematureEnd, info := some r.bitpos, regs := none
        out := some { o with bytes := o.bytes ++ q } } })

/-- R136, R139, R154, R155, R174, R177, R238: in mode FullReset a saturated Decoder writes and accounts `D.val`, resets
the dictionary, reads the next codeword at 9 bits, and the entry carried across the reset gets codeword 257; a saturated
Encoder emits at the old width, resets, and carries its entry to codeword 257 where a byte follows. -/
def Obligations.FullResetStepCarriesTheEntry : Prop :=
  (∀ (s : State) (r : DecRegs) (o : ByteSink) (q : Bytes) (b : Byte), LoopReady s r o q →
    r.common.mode = .fullReset → r.common.count = 65536 →
    exec (.litW9 b) s = .next { s with dec := { s.dec with
      out := some { o with bytes := o.bytes ++ q }
      regs := some { r with
        common := { (r.common.accounted q r.common.W).afterReset with count := 258 }
        table := Store.seed.write 257 (q ++ [b])
        val := some [b], bitpos := r.bitpos + 9, readW := some 9 } } }) ∧
  (∀ (s : State) (r : EncRegs) (o : BitSink) (q : Bytes) (c : Nat), EncReady s r o → r.pos < r.inp.length →
    r.common.mode = .fullReset → r.common.count = 65536 → r.dict.longestMatch (r.inp.drop r.pos) = some (q, c) →
    1 ≤ r.common.W → r.common.W ≤ 16 → c < 2 ^ r.common.W →
    exec .encStep s = .next { s with enc := { s.enc with
      out := some { o with bits := o.bits ++ natBits r.common.W c }
      regs := some (if r.pos + q.length < r.inp.length then
          { r with
            common := { (r.common.accounted q r.common.W).afterReset with count := 258 }
            dict := Store.seed.write 257 ((r.inp.drop r.pos).take (q.length + 1))
            pos := r.pos + q.length }
        else { r with
          common := (r.common.accounted q r.common.W).afterReset, dict := Store.seed, pos := r.pos + q.length }) } })

/-! ### Decoder sub-steps -/

/-- R173: DEC.OUTPUT appends `D.val` and accounts 8 bits a byte and the width in force, or, where
`DEC_ACCOUNT_WIDTH == as_read`, the width its codeword was read at. -/
def Obligations.DecOutputWritesAndAccounts : Prop :=
  (∀ (s : State) (r : DecRegs) (o : ByteSink) (q : Bytes), LoopReady s r o q →
    exec .decOutput s = .next { s with dec := { s.dec with
      out := some { o with bytes := o.bytes ++ q }, regs := some { r with common := r.common.accounted q r.common.W } } }) ∧
  (∀ (s : State) (r : DecRegs) (o : ByteSink) (q : Bytes) (w : Nat), s.dec.phase = .loop → s.dec.regs = some r →
    s.dec.out = some o → o.closed = false → r.val = some q → s.Unbounded → s.params.decAccountWidth = .asRead →
    r.readW = some w →
    exec .decOutput s = .next { s with dec := { s.dec with
      out := some { o with bytes := o.bytes ++ q }, regs := some { r with common := r.common.accounted q w } } })

/-- R174, R154, R134 to R136: ENC.POLICY and DEC.POLICY do nothing where the dictionary is not saturated or the mode is
None, and reset the dictionary where it is saturated and the mode is FullReset. In every mode they are RP.EVAL, and
DICT.RESET after it where it returned true; what RP.EVAL returns goes to `ret` when it is run alone (log 6). -/
def Obligations.PolicyResetsAtSaturation : Prop :=
  (∀ (s : State) (r : DecRegs), s.dec.phase = .loop → s.dec.regs = some r →
    (QuietPolicy r.common → exec .decPolicy s = .next s) ∧
    (r.common.count = 65536 → r.common.mode = .fullReset →
      exec .decPolicy s = .next (s.setDec { r with table := Store.seed, common := r.common.afterReset })) ∧
    (∀ (u : State) (fire : Bool), exec (.rpEval .dec) s = .next { u with ret := .flag fire } → u.ret = s.ret →
      exec .decPolicy s = if fire then exec (.dictReset .dec) u else .next u)) ∧
  (∀ (s : State) (r : EncRegs), s.enc.phase = .step → s.enc.regs = some r →
    (QuietPolicy r.common → exec .encPolicy s = .next s) ∧
    (r.common.count = 65536 → r.common.mode = .fullReset →
      exec .encPolicy s = .next (s.setEnc { r with dict := Store.seed, common := r.common.afterReset })) ∧
    (∀ (u : State) (fire : Bool), exec (.rpEval .enc) s = .next { u with ret := .flag fire } → u.ret = s.ret →
      exec .encPolicy s = if fire then exec (.dictReset .enc) u else .next u))

/-- R175, R73, R202: DEC.READ takes `D.W` bits and returns the codeword, ends the invocation on the EOF codeword, and
raises PrematureEnd where fewer bits are left. The field `ret` that takes the codeword (log 6) and the register `readW`
(log 7) are the model's. -/
def Obligations.DecReadTakesOneCodeword : Prop :=
  ∀ (s : State) (r : DecRegs) (o : ByteSink), s.dec.phase = .loop → s.dec.regs = some r → s.dec.out = some o →
    1 ≤ r.common.W → r.common.W ≤ 16 →
    (∀ c, peekBits r.src r.bitpos r.common.W = some c → c ≠ 256 →
      exec .decRead s = .next { s.setDec (r.taken r.common.W) with ret := .number (some c) }) ∧
    (peekBits r.src r.bitpos r.common.W = some 256 →
      exec .decRead s = .next { s with dec := { s.dec with
        phase := .done, regs := some (r.taken r.common.W), out := some { o with closed := true } } }) ∧
    (peekBits r.src r.bitpos r.common.W = none →
      exec .decRead s = .next { s with dec := { s.dec with
        phase := .fault, fault := .prematureEnd, info := some r.bitpos, regs := none } })

/-- R176: DEC.RESOLVE returns the table's sequence below the count, `D.val` and its first byte at the count, and raises
CodewordOutOfRange above it. The field `ret` that takes the sequence is the model's (log 6). -/
def Obligations.DecResolveGivesTheSequence : Prop :=
  ∀ (s : State) (r : DecRegs) (cw : Nat), s.dec.phase = .loop → s.dec.regs = some r → s.Unbounded →
    (∀ q, cw < r.common.count → cw < 65536 → r.table.read cw = some q →
      exec (.decResolve cw) s = .next { s with ret := .seq q }) ∧
    (∀ f p, cw = r.common.count → r.val = some (f :: p) →
      exec (.decResolve cw) s = .next { s with ret := .seq (f :: p ++ [f]) }) ∧
    (r.common.count < cw →
      exec (.decResolve cw) s = .next { s with dec := { s.dec with
        phase := .fault, fault := .codewordOutOfRange, info := some cw, regs := none } })

/-- R177, R178, R179: DEC.INSERT adds `D.val` and the first byte of `s` at the count below capacity and nothing at it;
DEC.GROW grows at `L - 1` below width 16; DEC.ADVANCE sets `D.val`. -/
def Obligations.DecInsertGrowAdvance : Prop :=
  ∀ (s : State) (r : DecRegs), s.dec.phase = .loop → s.dec.regs = some r → s.Unbounded →
    (∀ (v p : Bytes) (f : Byte), r.val = some v →
      (r.common.count < r.common.L → r.common.count < 65536 →
        exec (.decInsert (f :: p)) s = .next (s.setDec { r with
          table := r.table.write r.common.count (v ++ [f]), common := { r.common with count := r.common.count + 1 } })) ∧
      (r.common.L ≤ r.common.count → exec (.decInsert (f :: p)) s = .next s)) ∧
    exec .decGrow s = .next (s.setDec { r with common := r.common.decGrown }) ∧
    ∀ q : Bytes, exec (.decAdvance q) s = .next (s.setDec { r with val := some q })

/-- R180, R74: DEC.FINISH closes the byte sink and sets phase DONE. -/
def Obligations.DecFinishClosesTheSink : Prop :=
  ∀ (s : State) (o : ByteSink), s.running .dec = true → s.dec.out = some o →
    exec .decFinish s = .next { s with dec := { s.dec with phase := .done, out := some { o with closed := true } } }

/-! ### Encoder operations -/

/-- R151 to R157: ENC.STEP where the policy has nothing to do: the codeword of the longest prefix is put at `E.W` and
accounted, the prefix with the next byte inserted, the width grown at `L`, the cursor advanced. -/
def Obligations.EncStepEmitsTheLongestPrefix : Prop :=
  ∀ (s : State) (r : EncRegs) (o : BitSink) (q : Bytes) (c : Nat), EncReady s r o → r.pos < r.inp.length →
    QuietPolicy r.common → r.dict.longestMatch (r.inp.drop r.pos) = some (q, c) →
    1 ≤ r.common.W → r.common.W ≤ 16 → c < 2 ^ r.common.W → r.CanInsert q →
    exec .encStep s = .next { s with enc := { s.enc with
      out := some { o with bits := o.bits ++ natBits r.common.W c }
      regs := some ({ r with common := r.common.accounted q r.common.W }.advanced q) } }

/-- R158, R93, R74: ENC.FINISH puts codeword 256 at the current width, pads with zero bits to a whole number of bytes,
closes the sink and sets phase DONE; it accounts nothing. -/
def Obligations.EncFinishWritesEofAndPads : Prop :=
  ∀ (s : State) (r : EncRegs) (o : BitSink), EncReady s r o → r.pos = r.inp.length → 9 ≤ r.common.W → r.common.W ≤ 16 →
    let bits := o.bits ++ natBits r.common.W 256
    ∃ pad : Bits, (∀ b ∈ pad, b = false) ∧ pad.length < 8 ∧ 8 ∣ (bits ++ pad).length ∧
      exec .encFinish s = .next { s with enc := { s.enc with
        phase := .done, out := some { bits := bits ++ pad, closed := true } } }

/-- R62, R152: LongestPrefix, and ENC.LOOKUP on the remaining input, return a key that starts the sequence, with its
codeword, such that no key that starts it is longer; they change nothing but `ret`. A sequence that starts with a key has
such a result. ENC.LOOKUP holds what it found, so it goes on where that is within `SEQ_MAX` (log 12). `ret` is the
model's field (log 6). -/
def Obligations.LookupFindsTheLongestKey : Prop :=
  ∀ (s : State) (r : EncRegs) (rest key : Bytes) (d : Nat), s.enc.phase = .step → s.enc.regs = some r →
    r.dict.wf = true → r.dict.read d = some key → key ≠ [] → key <+: rest →
    ∃ q c, r.dict.read c = some q ∧ q ≠ [] ∧ q <+: rest ∧
      (∀ d' k, r.dict.read d' = some k → k <+: rest → k.length ≤ q.length) ∧
      exec (.longestPrefix rest) s = .next { s with ret := .entry q c } ∧
      (rest = r.inp.drop r.pos → seqFits s.params.seqMax q = true → exec .encLookup s = .next { s with ret := .entry q c })

/-- R153, R72: ENC.EMIT puts the codeword at `E.W` and accounts 8 bits a byte and `E.W`. -/
def Obligations.EncEmitPutsAndAccounts : Prop :=
  ∀ (s : State) (r : EncRegs) (o : BitSink) (q : Bytes) (c : Nat), EncReady s r o → 1 ≤ r.common.W → r.common.W ≤ 16 →
    c < 2 ^ r.common.W →
    exec (.encEmit q c) s = .next { s with enc := { s.enc with
      out := some { o with bits := o.bits ++ natBits r.common.W c }
      regs := some { r with common := r.common.accounted q r.common.W } } }

/-- R155, R156, R157: ENC.INSERT adds `s` and the next input byte at the count where there is such a byte and the count is
below the capacity, and nothing otherwise; ENC.GROW grows at `L` below width 16; ENC.ADVANCE moves the cursor past `s`. -/
def Obligations.EncInsertGrowAdvance : Prop :=
  ∀ (s : State) (r : EncRegs) (q : Bytes), s.enc.phase = .step → s.enc.regs = some r → s.Unbounded →
    (r.pos + q.length < r.inp.length → r.common.count < r.common.L → r.CanInsert q →
      exec (.encInsert q) s = .next (s.setEnc { r with
        dict := r.dict.write r.common.count ((r.inp.drop r.pos).take (q.length + 1))
        common := { r.common with count := r.common.count + 1 } })) ∧
    (r.inp.length ≤ r.pos + q.length ∨ r.common.L ≤ r.common.count → exec (.encInsert q) s = .next s) ∧
    exec .encGrow s = .next (s.setEnc { r with common := r.common.encGrown }) ∧
    exec (.encAdvance q) s = .next (s.setEnc { r with pos := r.pos + q.length })

/-! ### Width Controller and Reset Policy -/

/-- R120, R121, R122: WC.INIT sets `W` 9 and `L` 512; WC.REACHED returns `count == L` (Encoder) or `count == L - 1`
(Decoder), below width 16, and changes nothing; WC.GROW adds one to `W` and doubles `L`. The field `ret` that takes what
WC.REACHED returns is the model's (log 6). -/
def Obligations.WidthControllerOperations : Prop :=
  (∀ (s : State) (r : EncRegs), s.enc.phase = .step → s.enc.regs = some r →
    exec (.wcInit .enc) s = .next (s.setEnc { r with common := { r.common with W := 9, L := 512 } }) ∧
    exec (.wcReached .enc) s = .next { s with ret := .flag (decide (r.common.count = r.common.L ∧ r.common.W < 16)) } ∧
    (r.common.W < 16 → exec (.wcGrow .enc) s =
      .next (s.setEnc { r with common := { r.common with W := r.common.W + 1, L := r.common.L * 2 } }))) ∧
  (∀ (s : State) (r : DecRegs), s.running .dec = true → s.dec.regs = some r →
    exec (.wcInit .dec) s = .next (s.setDec { r with common := { r.common with W := 9, L := 512 } }) ∧
    exec (.wcReached .dec) s = .next { s with ret := .flag (decide (r.common.count + 1 = r.common.L ∧ r.common.W < 16)) } ∧
    (r.common.W < 16 → exec (.wcGrow .dec) s =
      .next (s.setDec { r with common := { r.common with W := r.common.W + 1, L := r.common.L * 2 } })))

/-- R130, R131: RP.SATURATED returns `count == 65536` and changes nothing; RP.ACCOUNT adds its operands exactly to the
two counters, which are unbounded or, with `CNT_W == n` (R205), hold both sums below `2^n`. `ret` is the model's field
(log 6). -/
def Obligations.SaturationTestAndAccounting : Prop :=
  (∀ (s : State) (r : EncRegs) (u c : Nat), s.enc.phase = .step → s.enc.regs = some r →
    exec (.rpSaturated .enc) s = .next { s with ret := .flag (decide (r.common.count = 65536)) } ∧
    ((∀ n, s.params.cntW = some n → r.common.U + u < 2 ^ n ∧ r.common.C + c < 2 ^ n) → exec (.rpAccount .enc u c) s =
      .next (s.setEnc { r with common := { r.common with U := r.common.U + u, C := r.common.C + c } }))) ∧
  (∀ (s : State) (r : DecRegs) (u c : Nat), s.running .dec = true → s.dec.regs = some r →
    exec (.rpSaturated .dec) s = .next { s with ret := .flag (decide (r.common.count = 65536)) } ∧
    ((∀ n, s.params.cntW = some n → r.common.U + u < 2 ^ n ∧ r.common.C + c < 2 ^ n) → exec (.rpAccount .dec u c) s =
      .next (s.setDec { r with common := { r.common with U := r.common.U + u, C := r.common.C + c } })))

/-- R205, R208, R210: with counters of `n` bits a sum that does not fit raises CounterOverflow instead of wrapping, in
either engine, and the output stays. -/
def Obligations.CounterOverflowIsRaised : Prop :=
  ∀ (s : State) (n u c : Nat), s.params.cntW = some n →
    (∀ r : EncRegs, s.enc.phase = .step → s.enc.regs = some r →
      2 ^ n ≤ r.common.U + u ∨ 2 ^ n ≤ r.common.C + c →
      exec (.rpAccount .enc u c) s = .next { s with enc := { s.enc with
        phase := .fault, fault := .counterOverflow, info := none, regs := none } }) ∧
    (∀ r : DecRegs, s.running .dec = true → s.dec.regs = some r →
      2 ^ n ≤ r.common.U + u ∨ 2 ^ n ≤ r.common.C + c →
      exec (.rpAccount .dec u c) s = .next { s with dec := { s.dec with
        phase := .fault, fault := .counterOverflow, info := none, regs := none } })

/-- R134 to R137: RP.EVAL returns false and changes nothing below saturation; at saturation it returns what the variant
of its mode returns: NONE false, FULLRESET true, both with no change; BASELINE records the ratio and returns false.
Each variant run on its own does the same. The field `ret` that takes the result is the model's (log 6). -/
def Obligations.PolicyVariants : Prop :=
  (∀ (s : State) (r : EncRegs), s.enc.phase = .step → s.enc.regs = some r →
    (r.common.count ≠ 65536 → exec (.rpEval .enc) s = .next { s with ret := .flag false }) ∧
    (r.common.mode = .none → exec (.rpEvalNone .enc) s = .next { s with ret := .flag false } ∧
      exec (.rpEval .enc) s = .next { s with ret := .flag false }) ∧
    (r.common.mode = .fullReset → exec (.rpEvalFullReset .enc) s = .next { s with ret := .flag true } ∧
      (r.common.count = 65536 → exec (.rpEval .enc) s = .next { s with ret := .flag true })) ∧
    (r.common.mode = .ratioMonitored → r.common.ratioSet = false →
      let t : State := { s.setEnc { r with common := { r.common with
        oldRatio := some { U := r.common.U, C := r.common.C }, ratioSet := true } } with ret := .flag false }
      exec (.rpEvalRatioBaseline .enc) s = .next t ∧ (r.common.count = 65536 → exec (.rpEval .enc) s = .next t))) ∧
  (∀ (s : State) (r : DecRegs), s.running .dec = true → s.dec.regs = some r →
    (r.common.count ≠ 65536 → exec (.rpEval .dec) s = .next { s with ret := .flag false }) ∧
    (r.common.mode = .none → exec (.rpEvalNone .dec) s = .next { s with ret := .flag false } ∧
      exec (.rpEval .dec) s = .next { s with ret := .flag false }) ∧
    (r.common.mode = .fullReset → exec (.rpEvalFullReset .dec) s = .next { s with ret := .flag true } ∧
      (r.common.count = 65536 → exec (.rpEval .dec) s = .next { s with ret := .flag true })) ∧
    (r.common.mode = .ratioMonitored → r.common.ratioSet = false →
      let t : State := { s.setDec { r with common := { r.common with
        oldRatio := some { U := r.common.U, C := r.common.C }, ratioSet := true } } with ret := .flag false }
      exec (.rpEvalRatioBaseline .dec) s = .next t ∧ (r.common.count = 65536 → exec (.rpEval .dec) s = .next t)))

/-- R138, R133: the compare case, with the exact ratio test: where `10 * Uo * C > 11 * Co * U` it clears the flag and both
snapshots and returns true, otherwise it records the new ratio, keeps the baseline and returns false. At saturation RP.EVAL
in this case does the same (R134). The field `ret` that takes the result is the model's (log 6). -/
def Obligations.RatioCompareCase : Prop :=
  (∀ (s : State) (r : EncRegs) (b : Snapshot), s.enc.phase = .step → s.enc.regs = some r → s.params.ratio = .exact →
    r.common.mode = .ratioMonitored → r.common.ratioSet = true → r.common.oldRatio = some b →
    let t : State :=
      if 10 * b.U * r.common.C > 11 * b.C * r.common.U then
        { s.setEnc { r with common := { r.common with ratioSet := false, oldRatio := none, newRatio := none } } with ret := .flag true }
      else
        { s.setEnc { r with common := { r.common with newRatio := some { U := r.common.U, C := r.common.C } } } with ret := .flag false }
    exec (.rpEvalRatioCompare .enc) s = .next t ∧ (r.common.count = 65536 → exec (.rpEval .enc) s = .next t)) ∧
  (∀ (s : State) (r : DecRegs) (b : Snapshot), s.running .dec = true → s.dec.regs = some r → s.params.ratio = .exact →
    r.common.mode = .ratioMonitored → r.common.ratioSet = true → r.common.oldRatio = some b →
    let t : State :=
      if 10 * b.U * r.common.C > 11 * b.C * r.common.U then
        { s.setDec { r with common := { r.common with ratioSet := false, oldRatio := none, newRatio := none } } with ret := .flag true }
      else
        { s.setDec { r with common := { r.common with newRatio := some { U := r.common.U, C := r.common.C } } } with ret := .flag false }
    exec (.rpEvalRatioCompare .dec) s = .next t ∧ (r.common.count = 65536 → exec (.rpEval .dec) s = .next t))

/-- R132, R133: the exact ratio test is `oldRatio / newRatio > 11/10` over the rational numbers, strictly. -/
def Obligations.RatioTestIsTheQuotient : Prop :=
  ∀ old new : Snapshot, 0 < old.U → 0 < old.C → 0 < new.U → 0 < new.C →
    (ratioExceeds .exact old new = true ↔
      ((old.U : ℚ) / old.C) / ((new.U : ℚ) / new.C) > 11 / 10)

/-- R139, R54, R140: DICT.RESET leaves the 257 seed slots, `count` 257, `W` 9, `L` 512, and everything else as it was, the
cumulative counters among it. That it does so whatever `SEQ_MAX` is, 0 too, is the model's choice (log 12). -/
def Obligations.DictResetRestoresTheSeed : Prop :=
  (∀ (s : State) (r : EncRegs), s.enc.phase = .step → s.enc.regs = some r →
    exec (.dictReset .enc) s = .next (s.setEnc { r with
      dict := Store.seed, common := { r.common with W := 9, L := 512, count := 257 } })) ∧
  (∀ (s : State) (r : DecRegs), s.running .dec = true → s.dec.regs = some r →
    exec (.dictReset .dec) s = .next (s.setDec { r with
      table := Store.seed, common := { r.common with W := 9, L := 512, count := 257 } })) ∧
  (∀ i, Store.seed.read i = if i < 256 then some [BitVec.ofNat 8 i] else none)

/-! ### Primitives -/

/-- R71 to R76, R82: PutBits and WriteBytes append to an open sink, GetBits consumes the bits it returns or, at the end of
input, nothing, ReadAllBytes takes the whole input. -/
def Obligations.StreamPrimitives : Prop :=
  (∀ (s : State) (o : BitSink) (v n : Nat), s.enc.out = some o → o.closed = false → 1 ≤ n → n ≤ 16 → v < 2 ^ n →
    exec (.putBits v n) s = .next { s with enc := { s.enc with out := some { o with bits := o.bits ++ natBits n v } } }) ∧
  (∀ (s : State) (r : DecRegs) (n : Nat), s.dec.regs = some r → 1 ≤ n → n ≤ 16 →
    (∀ v, peekBits r.src r.bitpos n = some v →
      exec (.getBits n) s = .next { s.setDec { r with bitpos := r.bitpos + n } with ret := .number (some v) }) ∧
    (peekBits r.src r.bitpos n = none → exec (.getBits n) s = .next { s with ret := .number none })) ∧
  (∀ (s : State) (o : ByteSink) (q : Bytes), s.dec.out = some o → o.closed = false →
    exec (.writeBytes q) s = .next { s with dec := { s.dec with out := some { o with bytes := o.bytes ++ q } } }) ∧
  (∀ s : State, exec .readAllBytes s = .next { s with byteSource := [], ret := .seq s.byteSource })

/-- R74: Close pads the Encoder's bits with zero bits to a whole number of bytes, the Decoder's sink with nothing, and ends
the stream: after it PutBits and WriteBytes stop. That they stop by the name `sinkClosed`, and that Close on a closed stream
goes on (the Encoder's bits padded as ever, which adds none to whole bytes), is the model's reading (log 14). -/
def Obligations.CloseEndsTheStream : Prop :=
  (∀ (s : State) (o : BitSink), s.enc.out = some o →
    ∃ pad : Bits, (∀ b ∈ pad, b = false) ∧ pad.length < 8 ∧ 8 ∣ (o.bits ++ pad).length ∧
      exec (.close .enc) s = .next { s with enc := { s.enc with out := some { bits := o.bits ++ pad, closed := true } } }) ∧
  (∀ (s : State) (o : ByteSink), s.dec.out = some o →
    exec (.close .dec) s = .next { s with dec := { s.dec with out := some { o with closed := true } } }) ∧
  (∀ (s : State) (o : BitSink) (v n : Nat), s.enc.out = some o → o.closed = true → 1 ≤ n → n ≤ 16 → v < 2 ^ n →
    exec (.putBits v n) s = .fault .sinkClosed) ∧
  (∀ (s : State) (o : ByteSink) (q : Bytes), s.dec.out = some o → o.closed = true →
    exec (.writeBytes q) s = .fault .sinkClosed)

/-- R63 to R67, R81: DictInsert adds one pair and DictSeed the seed; TableWrite stores one sequence, TableSeed the seed, after
which `D.count` is 257; TableRead returns the sequence of its index; what is written is read back, and nothing else of the
store changes. The callers give DictInsert and TableWrite a free codeword from 257 up (R63, R66, R61); that the primitives run
alone take codeword 256, a literal's index or a held index too is the model's choice (log 11), and so is the field `ret`
(log 6). -/
def Obligations.StorePrimitives : Prop :=
  (∀ (s : State) (r : EncRegs), s.enc.phase = .step → s.enc.regs = some r → s.Unbounded →
    (∀ key code, key ≠ [] → code < 65536 → r.dict.codeOf key = none → r.dict.read code = none →
      ∃ d : Store, exec (.dictInsert key code) s = .next (s.setEnc { r with dict := d }) ∧
        d.read code = some key ∧ ∀ j, j ≠ code → d.read j = r.dict.read j) ∧
    exec .dictSeed s = .next (s.setEnc { r with dict := Store.seed })) ∧
  (∀ (s : State) (r : DecRegs), s.running .dec = true → s.dec.regs = some r → s.Unbounded →
    (∀ i q, i < 65536 → q ≠ [] →
      ∃ d : Store, exec (.tableWrite i q) s = .next (s.setDec { r with table := d }) ∧
        d.read i = some q ∧ ∀ j, j ≠ i → d.read j = r.table.read j) ∧
    (∀ i q, i < 65536 → r.table.read i = some q → exec (.tableRead i) s = .next { s with ret := .seq q }) ∧
    exec .tableSeed s = .next (s.setDec { r with table := Store.seed, common := { r.common with count := 257 } }))

/-- R12, 93 U9: with a finite `SEQ_MAX` a longer sequence is refused, not truncated, wherever the engines hold one: `s`
found by ENC.LOOKUP or given to a sub-step, an entry inserted or written, the sequence DEC.RESOLVE finds, `D.val` set by
DEC.FIRST or DEC.ADVANCE. The refusal's place in each operation is the model's (log 12). -/
def Obligations.LongEntriesAreRefused : Prop :=
  ∀ (s : State) (n : Nat) (q : Bytes), s.params.seqMax = some n → n < q.length →
    (∀ r : EncRegs, s.enc.phase = .step → s.enc.regs = some r →
      (∀ c, exec (.encEmit q c) s = .refused .seqTooLong) ∧ exec (.encInsert q) s = .refused .seqTooLong ∧
      exec (.encAdvance q) s = .refused .seqTooLong ∧
      (∀ c, r.dict.longestMatch (r.inp.drop r.pos) = some (q, c) → exec .encLookup s = .refused .seqTooLong ∧
        (r.pos < r.inp.length → exec .encStep s = .refused .seqTooLong)) ∧
      (∀ code, code < 65536 → r.dict.codeOf q = none → r.dict.read code = none →
        exec (.dictInsert q code) s = .refused .seqTooLong) ∧
      (∀ p, p.length ≤ n → insertKey p r = q → r.pos + p.length < r.inp.length → r.CanInsert p →
        r.common.count < r.common.L → exec (.encInsert p) s = .refused .seqTooLong)) ∧
    (∀ (r : DecRegs) (i : Nat), s.running .dec = true → s.dec.regs = some r → i < 65536 →
      exec (.tableWrite i q) s = .refused .seqTooLong) ∧
    (∀ r : DecRegs, s.dec.phase = .loop → s.dec.regs = some r →
      exec (.decInsert q) s = .refused .seqTooLong ∧ exec (.decAdvance q) s = .refused .seqTooLong ∧
      (∀ cw, cw < r.common.count → cw < 65536 → r.table.read cw = some q →
        exec (.decResolve cw) s = .refused .seqTooLong) ∧
      (∀ f p, r.val = some (f :: p) → q = f :: p ++ [f] →
        exec (.decResolve r.common.count) s = .refused .seqTooLong) ∧
      (∀ v f p, r.val = some v → q = v ++ [f] → (f :: p).length ≤ n → r.common.count < r.common.L →
        r.common.count < 65536 → exec (.decInsert (f :: p)) s = .refused .seqTooLong)) ∧
    (∀ (r : DecRegs) (o : ByteSink) (b : Byte), FirstReady s r o → r.table.read b.toNat = some q →
      (∀ p ∈ litUnits b, p.1 = r.common.W → exec p.2 s = .refused .seqTooLong) ∧
      (1 ≤ r.common.W → r.common.W ≤ 16 → peekBits r.src r.bitpos r.common.W = some b.toNat →
        exec .decFirst s = .refused .seqTooLong))

/-- R109, R21, R33: every instruction whose enabling condition (`enabled`) does not hold stops by the name `notEnabled`:
outside phase STEP every operation of an ENC.STEP and every store or shared operation of the Encoder, ENC.STEP with no input
left, ENC.FINISH with input left, outside FIRST and LOOP every unit of the stream and every store or shared operation of the
Decoder, DEC.FIRST outside FIRST, DEC.STEP and its sub-steps outside LOOP, DEC.FINISH outside both, a START while its engine
runs. That a stop is what happens there is the model's choice (log 1). -/
def Obligations.OperationsStopWhereNotEnabled : Prop :=
  ∀ (i : Instr) (s : State), enabled i s = false → exec i s = .fault .notEnabled
end

