-- ==== Sys2Proof/Laws/Bits.lean ====
section
/-! SUPPORT. The laws of the bit order: lengths, and that a number is read back from its bits. -/
namespace Sys2Proof

@[simp] theorem natBits_length (n v : Nat) : (natBits n v).length = n := by
  induction n with
  | zero => rfl
  | succ n ih => simp [natBits, ih]

/-- The low bits of a number, the highest of them apart. -/
theorem mod_two_pow_add_one (v n : Nat) : v % 2 ^ (n + 1) = (v.testBit n).toNat * 2 ^ n + v % 2 ^ n := by
  have h := Nat.mod_mul (x := v) (a := 2 ^ n) (b := 2)
  rw [pow_succ, h, Nat.testBit_eq_decide_div_mod_eq]
  have : v / 2 ^ n % 2 = 0 ∨ v / 2 ^ n % 2 = 1 := by omega
  rcases this with h | h <;> simp [h]
  omega

theorem foldl_natBits (n v a : Nat) :
    (natBits n v).foldl (fun a b => 2 * a + b.toNat) a = a * 2 ^ n + v % 2 ^ n := by
  induction n generalizing a with
  | zero => simp [natBits, Nat.mod_one]
  | succ n ih => rw [natBits, List.foldl_cons, ih, mod_two_pow_add_one]; ring

/-- The bits of a number, read as a number, are its low bits (rules R72, R73). -/
@[simp] theorem bitsToNat_natBits (n v : Nat) : bitsToNat (natBits n v) = v % 2 ^ n := by
  simp [bitsToNat, foldl_natBits]

@[simp] theorem byteBits_length (b : Byte) : (byteBits b).length = 8 := by simp [byteBits]

/-- A byte stream has eight bits a byte. -/
@[simp] theorem streamBits_length (bs : Bytes) : (streamBits bs).length = 8 * bs.length := by
  induction bs with
  | nil => rfl
  | cons b t ih => rw [streamBits, List.flatMap_cons, List.length_append, ← streamBits, ih]; simp; omega

/-- Padding makes a whole number of bytes (rule R74). -/
theorem dvd_length_padBits (n : Nat) : 8 ∣ n + (padBits n).length := by
  simp only [padBits, List.length_replicate]; omega

end Sys2Proof
end

