-- ==== Sys2Proof/Laws/Store.lean ====
section
/-! SUPPORT. The laws of the dictionary stores: a read after a write, the canonical form, the seed, and what the
longest match is. -/
namespace Sys2Proof.Machine

theorem Store.wf_cons {a : Nat × Bytes} {t : Store} (h : Store.wf (a :: t) = true) : t.wf = true := by
  cases t with
  | nil => rfl
  | cons b t => simp only [Store.wf, Bool.and_eq_true] at h; exact h.2

/-- In canonical form nothing below the head is listed. -/
theorem Store.read_below {a : Nat × Bytes} {t : Store} (h : Store.wf (a :: t) = true) {i : Nat} (hi : i < a.1) :
    Store.read i (a :: t) = none := by
  induction t generalizing a with
  | nil => simp [Store.read, Nat.ne_of_gt hi]
  | cons b t ih =>
    have hab : a.1 < b.1 := by simp only [Store.wf, Bool.and_eq_true, decide_eq_true_eq] at h; exact h.1
    have := ih (Store.wf_cons h) (Nat.lt_trans hi hab)
    simpa [Store.read, Nat.ne_of_gt hi] using this

/-- A read after a write to the same codeword gives what was written. -/
@[simp] theorem Store.read_write_same (i : Nat) (q : Bytes) (t : Store) : Store.read i (Store.write i q t) = some q := by
  induction t with
  | nil => simp [Store.write, Store.read]
  | cons a t ih =>
    unfold Store.write
    split
    · simp [Store.read]
    · split
      · simp [Store.read]
      · rename_i h1 h2; simp [Store.read, Ne.symm h2, ih]

/-- A write leaves every other codeword alone. -/
theorem Store.read_write_other {i j : Nat} (h : j ≠ i) (q : Bytes) (t : Store) :
    Store.read j (Store.write i q t) = Store.read j t := by
  induction t with
  | nil => simp [Store.write, Store.read, Ne.symm h]
  | cons a t ih =>
    unfold Store.write
    split
    · simp [Store.read, Ne.symm h]
    · split
      · rename_i h1 h2; subst h2; simp [Store.read, Ne.symm h]
      · simp [Store.read, ih]

/-- The head of a store after a write: the old head or the new entry. -/
theorem Store.write_head (i : Nat) (q : Bytes) (a : Nat × Bytes) (t : Store) :
    ∃ b u, Store.write i q (a :: t) = b :: u ∧ (b.1 = i ∨ b.1 = a.1) := by
  simp only [Store.write]
  split
  · exact ⟨_, _, rfl, .inl rfl⟩
  · split
    · exact ⟨_, _, rfl, .inl rfl⟩
    · exact ⟨_, _, rfl, .inr rfl⟩

/-- Every write keeps the canonical form. -/
theorem Store.wf_write (i : Nat) (q : Bytes) {t : Store} (h : t.wf = true) : (Store.write i q t).wf = true := by
  induction t with
  | nil => rfl
  | cons a t ih =>
    have ht := Store.wf_cons h
    unfold Store.write
    split
    · rename_i h1; simp [Store.wf, h1, h]
    · rename_i h1
      split
      · rename_i h2
        subst h2
        cases t with
        | nil => rfl
        | cons b u => simpa [Store.wf] using h
      · rename_i h2
        have hi : a.1 < i := by omega
        cases t with
        | nil => simp [Store.write, Store.wf, hi]
        | cons b u =>
          have hab : a.1 < b.1 := by simp only [Store.wf, Bool.and_eq_true, decide_eq_true_eq] at h; exact h.1
          obtain ⟨c, v, hc, hor⟩ := Store.write_head i q b u
          have hw := ih ht
          rw [hc] at hw ⊢
          have : a.1 < c.1 := by omega
          simp [Store.wf, this, hw]

/-- The seed of any range of codewords is canonical: a listed run of rising codewords. -/
theorem Store.wf_range (f : Nat → Bytes) (n k : Nat) :
    Store.wf ((List.range' k n).map fun b => (b, f b)) = true := by
  induction n generalizing k with
  | zero => rfl
  | succ n ih =>
    have := ih (k + 1)
    cases n with
    | zero => rfl
    | succ n =>
      simp only [List.range'_succ, List.map_cons, Store.wf, Bool.and_eq_true, decide_eq_true_eq] at this ⊢
      exact ⟨by omega, this⟩

@[simp] theorem Store.wf_seed : Store.seed.wf = true := by
  simpa [Store.seed, List.range_eq_range'] using Store.wf_range (fun b => [BitVec.ofNat 8 b]) 256 0

theorem Store.read_range (f : Nat → Bytes) (n k i : Nat) :
    Store.read i ((List.range' k n).map fun b => (b, f b)) = if k ≤ i ∧ i < k + n then some (f i) else none := by
  induction n generalizing k with
  | zero => simp only [List.range'_zero, List.map_nil, Store.read]; rw [if_neg (by omega)]
  | succ n ih =>
    simp only [List.range'_succ, List.map_cons, Store.read, ih]
    by_cases h : k = i
    · subst h; simp
    · rw [if_neg h]; congr 1; simp only [eq_iff_iff]; omega

/-- The seed holds exactly the 256 one-byte sequences (rules R64, R67). -/
theorem Store.read_seed (i : Nat) : Store.seed.read i = if i < 256 then some [BitVec.ofNat 8 i] else none := by
  simpa [Store.seed, List.range_eq_range'] using Store.read_range (fun b => [BitVec.ofNat 8 b]) 256 0 i

/-- A key that has a codeword is listed with it. -/
theorem Store.mem_of_codeOf {key : Bytes} {t : Store} {c : Nat} (h : t.codeOf key = some c) : (c, key) ∈ t := by
  induction t with
  | nil => simp [Store.codeOf] at h
  | cons a t ih =>
    obtain ⟨j, p⟩ := a
    simp only [Store.codeOf] at h
    split at h
    · rename_i hp; cases h; simp [hp]
    · exact List.mem_cons_of_mem _ (ih h)

/-- A key without a codeword is not listed. -/
theorem Store.codeOf_eq_none {key : Bytes} {t : Store} : t.codeOf key = none ↔ ∀ c, (c, key) ∉ t := by
  induction t with
  | nil => simp [Store.codeOf]
  | cons a t ih =>
    obtain ⟨j, p⟩ := a
    simp only [Store.codeOf]
    split
    · rename_i hp
      subst hp
      simp only [reduceCtorEq, false_iff]
      exact fun h => h j (by simp)
    · rename_i hp; simp [ih, Ne.symm hp]

/-- What is read is listed. -/
theorem Store.mem_of_read {i : Nat} {t : Store} {q : Bytes} (h : t.read i = some q) : (i, q) ∈ t := by
  induction t with
  | nil => simp [Store.read] at h
  | cons a t ih =>
    obtain ⟨j, p⟩ := a
    simp only [Store.read] at h
    split at h
    · rename_i hj; cases h; simp [hj]
    · exact List.mem_cons_of_mem _ (ih h)

/-- In canonical form what is listed is read. -/
theorem Store.read_of_mem {i : Nat} {t : Store} {q : Bytes} (hw : t.wf = true) (h : (i, q) ∈ t) : t.read i = some q := by
  induction t with
  | nil => simp at h
  | cons a t ih =>
    obtain ⟨j, p⟩ := a
    simp only [List.mem_cons, Prod.mk.injEq] at h
    rcases h with ⟨rfl, rfl⟩ | h
    · simp [Store.read]
    · have hr := ih (Store.wf_cons hw) h
      by_cases hj : j = i
      · exfalso
        cases t with
        | nil => simp at h
        | cons b u =>
          have hlt : j < b.1 := by simp only [Store.wf, Bool.and_eq_true, decide_eq_true_eq] at hw; exact hw.1
          rw [Store.read_below (Store.wf_cons hw) (by omega)] at hr
          simp at hr
      · simp [Store.read, hj, hr]

/-- The longest match is listed, is not empty and starts the rest. -/
theorem Store.longestMatch_sound {rest : Bytes} {t : Store} {q : Bytes} {c : Nat}
    (h : t.longestMatch rest = some (q, c)) : (c, q) ∈ t ∧ q ≠ [] ∧ q <+: rest := by
  induction t generalizing q c with
  | nil => simp [Store.longestMatch] at h
  | cons a t ih =>
    obtain ⟨j, p⟩ := a
    simp only [Store.longestMatch] at h
    split at h
    · rename_i hp
      have hp' : p ≠ [] ∧ p <+: rest := ⟨hp.1, List.isPrefixOf_iff_prefix.mp hp.2⟩
      split at h
      · cases h; exact ⟨by simp, hp'.1, hp'.2⟩
      · split at h
        · cases h; exact ⟨by simp, hp'.1, hp'.2⟩
        · rename_i b hb _
          cases h
          have := ih hb
          exact ⟨List.mem_cons_of_mem _ this.1, this.2⟩
    · have := ih h
      exact ⟨List.mem_cons_of_mem _ this.1, this.2⟩

/-- No listed key that starts the rest is longer than the longest match, and there is a match where there is such a
key. -/
theorem Store.longestMatch_max {rest : Bytes} {t : Store} {p : Bytes} {j : Nat}
    (hm : (j, p) ∈ t) (hp : p ≠ []) (hr : p <+: rest) :
    ∃ q c, t.longestMatch rest = some (q, c) ∧ p.length ≤ q.length := by
  induction t with
  | nil => simp at hm
  | cons a t ih =>
    obtain ⟨k, r⟩ := a
    simp only [List.mem_cons, Prod.mk.injEq] at hm
    simp only [Store.longestMatch]
    rcases hm with ⟨rfl, rfl⟩ | hm
    · rw [if_pos ⟨hp, List.isPrefixOf_iff_prefix.mpr hr⟩]
      split
      · exact ⟨_, _, rfl, Nat.le_refl _⟩
      · rename_i b _
        split
        · exact ⟨_, _, rfl, Nat.le_refl _⟩
        · exact ⟨b.1, b.2, rfl, by omega⟩
    · obtain ⟨q, c, hq, hl⟩ := ih hm
      rw [hq]
      split
      · simp only
        split
        · exact ⟨_, _, rfl, by omega⟩
        · exact ⟨_, _, rfl, hl⟩
      · exact ⟨_, _, rfl, hl⟩

end Sys2Proof.Machine
end

