-- ==== Sys2Proof/Laws/Invariant.lean ====
section
/-! SUPPORT. The seed dictionary and the start registers meet the invariants of 10_state.md section 5. -/
namespace Sys2Proof.Machine

/-- The seed dictionary holds the literals and nothing else (rules R48, R64, R67). -/
theorem Store.inv_seed : Store.seed.Inv 257 where
  canonical := Store.wf_seed
  assigned c := by
    rw [Store.read_seed]
    by_cases h : c < 256
    · simp [h]
    · simp only [h, if_false, ne_eq, not_true_eq_false, false_or, false_iff]; omega
  literal b := by simp [Store.read_seed, b.isLt]
  dynamic c q h hq := by
    rw [Store.read_seed, if_neg (by omega)] at hq
    cases hq

/-- No two literals have one codeword (rule R48). -/
theorem Store.seed_injective {c d : Nat} {q : Bytes} (hc : Store.seed.read c = some q) (hd : Store.seed.read d = some q) :
    c = d := by
  rw [Store.read_seed] at hc hd
  split at hc
  · split at hd
    · rename_i h1 h2
      have h := (Option.some.inj hc).trans (Option.some.inj hd).symm
      have h := congrArg BitVec.toNat (List.cons.inj h).1
      simp only [BitVec.toNat_ofNat] at h
      omega
    · cases hd
  · cases hc

/-- The start values meet the invariants (rules R46, R47, R52, R53). -/
theorem Common.inv_start (m : Mode) : (startCommon m).Inv where
  width := by simp [startCommon, Config.wMin]
  capacity := by simp [startCommon, Config.wMin, Config.lMin]
  seeded := by simp [startCommon, Config.firstDyn]
  bounded := by simp [startCommon, Config.firstDyn, Config.lMin]
  baseline h := by simp [startCommon] at h

/-- The Encoder's registers right after ENC.START (rule R52): the 9 bits of the tag are in the sink. -/
theorem EncRegs.inv_start (m : Mode) (inp : Bytes) :
    EncRegs.Inv { common := startCommon m, dict := Store.seed, inp := inp, pos := 0 } 9 where
  common := Common.inv_start m
  dict := Store.inv_seed
  keys _ _ _ := Store.seed_injective
  cursor := Nat.zero_le _
  grown h := by simp [startCommon, Config.firstDyn, Config.lMin] at h
  uncompressed := rfl
  compressed := rfl

/-- The Decoder's registers right after DEC.START (rule R53), for a stream that holds a tag. -/
theorem DecRegs.inv_start (m : Mode) (src : Bytes) (h : 9 ≤ (streamBits src).length) :
    DecRegs.Inv { common := startCommon m, table := Store.seed, val := none, readW := none, src := src, bitpos := 9 } 0 where
  common := Common.inv_start m
  table := Store.inv_seed
  grown _ := by simp [startCommon, Config.firstDyn, Config.lMin]
  consumed := h
  uncompressed := rfl

end Sys2Proof.Machine
end

