-- ==== Sys2Proof/Laws/Run.lean ====
section
/-! SUPPORT. How operations compose: where a sequence of operations goes on, ends or stops. -/
namespace Sys2Proof.Machine

@[simp] theorem Run.bind_go {α β : Type} (a : α) (s : State) (k : α → State → Run β) : (Run.go a s).bind k = k a s := rfl
@[simp] theorem Run.bind_ended {α β : Type} (s : State) (k : α → State → Run β) : (Run.ended s : Run α).bind k = .ended s := rfl
@[simp] theorem Run.bind_fault {α β : Type} (f : Fault) (k : α → State → Run β) : (Run.fault f : Run α).bind k = .fault f := rfl
@[simp] theorem Run.bind_refused {α β : Type} (r : Refusal) (k : α → State → Run β) : (Run.refused r : Run α).bind k = .refused r := rfl

theorem Run.bind_assoc {α β γ : Type} (m : Run α) (k : α → State → Run β) (l : β → State → Run γ) :
    (m.bind k).bind l = m.bind fun a s => (k a s).bind l := by
  cases m <;> rfl

/-- A sequence goes on exactly where both parts do. -/
theorem Run.bind_eq_go {α β : Type} {m : Run α} {k : α → State → Run β} {b : β} {t : State} :
    m.bind k = .go b t ↔ ∃ a s, m = .go a s ∧ k a s = .go b t := by
  cases m <;> simp

/-- A sequence ends the step where its first part does, or where it goes on and the second part does. -/
theorem Run.bind_eq_ended {α β : Type} {m : Run α} {k : α → State → Run β} {t : State} :
    m.bind k = .ended t ↔ m = .ended t ∨ ∃ a s, m = .go a s ∧ k a s = .ended t := by
  cases m <;> simp

@[simp] theorem Run.outcome_go {α : Type} (a : α) (s : State) : (Run.go a s).outcome = .next s := rfl
@[simp] theorem Run.outcome_ended {α : Type} (s : State) : (Run.ended s : Run α).outcome = .next s := rfl
@[simp] theorem Run.outcome_fault {α : Type} (f : Fault) : (Run.fault f : Run α).outcome = .fault f := rfl
@[simp] theorem Run.outcome_refused {α : Type} (r : Refusal) : (Run.refused r : Run α).outcome = .refused r := rfl

/-- An operation answers a next state where it goes on or ends. -/
theorem Run.outcome_eq_next {α : Type} {m : Run α} {t : State} :
    m.outcome = .next t ↔ (∃ a, m = .go a t) ∨ m = .ended t := by
  cases m <;> simp [Run.outcome]

@[simp] theorem Run.outcomeRet_go {α : Type} (a : α) (s : State) (f : α → Ret) : (Run.go a s).outcomeRet f = .next { s with ret := f a } := rfl
@[simp] theorem Run.outcomeRet_ended {α : Type} (s : State) (f : α → Ret) : (Run.ended s : Run α).outcomeRet f = .next s := rfl
@[simp] theorem Run.outcomeRet_fault {α : Type} (e : Fault) (f : α → Ret) : (Run.fault e : Run α).outcomeRet f = .fault e := rfl
@[simp] theorem Run.outcomeRet_refused {α : Type} (r : Refusal) (f : α → Ret) : (Run.refused r : Run α).outcomeRet f = .refused r := rfl

theorem Run.outcomeRet_eq_next {α : Type} {m : Run α} {f : α → Ret} {t : State} :
    m.outcomeRet f = .next t ↔ (∃ a s, m = .go a s ∧ t = { s with ret := f a }) ∨ m = .ended t := by
  cases m <;> simp [Run.outcomeRet, eq_comm]

@[simp] theorem whenEnabled_true {α : Type} (k : Run α) : whenEnabled true k = k := rfl
@[simp] theorem whenEnabled_false {α : Type} (k : Run α) : whenEnabled false k = .fault .notEnabled := rfl

/-- An operation that is not enabled does not go on. -/
theorem whenEnabled_eq_go {α : Type} {b : Bool} {k : Run α} {a : α} {t : State} :
    whenEnabled b k = .go a t ↔ b = true ∧ k = .go a t := by
  cases b <;> simp

theorem whenEnabled_eq_ended {α : Type} {b : Bool} {k : Run α} {t : State} :
    whenEnabled b k = .ended t ↔ b = true ∧ k = .ended t := by
  cases b <;> simp

end Sys2Proof.Machine
end

