-- ==== Sys2Proof/Laws/State.lean ====
section
/-! SUPPORT. What each update of the state does to each field. -/
namespace Sys2Proof.Machine

@[simp] theorem State.setEnc_regs (r : EncRegs) (s : State) : (s.setEnc r).enc.regs = some r := rfl
@[simp] theorem State.setEnc_phase (r : EncRegs) (s : State) : (s.setEnc r).enc.phase = s.enc.phase := rfl
@[simp] theorem State.setEnc_fault (r : EncRegs) (s : State) : (s.setEnc r).enc.fault = s.enc.fault := rfl
@[simp] theorem State.setEnc_info (r : EncRegs) (s : State) : (s.setEnc r).enc.info = s.enc.info := rfl
@[simp] theorem State.setEnc_out (r : EncRegs) (s : State) : (s.setEnc r).enc.out = s.enc.out := rfl
@[simp] theorem State.setEnc_dec (r : EncRegs) (s : State) : (s.setEnc r).dec = s.dec := rfl
@[simp] theorem State.setEnc_byteSource (r : EncRegs) (s : State) : (s.setEnc r).byteSource = s.byteSource := rfl
@[simp] theorem State.setEnc_bitSource (r : EncRegs) (s : State) : (s.setEnc r).bitSource = s.bitSource := rfl
@[simp] theorem State.setEnc_host (r : EncRegs) (s : State) : (s.setEnc r).host = s.host := rfl
@[simp] theorem State.setEnc_ret (r : EncRegs) (s : State) : (s.setEnc r).ret = s.ret := rfl
@[simp] theorem State.setEnc_params (r : EncRegs) (s : State) : (s.setEnc r).params = s.params := rfl
@[simp] theorem State.setEnc_setEnc (r q : EncRegs) (s : State) : (s.setEnc r).setEnc q = s.setEnc q := rfl

@[simp] theorem State.setDec_regs (r : DecRegs) (s : State) : (s.setDec r).dec.regs = some r := rfl
@[simp] theorem State.setDec_phase (r : DecRegs) (s : State) : (s.setDec r).dec.phase = s.dec.phase := rfl
@[simp] theorem State.setDec_fault (r : DecRegs) (s : State) : (s.setDec r).dec.fault = s.dec.fault := rfl
@[simp] theorem State.setDec_info (r : DecRegs) (s : State) : (s.setDec r).dec.info = s.dec.info := rfl
@[simp] theorem State.setDec_out (r : DecRegs) (s : State) : (s.setDec r).dec.out = s.dec.out := rfl
@[simp] theorem State.setDec_enc (r : DecRegs) (s : State) : (s.setDec r).enc = s.enc := rfl
@[simp] theorem State.setDec_byteSource (r : DecRegs) (s : State) : (s.setDec r).byteSource = s.byteSource := rfl
@[simp] theorem State.setDec_bitSource (r : DecRegs) (s : State) : (s.setDec r).bitSource = s.bitSource := rfl
@[simp] theorem State.setDec_host (r : DecRegs) (s : State) : (s.setDec r).host = s.host := rfl
@[simp] theorem State.setDec_ret (r : DecRegs) (s : State) : (s.setDec r).ret = s.ret := rfl
@[simp] theorem State.setDec_params (r : DecRegs) (s : State) : (s.setDec r).params = s.params := rfl
@[simp] theorem State.setDec_setDec (r q : DecRegs) (s : State) : (s.setDec r).setDec q = s.setDec q := rfl

@[simp] theorem State.raise_enc_phase (c : FaultCode) (i : Option Nat) (s : State) : (s.raise .enc c i).enc.phase = .fault := rfl
@[simp] theorem State.raise_enc_fault (c : FaultCode) (i : Option Nat) (s : State) : (s.raise .enc c i).enc.fault = c := rfl
@[simp] theorem State.raise_enc_info (c : FaultCode) (i : Option Nat) (s : State) : (s.raise .enc c i).enc.info = i := rfl
@[simp] theorem State.raise_enc_regs (c : FaultCode) (i : Option Nat) (s : State) : (s.raise .enc c i).enc.regs = none := rfl
@[simp] theorem State.raise_enc_out (c : FaultCode) (i : Option Nat) (s : State) : (s.raise .enc c i).enc.out = s.enc.out := rfl
@[simp] theorem State.raise_enc_dec (c : FaultCode) (i : Option Nat) (s : State) : (s.raise .enc c i).dec = s.dec := rfl
@[simp] theorem State.raise_dec_phase (c : FaultCode) (i : Option Nat) (s : State) : (s.raise .dec c i).dec.phase = .fault := rfl
@[simp] theorem State.raise_dec_fault (c : FaultCode) (i : Option Nat) (s : State) : (s.raise .dec c i).dec.fault = c := rfl
@[simp] theorem State.raise_dec_info (c : FaultCode) (i : Option Nat) (s : State) : (s.raise .dec c i).dec.info = i := rfl
@[simp] theorem State.raise_dec_regs (c : FaultCode) (i : Option Nat) (s : State) : (s.raise .dec c i).dec.regs = none := rfl
@[simp] theorem State.raise_dec_out (c : FaultCode) (i : Option Nat) (s : State) : (s.raise .dec c i).dec.out = s.dec.out := rfl
@[simp] theorem State.raise_dec_enc (c : FaultCode) (i : Option Nat) (s : State) : (s.raise .dec c i).enc = s.enc := rfl
@[simp] theorem State.raise_byteSource (x : Engine) (c : FaultCode) (i : Option Nat) (s : State) : (s.raise x c i).byteSource = s.byteSource := by cases x <;> rfl
@[simp] theorem State.raise_bitSource (x : Engine) (c : FaultCode) (i : Option Nat) (s : State) : (s.raise x c i).bitSource = s.bitSource := by cases x <;> rfl
@[simp] theorem State.raise_host (x : Engine) (c : FaultCode) (i : Option Nat) (s : State) : (s.raise x c i).host = s.host := by cases x <;> rfl
@[simp] theorem State.raise_ret (x : Engine) (c : FaultCode) (i : Option Nat) (s : State) : (s.raise x c i).ret = s.ret := by cases x <;> rfl
@[simp] theorem State.raise_params (x : Engine) (c : FaultCode) (i : Option Nat) (s : State) : (s.raise x c i).params = s.params := by cases x <;> rfl

@[simp] theorem State.clearOut_enc_out (s : State) : (s.clearOut .enc).enc.out = some { bits := [], closed := false } := rfl
@[simp] theorem State.clearOut_enc_phase (s : State) : (s.clearOut .enc).enc.phase = s.enc.phase := rfl
@[simp] theorem State.clearOut_enc_fault (s : State) : (s.clearOut .enc).enc.fault = s.enc.fault := rfl
@[simp] theorem State.clearOut_enc_info (s : State) : (s.clearOut .enc).enc.info = s.enc.info := rfl
@[simp] theorem State.clearOut_enc_regs (s : State) : (s.clearOut .enc).enc.regs = s.enc.regs := rfl
@[simp] theorem State.clearOut_enc_dec (s : State) : (s.clearOut .enc).dec = s.dec := rfl
@[simp] theorem State.clearOut_enc_byteSource (s : State) : (s.clearOut .enc).byteSource = s.byteSource := rfl
@[simp] theorem State.clearOut_enc_bitSource (s : State) : (s.clearOut .enc).bitSource = s.bitSource := rfl
@[simp] theorem State.clearOut_enc_host (s : State) : (s.clearOut .enc).host = s.host := rfl
@[simp] theorem State.clearOut_enc_ret (s : State) : (s.clearOut .enc).ret = s.ret := rfl
@[simp] theorem State.clearOut_enc_params (s : State) : (s.clearOut .enc).params = s.params := rfl
@[simp] theorem State.keepOut_enc_out (s : State) :
    s.keepOut.enc.out = some { s.enc.out.getD { bits := [], closed := false } with closed := false } := rfl
@[simp] theorem State.keepOut_enc_phase (s : State) : s.keepOut.enc.phase = s.enc.phase := rfl
@[simp] theorem State.keepOut_enc_fault (s : State) : s.keepOut.enc.fault = s.enc.fault := rfl
@[simp] theorem State.keepOut_enc_info (s : State) : s.keepOut.enc.info = s.enc.info := rfl
@[simp] theorem State.keepOut_enc_regs (s : State) : s.keepOut.enc.regs = s.enc.regs := rfl
@[simp] theorem State.keepOut_dec (s : State) : s.keepOut.dec = s.dec := rfl
@[simp] theorem State.keepOut_byteSource (s : State) : s.keepOut.byteSource = s.byteSource := rfl
@[simp] theorem State.keepOut_bitSource (s : State) : s.keepOut.bitSource = s.bitSource := rfl
@[simp] theorem State.keepOut_host (s : State) : s.keepOut.host = s.host := rfl
@[simp] theorem State.keepOut_ret (s : State) : s.keepOut.ret = s.ret := rfl
@[simp] theorem State.keepOut_params (s : State) : s.keepOut.params = s.params := rfl
@[simp] theorem State.clearOut_dec_out (s : State) : (s.clearOut .dec).dec.out = some { bytes := [], closed := false } := rfl
@[simp] theorem State.clearOut_dec_phase (s : State) : (s.clearOut .dec).dec.phase = s.dec.phase := rfl
@[simp] theorem State.clearOut_dec_fault (s : State) : (s.clearOut .dec).dec.fault = s.dec.fault := rfl
@[simp] theorem State.clearOut_dec_info (s : State) : (s.clearOut .dec).dec.info = s.dec.info := rfl
@[simp] theorem State.clearOut_dec_regs (s : State) : (s.clearOut .dec).dec.regs = s.dec.regs := rfl
@[simp] theorem State.clearOut_dec_enc (s : State) : (s.clearOut .dec).enc = s.enc := rfl
@[simp] theorem State.clearOut_dec_byteSource (s : State) : (s.clearOut .dec).byteSource = s.byteSource := rfl
@[simp] theorem State.clearOut_dec_bitSource (s : State) : (s.clearOut .dec).bitSource = s.bitSource := rfl
@[simp] theorem State.clearOut_dec_host (s : State) : (s.clearOut .dec).host = s.host := rfl
@[simp] theorem State.clearOut_dec_ret (s : State) : (s.clearOut .dec).ret = s.ret := rfl
@[simp] theorem State.clearOut_dec_params (s : State) : (s.clearOut .dec).params = s.params := rfl

end Sys2Proof.Machine
end

