-- ==== Sys2Proof/Laws/Ops.lean ====
section
/-! SUPPORT. For each shared operation: what it does where its registers hold values, and everything it can do where
it goes on. -/
namespace Sys2Proof.Machine

/-! ### Registers -/

theorem readEnc_some {s : State} {r : EncRegs} (h : s.enc.regs = some r) : readEnc s = .go r s := by simp [readEnc, h]

theorem readDec_some {s : State} {r : DecRegs} (h : s.dec.regs = some r) : readDec s = .go r s := by simp [readDec, h]

theorem readEnc_eq_go {s t : State} {r : EncRegs} : readEnc s = .go r t ↔ s.enc.regs = some r ∧ t = s := by
  unfold readEnc; split <;> simp_all [eq_comm]

theorem readDec_eq_go {s t : State} {r : DecRegs} : readDec s = .go r t ↔ s.dec.regs = some r ∧ t = s := by
  unfold readDec; split <;> simp_all [eq_comm]

@[simp] theorem readEnc_ne_ended {s t : State} : readEnc s ≠ .ended t := by unfold readEnc; split <;> simp

@[simp] theorem readDec_ne_ended {s t : State} : readDec s ≠ .ended t := by unfold readDec; split <;> simp

@[simp] theorem readEnc_setEnc (r : EncRegs) (s : State) : readEnc (s.setEnc r) = .go r (s.setEnc r) := rfl

@[simp] theorem readDec_setDec (r : DecRegs) (s : State) : readDec (s.setDec r) = .go r (s.setDec r) := rfl

theorem readCommon_enc {s : State} {r : EncRegs} (h : s.enc.regs = some r) : readCommon .enc s = .go r.common s := by
  simp [readCommon, readEnc_some h]

theorem readCommon_dec {s : State} {r : DecRegs} (h : s.dec.regs = some r) : readCommon .dec s = .go r.common s := by
  simp [readCommon, readDec_some h]

theorem readCommon_eq_go {x : Engine} {s t : State} {c : Common} (h : readCommon x s = .go c t) : t = s := by
  cases x <;> simp only [readCommon, Run.bind_eq_go, readEnc_eq_go, readDec_eq_go] at h <;>
    obtain ⟨r, u, ⟨-, rfl⟩, h⟩ := h <;> cases h <;> rfl

theorem writeCommon_enc {s : State} {r : EncRegs} (h : s.enc.regs = some r) (c : Common) :
    writeCommon .enc c s = .go () (s.setEnc { r with common := c }) := by
  simp [writeCommon, readEnc_some h]

theorem writeCommon_dec {s : State} {r : DecRegs} (h : s.dec.regs = some r) (c : Common) :
    writeCommon .dec c s = .go () (s.setDec { r with common := c }) := by
  simp [writeCommon, readDec_some h]

/-! ### Streams -/

/-- PutBits on an open sink. -/
theorem putBits_open {s : State} {o : BitSink} {v n : Nat} (ho : s.enc.out = some o) (hc : o.closed = false)
    (hn : 1 ≤ n ∧ n ≤ 16) (hv : v < 2 ^ n) :
    putBits v n s = .go () { s with enc := { s.enc with out := some { o with bits := o.bits ++ natBits n v } } } := by
  simp [putBits, putBitsOk, hn, hv, ho, hc]

/-- Where PutBits goes on it appends the bits of the value and changes nothing else (rule R72). -/
theorem putBits_eq_go {s t : State} {v n : Nat} (h : putBits v n s = .go () t) :
    ∃ o, s.enc.out = some o ∧ o.closed = false ∧ (1 ≤ n ∧ n ≤ 16) ∧ v < 2 ^ n ∧
      t = { s with enc := { s.enc with out := some { o with bits := o.bits ++ natBits n v } } } := by
  simp only [putBits, putBitsOk] at h
  split at h
  · rename_i hok
    split at h
    · cases h
    · rename_i o ho
      split at h
      · cases h
      · rename_i hc
        cases h
        simp only [decide_eq_true_eq] at hok
        exact ⟨o, ho, by simpa using hc, ⟨hok.1, hok.2.1⟩, hok.2.2, rfl⟩
  · cases h

@[simp] theorem putBits_ne_ended {s t : State} {v n : Nat} : putBits v n s ≠ .ended t := by
  unfold putBits; split
  · split
    · simp
    · split <;> simp
  · simp

theorem writeBytes_open {s : State} {o : ByteSink} (q : Bytes) (ho : s.dec.out = some o) (hc : o.closed = false) :
    writeBytes q s = .go () { s with dec := { s.dec with out := some { o with bytes := o.bytes ++ q } } } := by
  simp [writeBytes, ho, hc]

/-- Where WriteBytes goes on it appends the bytes and changes nothing else (rule R76). -/
theorem writeBytes_eq_go {s t : State} {q : Bytes} (h : writeBytes q s = .go () t) :
    ∃ o, s.dec.out = some o ∧ o.closed = false ∧
      t = { s with dec := { s.dec with out := some { o with bytes := o.bytes ++ q } } } := by
  simp only [writeBytes] at h
  split at h
  · cases h
  · rename_i o ho
    split at h
    · cases h
    · rename_i hc; cases h; exact ⟨o, ho, by simpa using hc, rfl⟩

@[simp] theorem writeBytes_ne_ended {s t : State} {q : Bytes} : writeBytes q s ≠ .ended t := by
  unfold writeBytes; split
  · simp
  · split <;> simp

/-- GetBits where the registers hold values (rule R73). -/
theorem getBits_regs {s : State} {r : DecRegs} {n : Nat} (h : s.dec.regs = some r) (hn : 1 ≤ n ∧ n ≤ 16) :
    getBits n s = match peekBits r.src r.bitpos n with
      | none => .go none s
      | some v => .go (some v) (s.setDec { r with bitpos := r.bitpos + n }) := by
  cases hp : peekBits r.src r.bitpos n <;> simp [getBits, getBitsOk, hn, readDec_some h, hp]

/-- Reading the next codeword (rules R171, R175): `EndOfInput` and nothing consumed, or the unit taken whole. -/
theorem readUnit_regs {s : State} {r : DecRegs} (h : s.dec.regs = some r) (hW : 1 ≤ r.common.W ∧ r.common.W ≤ 16) :
    readUnit s = match peekBits r.src r.bitpos r.common.W with
      | none => .go none s
      | some v => .go (some v) (s.setDec (consumeUnit r.common.W r)) := by
  simp only [readUnit, readDec_some h, Run.bind_go, getBits_regs h hW]
  cases peekBits r.src r.bitpos r.common.W <;> simp

theorem presentUnit_regs {s : State} {r : DecRegs} (c : Nat) (h : s.dec.regs = some r) :
    presentUnit r.common.W c s = .go (some c) (s.setDec (consumeUnit r.common.W r)) := by
  simp [presentUnit, readDec_some h]

/-! ### Stores -/

/-- Holding a sequence changes nothing; it goes on exactly where the sequence is within `SEQ_MAX`. -/
theorem holdSeq_eq_go {q : Bytes} {s t : State} : holdSeq q s = .go () t ↔ seqFits s.params.seqMax q = true ∧ t = s := by
  by_cases h : seqFits s.params.seqMax q = true <;> simp [holdSeq, h, eq_comm]

theorem holdSeq_fits {q : Bytes} {s : State} (h : seqFits s.params.seqMax q = true) : holdSeq q s = .go () s :=
  holdSeq_eq_go.2 ⟨h, rfl⟩

theorem holdSeq_long {q : Bytes} {s : State} {n : Nat} (h : s.params.seqMax = some n) (hq : n < q.length) :
    holdSeq q s = .refused .seqTooLong := by
  simp [holdSeq, seqFits, h, Nat.not_le.mpr hq]

@[simp] theorem holdSeq_ne_ended {q : Bytes} {s t : State} : holdSeq q s ≠ .ended t := by unfold holdSeq; split <;> simp

theorem givenSeq_fits {α : Type} {q : Bytes} {k : State → Run α} {s : State} (h : seqFits s.params.seqMax q = true) :
    givenSeq q k s = k s := by
  simp [givenSeq, holdSeq_fits h]

theorem givenSeq_long {α : Type} {q : Bytes} {k : State → Run α} {s : State} {n : Nat} (h : s.params.seqMax = some n)
    (hq : n < q.length) : givenSeq q k s = .refused .seqTooLong := by
  simp [givenSeq, holdSeq_long h hq]

@[simp] theorem seqFits_none (q : Bytes) : seqFits none q = true := rfl

/-- Where ENC.LOOKUP goes on it returns the longest match of the remaining input, within `SEQ_MAX`, and changes nothing
(rules R12, R152). -/
theorem encLookup_eq_go {s t : State} {q : Bytes} {c : Nat} :
    encLookup s = .go (q, c) t ↔ t = s ∧ seqFits s.params.seqMax q = true ∧
      ∃ r, s.enc.regs = some r ∧ r.dict.longestMatch (r.inp.drop r.pos) = some (q, c) := by
  cases hr : s.enc.regs with
  | none => simp [encLookup, readEnc, hr]
  | some r =>
    simp only [encLookup, longestPrefix, readEnc_some hr, Run.bind_go]
    cases hm : r.dict.longestMatch (r.inp.drop r.pos) with
    | none => simp [hm]
    | some b =>
      by_cases hf : seqFits s.params.seqMax b.1 = true
      · simp only [Run.bind_go, holdSeq_fits hf, Run.go.injEq, Option.some.injEq, exists_eq_left', hm]
        constructor
        · rintro ⟨rfl, rfl⟩; exact ⟨rfl, hf, rfl⟩
        · rintro ⟨rfl, -, rfl⟩; exact ⟨rfl, rfl⟩
      · simp only [Run.bind_go, holdSeq, hf, Option.some.injEq, exists_eq_left', hm]
        constructor
        · intro h; cases h
        · rintro ⟨-, h, rfl⟩; exact absurd h hf

/-- Where LongestPrefix goes on it returns the longest match and changes nothing (rule R62). -/
theorem longestPrefix_eq_go {s t : State} {rest q : Bytes} {c : Nat} (h : longestPrefix rest s = .go (q, c) t) :
    t = s ∧ ∃ r, s.enc.regs = some r ∧ r.dict.longestMatch rest = some (q, c) := by
  simp only [longestPrefix, Run.bind_eq_go, readEnc_eq_go] at h
  obtain ⟨r, u, ⟨hr, rfl⟩, h⟩ := h
  split at h
  · rename_i b hb; cases h; exact ⟨rfl, r, hr, hb⟩
  · cases h

/-- Where DictInsert goes on the key and the codeword were new, and the pair is added (rule R63). -/
theorem dictInsert_eq_go {s t : State} {key : Bytes} {code : Nat} (h : dictInsert key code s = .go () t) :
    ∃ r, s.enc.regs = some r ∧ key ≠ [] ∧ code < Config.ceiling ∧ r.dict.codeOf key = none ∧ r.dict.read code = none ∧
      t = s.setEnc { r with dict := r.dict.write code key } := by
  simp only [dictInsert, Run.bind_eq_go, readEnc_eq_go] at h
  obtain ⟨r, u, ⟨hr, rfl⟩, h⟩ := h
  split at h
  · cases h
  · rename_i hn
    simp only [not_or, not_le, not_not] at hn
    simp only [Run.bind_eq_go, holdSeq] at h
    obtain ⟨_, v, hv, h⟩ := h
    split at hv
    · cases hv; cases h; exact ⟨r, hr, hn.1, hn.2.1, hn.2.2.1, hn.2.2.2, rfl⟩
    · cases hv

/-- Where TableRead goes on it returns the sequence of the index and changes nothing (rule R65). -/
theorem tableRead_eq_go {s t : State} {i : Nat} {q : Bytes} (h : tableRead i s = .go q t) :
    t = s ∧ i < Config.ceiling ∧ ∃ r, s.dec.regs = some r ∧ r.table.read i = some q := by
  simp only [tableRead] at h
  split at h
  · cases h
  · rename_i hi
    simp only [Run.bind_eq_go, readDec_eq_go] at h
    obtain ⟨r, u, ⟨hr, rfl⟩, h⟩ := h
    split at h
    · rename_i p hp; cases h; exact ⟨rfl, by omega, r, hr, hp⟩
    · cases h

/-- Where TableWrite goes on the sequence stands at the index (rule R66). -/
theorem tableWrite_eq_go {s t : State} {i : Nat} {q : Bytes} (h : tableWrite i q s = .go () t) :
    ∃ r, s.dec.regs = some r ∧ i < Config.ceiling ∧ q ≠ [] ∧ t = s.setDec { r with table := r.table.write i q } := by
  simp only [tableWrite] at h
  split at h
  · cases h
  · rename_i hn
    simp only [not_or, not_le] at hn
    simp only [Run.bind_eq_go, readDec_eq_go, holdSeq] at h
    obtain ⟨r, u, ⟨hr, rfl⟩, _, v, hv, h⟩ := h
    split at hv
    · cases hv; cases h; exact ⟨r, hr, hn.1, hn.2, rfl⟩
    · cases hv

/-! ### Width Controller and Reset Policy -/

/-- The counters of an engine whose counters are unbounded (rule R131). -/
theorem accountBits_enc {s : State} {r : EncRegs} (u c : Nat) (h : s.enc.regs = some r) (hp : s.params.cntW = none) :
    accountBits .enc u c s =
      .go () (s.setEnc { r with common := { r.common with U := r.common.U + u, C := r.common.C + c } }) := by
  simp [accountBits, readCommon_enc h, writeCommon_enc h, counterOverflows, hp]

theorem accountBits_dec {s : State} {r : DecRegs} (u c : Nat) (h : s.dec.regs = some r) (hp : s.params.cntW = none) :
    accountBits .dec u c s =
      .go () (s.setDec { r with common := { r.common with U := r.common.U + u, C := r.common.C + c } }) := by
  simp [accountBits, readCommon_dec h, writeCommon_dec h, counterOverflows, hp]

/-- Below saturation RP.EVAL changes nothing and returns false (rule R134). -/
theorem evalPolicy_unsaturated (t : RatioTest) {c : Common} (h : c.count ≠ Config.ceiling) :
    evalPolicy t c = some (false, c) := by
  simp [evalPolicy, saturated, h]

theorem resetDict_enc {s : State} {r : EncRegs} (h : s.enc.regs = some r) :
    resetDict .enc s = .go () (s.setEnc { r with
      dict := Store.seed, common := initWidth { r.common with count := Config.firstDyn } }) := by
  simp [resetDict, dictSeed, readEnc_some h, readCommon, writeCommon]

theorem resetDict_dec {s : State} {r : DecRegs} (h : s.dec.regs = some r) :
    resetDict .dec s = .go () (s.setDec { r with
      table := Store.seed, common := initWidth { r.common with count := Config.firstDyn } }) := by
  simp [resetDict, tableSeed, readDec_some h, readCommon, writeCommon]

/-- Below saturation ENC.POLICY does nothing (rule R154). -/
theorem applyPolicy_enc_unsaturated {s : State} {r : EncRegs} (h : s.enc.regs = some r)
    (hc : r.common.count ≠ Config.ceiling) : applyPolicy .enc s = .go () (s.setEnc r) := by
  simp [applyPolicy, runEval, readCommon_enc h, evalPolicy_unsaturated _ hc, writeCommon_enc h]

theorem applyPolicy_dec_unsaturated {s : State} {r : DecRegs} (h : s.dec.regs = some r)
    (hc : r.common.count ≠ Config.ceiling) : applyPolicy .dec s = .go () (s.setDec r) := by
  simp [applyPolicy, runEval, readCommon_dec h, evalPolicy_unsaturated _ hc, writeCommon_dec h]

end Sys2Proof.Machine
end

