-- ==== Sys2Proof/Laws/Memory.lean ====
section
/-! SUPPORT. Every operation on a store keeps the canonical form of both stores. -/
namespace Sys2Proof.Machine

@[simp] theorem Memory.wf_reset : Memory.wf State.reset = true := rfl

theorem Memory.wf_setEnc {s : State} {r : EncRegs} (h : Memory.wf s = true) (hr : r.dict.wf = true) :
    Memory.wf (s.setEnc r) = true := by
  simp only [Memory.wf, Bool.and_eq_true, State.setEnc_regs, State.setEnc_dec] at h ⊢
  exact ⟨hr, h.2⟩

theorem Memory.wf_setDec {s : State} {r : DecRegs} (h : Memory.wf s = true) (hr : r.table.wf = true) :
    Memory.wf (s.setDec r) = true := by
  simp only [Memory.wf, Bool.and_eq_true, State.setDec_regs, State.setDec_enc] at h ⊢
  exact ⟨h.1, hr⟩

theorem Memory.wf_enc {s : State} {r : EncRegs} (h : Memory.wf s = true) (hr : s.enc.regs = some r) :
    r.dict.wf = true := by
  simp only [Memory.wf, hr, Bool.and_eq_true] at h; exact h.1

theorem Memory.wf_dec {s : State} {r : DecRegs} (h : Memory.wf s = true) (hr : s.dec.regs = some r) :
    r.table.wf = true := by
  simp only [Memory.wf, hr, Bool.and_eq_true] at h; exact h.2

/-- DictInsert keeps the canonical form. -/
theorem Memory.wf_dictInsert {s t : State} {key : Bytes} {code : Nat} (h : Memory.wf s = true)
    (hi : dictInsert key code s = .go () t) : Memory.wf t = true := by
  obtain ⟨r, hr, -, -, -, -, rfl⟩ := dictInsert_eq_go hi
  exact Memory.wf_setEnc h (Store.wf_write _ _ (Memory.wf_enc h hr))

/-- DictSeed keeps the canonical form. -/
theorem Memory.wf_dictSeed {s t : State} (h : Memory.wf s = true) (hi : dictSeed s = .go () t) : Memory.wf t = true := by
  simp only [dictSeed, Run.bind_eq_go, readEnc_eq_go] at hi
  obtain ⟨r, u, ⟨hr, rfl⟩, hi⟩ := hi
  cases hi
  exact Memory.wf_setEnc h Store.wf_seed

/-- TableWrite keeps the canonical form. -/
theorem Memory.wf_tableWrite {s t : State} {i : Nat} {q : Bytes} (h : Memory.wf s = true)
    (hi : tableWrite i q s = .go () t) : Memory.wf t = true := by
  obtain ⟨r, hr, -, -, rfl⟩ := tableWrite_eq_go hi
  exact Memory.wf_setDec h (Store.wf_write _ _ (Memory.wf_dec h hr))

/-- TableSeed keeps the canonical form. -/
theorem Memory.wf_tableSeed {s t : State} (h : Memory.wf s = true) (hi : tableSeed s = .go () t) : Memory.wf t = true := by
  simp only [tableSeed, Run.bind_eq_go, readDec_eq_go] at hi
  obtain ⟨r, u, ⟨hr, rfl⟩, hi⟩ := hi
  cases hi
  exact Memory.wf_setDec h Store.wf_seed

end Sys2Proof.Machine
end

