-- ==== Sys2Proof/Laws/PerInstr.lean ====
section
/-! SUPPORT. Facts about each instruction as text: the encoded unit has as many bits as its kind has. -/
namespace Sys2Proof.Laws.EncodedWidth

/-- The bits of an instruction's encoding are as many as its kind of unit has (rules R91, R92, R104). -/
def Statement (i : Instr) : Prop := ∀ f bits, encode i = some (f, bits) → bits.length = frameWidth f

theorem of_unitBits {f g : Frame} {v : Nat} {bits : Bits} (h : unitBits f v = some (g, bits)) :
    bits.length = frameWidth g := by
  cases h; simp

theorem compressN : Statement (.compressN) := fun _ _ h => of_unitBits h
theorem compressR : Statement (.compressR) := fun _ _ h => of_unitBits h
theorem compressM : Statement (.compressM) := fun _ _ h => of_unitBits h
theorem expand : Statement (.expand) := fun _ _ h => of_unitBits h
theorem illegalCmd000 : Statement (.illegalCmd000) := fun _ _ h => of_unitBits h
theorem illegalCmd101 : Statement (.illegalCmd101) := fun _ _ h => of_unitBits h
theorem illegalCmd110 : Statement (.illegalCmd110) := fun _ _ h => of_unitBits h
theorem illegalCmd111 : Statement (.illegalCmd111) := fun _ _ h => of_unitBits h
theorem tagNone : Statement (.tagNone) := fun _ _ h => of_unitBits h
theorem tagFullReset : Statement (.tagFullReset) := fun _ _ h => of_unitBits h
theorem tagRatioMonitored : Statement (.tagRatioMonitored) := fun _ _ h => of_unitBits h
theorem tagIllegal (t : BitVec 9) : Statement (.tagIllegal t) := fun _ _ h => of_unitBits h
theorem litW9 (b : Byte) : Statement (.litW9 b) := fun _ _ h => of_unitBits h
theorem eofW9 : Statement (.eofW9) := fun _ _ h => of_unitBits h
theorem dynW9 (c : BitVec 9) : Statement (.dynW9 c) := fun _ _ h => of_unitBits h
theorem litW10 (b : Byte) : Statement (.litW10 b) := fun _ _ h => of_unitBits h
theorem eofW10 : Statement (.eofW10) := fun _ _ h => of_unitBits h
theorem dynW10 (c : BitVec 10) : Statement (.dynW10 c) := fun _ _ h => of_unitBits h
theorem litW11 (b : Byte) : Statement (.litW11 b) := fun _ _ h => of_unitBits h
theorem eofW11 : Statement (.eofW11) := fun _ _ h => of_unitBits h
theorem dynW11 (c : BitVec 11) : Statement (.dynW11 c) := fun _ _ h => of_unitBits h
theorem litW12 (b : Byte) : Statement (.litW12 b) := fun _ _ h => of_unitBits h
theorem eofW12 : Statement (.eofW12) := fun _ _ h => of_unitBits h
theorem dynW12 (c : BitVec 12) : Statement (.dynW12 c) := fun _ _ h => of_unitBits h
theorem litW13 (b : Byte) : Statement (.litW13 b) := fun _ _ h => of_unitBits h
theorem eofW13 : Statement (.eofW13) := fun _ _ h => of_unitBits h
theorem dynW13 (c : BitVec 13) : Statement (.dynW13 c) := fun _ _ h => of_unitBits h
theorem litW14 (b : Byte) : Statement (.litW14 b) := fun _ _ h => of_unitBits h
theorem eofW14 : Statement (.eofW14) := fun _ _ h => of_unitBits h
theorem dynW14 (c : BitVec 14) : Statement (.dynW14 c) := fun _ _ h => of_unitBits h
theorem litW15 (b : Byte) : Statement (.litW15 b) := fun _ _ h => of_unitBits h
theorem eofW15 : Statement (.eofW15) := fun _ _ h => of_unitBits h
theorem dynW15 (c : BitVec 15) : Statement (.dynW15 c) := fun _ _ h => of_unitBits h
theorem litW16 (b : Byte) : Statement (.litW16 b) := fun _ _ h => of_unitBits h
theorem eofW16 : Statement (.eofW16) := fun _ _ h => of_unitBits h
theorem dynW16 (c : BitVec 16) : Statement (.dynW16 c) := fun _ _ h => of_unitBits h
theorem dynRef (c : BitVec 16) : Statement (.dynRef c) := fun _ _ h => nomatch h
theorem dynKwkwk (c : BitVec 16) : Statement (.dynKwkwk c) := fun _ _ h => nomatch h
theorem dynInvalid (c : BitVec 16) : Statement (.dynInvalid c) := fun _ _ h => nomatch h
theorem encStart (m : BitVec 2) : Statement (.encStart m) := fun _ _ h => nomatch h
theorem encStep : Statement (.encStep) := fun _ _ h => nomatch h
theorem encLookup : Statement (.encLookup) := fun _ _ h => nomatch h
theorem encEmit (q : Bytes) (c : Nat) : Statement (.encEmit q c) := fun _ _ h => nomatch h
theorem encPolicy : Statement (.encPolicy) := fun _ _ h => nomatch h
theorem encInsert (q : Bytes) : Statement (.encInsert q) := fun _ _ h => nomatch h
theorem encGrow : Statement (.encGrow) := fun _ _ h => nomatch h
theorem encAdvance (q : Bytes) : Statement (.encAdvance q) := fun _ _ h => nomatch h
theorem encFinish : Statement (.encFinish) := fun _ _ h => nomatch h
theorem decStart (low : BitVec 2) : Statement (.decStart low) := fun _ _ h => nomatch h
theorem decFirst : Statement (.decFirst) := fun _ _ h => nomatch h
theorem decStep : Statement (.decStep) := fun _ _ h => nomatch h
theorem decOutput : Statement (.decOutput) := fun _ _ h => nomatch h
theorem decPolicy : Statement (.decPolicy) := fun _ _ h => nomatch h
theorem decRead : Statement (.decRead) := fun _ _ h => nomatch h
theorem decResolve (cw : Nat) : Statement (.decResolve cw) := fun _ _ h => nomatch h
theorem decInsert (q : Bytes) : Statement (.decInsert q) := fun _ _ h => nomatch h
theorem decGrow : Statement (.decGrow) := fun _ _ h => nomatch h
theorem decAdvance (q : Bytes) : Statement (.decAdvance q) := fun _ _ h => nomatch h
theorem decFinish : Statement (.decFinish) := fun _ _ h => nomatch h
theorem wcInit (x : Engine) : Statement (.wcInit x) := fun _ _ h => nomatch h
theorem wcReached (x : Engine) : Statement (.wcReached x) := fun _ _ h => nomatch h
theorem wcGrow (x : Engine) : Statement (.wcGrow x) := fun _ _ h => nomatch h
theorem rpSaturated (x : Engine) : Statement (.rpSaturated x) := fun _ _ h => nomatch h
theorem rpAccount (x : Engine) (ubits : Nat) (cbits : Nat) : Statement (.rpAccount x ubits cbits) := fun _ _ h => nomatch h
theorem rpEval (x : Engine) : Statement (.rpEval x) := fun _ _ h => nomatch h
theorem rpEvalNone (x : Engine) : Statement (.rpEvalNone x) := fun _ _ h => nomatch h
theorem rpEvalFullReset (x : Engine) : Statement (.rpEvalFullReset x) := fun _ _ h => nomatch h
theorem rpEvalRatioBaseline (x : Engine) : Statement (.rpEvalRatioBaseline x) := fun _ _ h => nomatch h
theorem rpEvalRatioCompare (x : Engine) : Statement (.rpEvalRatioCompare x) := fun _ _ h => nomatch h
theorem dictReset (x : Engine) : Statement (.dictReset x) := fun _ _ h => nomatch h
theorem putBits (v : Nat) (n : Nat) : Statement (.putBits v n) := fun _ _ h => nomatch h
theorem getBits (n : Nat) : Statement (.getBits n) := fun _ _ h => nomatch h
theorem close (x : Engine) : Statement (.close x) := fun _ _ h => nomatch h
theorem writeBytes (q : Bytes) : Statement (.writeBytes q) := fun _ _ h => nomatch h
theorem readAllBytes : Statement (.readAllBytes) := fun _ _ h => nomatch h
theorem longestPrefix (rest : Bytes) : Statement (.longestPrefix rest) := fun _ _ h => nomatch h
theorem dictInsert (key : Bytes) (code : Nat) : Statement (.dictInsert key code) := fun _ _ h => nomatch h
theorem dictSeed : Statement (.dictSeed) := fun _ _ h => nomatch h
theorem tableRead (i : Nat) : Statement (.tableRead i) := fun _ _ h => nomatch h
theorem tableWrite (i : Nat) (q : Bytes) : Statement (.tableWrite i q) := fun _ _ h => nomatch h
theorem tableSeed : Statement (.tableSeed) := fun _ _ h => nomatch h

end Sys2Proof.Laws.EncodedWidth
end

