-- ==== Sys2Proof/Tests/Slice0.lean ====
section
/-! SUPPORT. The model's own tests: an ill-formed term for each check of WellFormed, units written out bit by bit from the
spec's encodings, the spec's vectors (95_test_vectors.md) one step each, and for each statement with hypotheses a witness
that meets them. -/
namespace Sys2Proof.Tests
open Sys2Proof.Machine

/-! ### Small states -/

/-- The state an outcome goes on in. -/
def nextOf (o : Host.Outcome State Fault Refusal) : Option State :=
  match o with
  | .next s => some s
  | .fault _ => none
  | .refused _ => none

/-- The reason an outcome stops for. -/
def faultOf (o : Host.Outcome State Fault Refusal) : Option Fault :=
  match o with
  | .next _ => none
  | .fault f => some f
  | .refused _ => none

/-- The refusal an outcome ends in. -/
def refusalOf (o : Host.Outcome State Fault Refusal) : Option Refusal :=
  match o with
  | .next _ => none
  | .fault _ => none
  | .refused r => some r

/-- `s` where no sequence may be longer than `n` bytes. -/
def within (n : Nat) (s : State) : State := { s with params := { Config.defaults with seqMax := some n } }

/-- `s` with counters of `n` bits. -/
def counting (n : Nat) (s : State) : State := { s with params := { Config.defaults with cntW := some n } }

/-- Width and policy registers with `n` slots at width `w`. -/
def regs (m : Mode) (n w : Nat) : Common :=
  { mode := m, W := w, L := 2 ^ w, count := n, U := 0, C := 0, oldRatio := none, newRatio := none, ratioSet := false }

/-- Mode 3 with a baseline. -/
def monitored (n : Nat) (base : Snapshot) (u c : Nat) : Common :=
  { mode := .ratioMonitored, W := 16, L := 65536, count := n, U := u, C := c, oldRatio := some base, newRatio := none, ratioSet := true }

/-- A few literals, for `A` and `B`. -/
def few : Store := [(65, [65]), (66, [66])]

def encRegs (c : Common) (d : Store) (inp : Bytes) (pos : Nat) : EncRegs := { common := c, dict := d, inp := inp, pos := pos }

def encIn (r : EncRegs) : State :=
  { State.reset with
    enc := { phase := .step, fault := .none, info := none, regs := some r, out := some { bits := [], closed := false } } }

def decRegs (c : Common) (t : Store) (v : Option Bytes) (src : Bytes) (bitpos : Nat) : DecRegs :=
  { common := c, table := t, val := v, readW := some 9, src := src, bitpos := bitpos }

def decIn (p : DecPhase) (r : DecRegs) : State :=
  { State.reset with
    dec := { phase := p, fault := .none, info := none, regs := some r, out := some { bytes := [], closed := false } } }

theorem encReady (r : EncRegs) : EncReady (encIn r) r { bits := [], closed := false } := ⟨rfl, rfl, rfl, rfl, rfl, rfl⟩

theorem firstReady (r : DecRegs) : FirstReady (decIn .first r) r { bytes := [], closed := false } := ⟨rfl, rfl, rfl⟩

theorem loopReady (c : Common) (t : Store) (v src : Bytes) (n : Nat) :
    LoopReady (decIn .loop (decRegs c t (some v) src n)) (decRegs c t (some v) src n) { bytes := [], closed := false } v :=
  ⟨rfl, rfl, rfl, rfl, rfl, ⟨rfl, rfl⟩, rfl⟩

/-! ### WellFormed: an ill-formed term for each check -/

theorem test_illformed_tagIllegal : (.tagIllegal 2 : Instr).wellFormed = false := by decide -- R101: 2 is a legal tag
theorem test_illformed_dynW9 : (.dynW9 256 : Instr).wellFormed = false := by decide -- R96: 256 is the EOF codeword
theorem test_illformed_dynW10 : (.dynW10 256 : Instr).wellFormed = false := by decide -- R96: 256 is the EOF codeword
theorem test_illformed_dynW11 : (.dynW11 256 : Instr).wellFormed = false := by decide -- R96: 256 is the EOF codeword
theorem test_illformed_dynW12 : (.dynW12 256 : Instr).wellFormed = false := by decide -- R96: 256 is the EOF codeword
theorem test_illformed_dynW13 : (.dynW13 256 : Instr).wellFormed = false := by decide -- R96: 256 is the EOF codeword
theorem test_illformed_dynW14 : (.dynW14 256 : Instr).wellFormed = false := by decide -- R96: 256 is the EOF codeword
theorem test_illformed_dynW15 : (.dynW15 256 : Instr).wellFormed = false := by decide -- R96: 256 is the EOF codeword
theorem test_illformed_dynW16 : (.dynW16 256 : Instr).wellFormed = false := by decide -- R96: 256 is the EOF codeword
theorem test_illformed_dynRef : (.dynRef 255 : Instr).wellFormed = false := by decide -- R97: 255 is a literal
theorem test_illformed_dynKwkwk : (.dynKwkwk 255 : Instr).wellFormed = false := by decide -- R97: 255 is a literal
theorem test_illformed_dynInvalid : (.dynInvalid 255 : Instr).wellFormed = false := by decide -- R97: 255 is a literal
theorem test_illformed_encEmit : (.encEmit [] 65 : Instr).wellFormed = false := by decide -- R153
theorem test_illformed_encEmit_eof : (.encEmit [65] 256 : Instr).wellFormed = false := by decide -- R98
theorem test_illformed_encInsert : (.encInsert [] : Instr).wellFormed = false := by decide -- R155
theorem test_illformed_encAdvance : (.encAdvance [] : Instr).wellFormed = false := by decide -- R157
theorem test_illformed_decResolve : (.decResolve 256 : Instr).wellFormed = false := by decide -- R176
theorem test_illformed_decInsert : (.decInsert [] : Instr).wellFormed = false := by decide -- R177
theorem test_illformed_decAdvance : (.decAdvance [] : Instr).wellFormed = false := by decide -- R179
theorem test_illformed_rpAccount : (.rpAccount .enc 8 17 : Instr).wellFormed = false := by decide -- R131: at most 16 bits
theorem test_illformed_putBits : (.putBits 512 9 : Instr).wellFormed = false := by decide -- R72: 512 has 10 bits
theorem test_illformed_putBits_width : (.putBits 0 17 : Instr).wellFormed = false := by decide -- R72
theorem test_illformed_getBits : (.getBits 0 : Instr).wellFormed = false := by decide -- R73
theorem test_illformed_longestPrefix : (.longestPrefix [] : Instr).wellFormed = false := by decide -- R62
theorem test_illformed_dictInsert : (.dictInsert [65, 66] 65536 : Instr).wellFormed = false := by decide -- R60
theorem test_illformed_tableRead : (.tableRead 65536 : Instr).wellFormed = false := by decide -- R65
theorem test_illformed_tableWrite : (.tableWrite 257 [] : Instr).wellFormed = false := by decide -- R66

theorem test_wellformed_edges : (Instr.dynW9 257).wellFormed = true ∧ (Instr.tagIllegal 511).wellFormed = true ∧
    (Instr.putBits 65535 16).wellFormed = true ∧ (Instr.tableRead 65535).wellFormed = true := by decide

/-! ### Decoding: units written out from rules R91, R99, R101, R104, R105, the bit sent first on the left -/

theorem test_decode_compressN : decode .command [false, false, true] = .ok (.compressN, []) := rfl -- 0b001
theorem test_decode_compressR : decode .command [false, true, false] = .ok (.compressR, []) := rfl -- 0b010
theorem test_decode_compressM : decode .command [false, true, true] = .ok (.compressM, []) := rfl -- 0b011
theorem test_decode_expand : decode .command [true, false, false] = .ok (.expand, []) := rfl -- 0b100
theorem test_decode_illegalCmd000 : decode .command [false, false, false] = .ok (.illegalCmd000, []) := rfl -- 0b000
theorem test_decode_illegalCmd101 : decode .command [true, false, true] = .ok (.illegalCmd101, []) := rfl -- 0b101
theorem test_decode_illegalCmd110 : decode .command [true, true, false] = .ok (.illegalCmd110, []) := rfl -- 0b110
theorem test_decode_illegalCmd111 : decode .command [true, true, true] = .ok (.illegalCmd111, []) := rfl -- 0b111
theorem test_decode_tagNone : decode .header [false, false, false, false, false, false, false, false, true] = .ok (.tagNone, []) := rfl -- 0b000000001
theorem test_decode_tagFullReset : decode .header [false, false, false, false, false, false, false, true, false] = .ok (.tagFullReset, []) := rfl -- 0b000000010
theorem test_decode_tagRatioMonitored : decode .header [false, false, false, false, false, false, false, true, true] = .ok (.tagRatioMonitored, []) := rfl -- 0b000000011
theorem test_decode_tagIllegal : decode .header [false, false, false, false, false, false, true, false, false] = .ok (.tagIllegal 4, []) := rfl -- 0b000000100
theorem test_decode_litW9 : decode (.codeword 9) [false, true, false, true, false, false, true, false, true] = .ok (.litW9 0xA5, []) := rfl -- 0bbbbbbbb
theorem test_decode_eofW9 : decode (.codeword 9) [true, false, false, false, false, false, false, false, false] = .ok (.eofW9, []) := rfl -- 256
theorem test_decode_dynW9 : decode (.codeword 9) [true, true, true, true, true, true, true, true, false] = .ok (.dynW9 510, []) := rfl -- 510
theorem test_decode_litW10 : decode (.codeword 10) [false, false, true, false, true, false, false, true, false, true] = .ok (.litW10 0xA5, []) := rfl -- 00bbbbbbbb
theorem test_decode_eofW10 : decode (.codeword 10) [false, true, false, false, false, false, false, false, false, false] = .ok (.eofW10, []) := rfl -- 256
theorem test_decode_dynW10 : decode (.codeword 10) [true, false, true, false, false, false, false, false, false, true] = .ok (.dynW10 641, []) := rfl -- 641
theorem test_decode_litW11 : decode (.codeword 11) [false, false, false, true, false, true, false, false, true, false, true] = .ok (.litW11 0xA5, []) := rfl -- 000bbbbbbbb
theorem test_decode_eofW11 : decode (.codeword 11) [false, false, true, false, false, false, false, false, false, false, false] = .ok (.eofW11, []) := rfl -- 256
theorem test_decode_dynW11 : decode (.codeword 11) [true, false, true, false, false, false, false, false, false, false, true] = .ok (.dynW11 1281, []) := rfl -- 1281
theorem test_decode_litW12 : decode (.codeword 12) [false, false, false, false, true, false, true, false, false, true, false, true] = .ok (.litW12 0xA5, []) := rfl -- 0000bbbbbbbb
theorem test_decode_eofW12 : decode (.codeword 12) [false, false, false, true, false, false, false, false, false, false, false, false] = .ok (.eofW12, []) := rfl -- 256
theorem test_decode_dynW12 : decode (.codeword 12) [true, false, true, false, false, false, false, false, false, false, false, true] = .ok (.dynW12 2561, []) := rfl -- 2561
theorem test_decode_litW13 : decode (.codeword 13) [false, false, false, false, false, true, false, true, false, false, true, false, true] = .ok (.litW13 0xA5, []) := rfl -- 00000bbbbbbbb
theorem test_decode_eofW13 : decode (.codeword 13) [false, false, false, false, true, false, false, false, false, false, false, false, false] = .ok (.eofW13, []) := rfl -- 256
theorem test_decode_dynW13 : decode (.codeword 13) [true, false, true, false, false, false, false, false, false, false, false, false, true] = .ok (.dynW13 5121, []) := rfl -- 5121
theorem test_decode_litW14 : decode (.codeword 14) [false, false, false, false, false, false, true, false, true, false, false, true, false, true] = .ok (.litW14 0xA5, []) := rfl -- 000000bbbbbbbb
theorem test_decode_eofW14 : decode (.codeword 14) [false, false, false, false, false, true, false, false, false, false, false, false, false, false] = .ok (.eofW14, []) := rfl -- 256
theorem test_decode_dynW14 : decode (.codeword 14) [true, false, true, false, false, false, false, false, false, false, false, false, false, true] = .ok (.dynW14 10241, []) := rfl -- 10241
theorem test_decode_litW15 : decode (.codeword 15) [false, false, false, false, false, false, false, true, false, true, false, false, true, false, true] = .ok (.litW15 0xA5, []) := rfl -- 0000000bbbbbbbb
theorem test_decode_eofW15 : decode (.codeword 15) [false, false, false, false, false, false, true, false, false, false, false, false, false, false, false] = .ok (.eofW15, []) := rfl -- 256
theorem test_decode_dynW15 : decode (.codeword 15) [true, false, true, false, false, false, false, false, false, false, false, false, false, false, true] = .ok (.dynW15 20481, []) := rfl -- 20481
theorem test_decode_litW16 : decode (.codeword 16) [false, false, false, false, false, false, false, false, true, false, true, false, false, true, false, true] = .ok (.litW16 0xA5, []) := rfl -- 00000000bbbbbbbb
theorem test_decode_eofW16 : decode (.codeword 16) [false, false, false, false, false, false, false, true, false, false, false, false, false, false, false, false] = .ok (.eofW16, []) := rfl -- 256
theorem test_decode_dynW16 : decode (.codeword 16) [true, false, true, false, false, false, false, false, false, false, false, false, false, false, false, true] = .ok (.dynW16 40961, []) := rfl -- 40961

theorem test_decode_short : decode (.codeword 9) [true, false, false, false, false, false, false, false] = .error .endOfInput := rfl -- R73
theorem test_decode_no_width : decode (.codeword 8) [true, false, false, false, false, false, false, false] = .error .noSuchWidth := rfl -- R46
theorem test_decode_edges : decode (.codeword 9) [false, true, true, true, true, true, true, true, true] = .ok (.litW9 255, []) ∧
    decode (.codeword 9) [true, false, false, false, false, false, false, false, true] = .ok (.dynW9 257, []) := ⟨rfl, rfl⟩ -- R96
theorem test_table_word : decodeTableWord 9 3 = some .tagRatioMonitored ∧ decodeTableWord 9 65 = some (.litW9 65) ∧
    decodeTableWord 13 256 = some .eofW13 ∧ decodeTableWord 16 65535 = some (.dynW16 65535) ∧
    decodeTableWord 3 4 = some .expand := ⟨rfl, rfl, rfl, rfl, rfl⟩

/-! ### Streams: vectors V-B1 to V-B11 -/

theorem test_vb3 : packBytes (let b := natBits 9 2 ++ natBits 9 65 ++ natBits 9 256; b ++ padBits b.length) =
    [0x01, 0x10, 0x60, 0x00] := by decide
theorem test_vb5 : packBytes (let b := natBits 16 65535; b ++ padBits b.length) = [0xFF, 0xFF] := by decide
theorem test_vb6 : packBytes (let b := natBits 9 3 ++ natBits 9 511 ++ natBits 10 512 ++ natBits 10 256; b ++ padBits b.length) =
    [0x01, 0xFF, 0xE0, 0x04, 0x00] := by decide
theorem test_vb8 : peekBits [0x00, 0x90, 0x60, 0x30, 0x00] 18 9 = some 257 := by decide
theorem test_vb9 : peekBits [0x00] 0 9 = none := by decide
theorem test_vb10 : peekBits [0x00, 0x90, 0x60, 0x30, 0x00] 36 9 = none := by decide

theorem test_putBits : (nextOf (exec (.putBits 1 9) (encIn (encRegs (regs .none 257 9) few [] 0)))).bind (·.enc.out) =
    some { bits := [false, false, false, false, false, false, false, false, true], closed := false } := by decide -- V-B1
theorem test_getBits : (nextOf (exec (.getBits 9) (decIn .loop (decRegs (regs .none 257 9) few none [0x00, 0x90, 0x60, 0x30, 0x00] 9)))).map
    (fun s => (s.ret, s.dec.regs.map (·.bitpos))) = some (.number (some 65), some 18) := by decide -- V-B8
theorem test_getBits_end : (nextOf (exec (.getBits 9) (decIn .loop (decRegs (regs .none 257 9) few none [0x00] 0)))).map
    (fun s => (s.ret, s.dec.regs.map (·.bitpos))) = some (.number none, some 0) := by decide -- V-B9
theorem test_close_pads : (nextOf (exec (.close .enc) { encIn (encRegs (regs .none 257 9) few [] 0) with
    enc := { phase := .step, fault := .none, info := none, regs := none, out := some { bits := natBits 9 1, closed := false } } })).bind
    (fun s => s.enc.out.map (·.toBytes)) = some [0x00, 0x80] := by decide -- V-B1
theorem test_writeBytes : (nextOf (exec (.writeBytes [66, 67]) (decIn .loop (decRegs (regs .none 257 9) few none [] 0)))).bind (·.dec.out) =
    some { bytes := [66, 67], closed := false } := by decide -- R76
theorem test_readAllBytes : (nextOf (exec .readAllBytes { State.reset with byteSource := [1, 2] })).map
    (fun s => (s.ret, s.byteSource)) = some (.seq [1, 2], []) := by decide -- R82

/-! ### Commands and tags: P1, V-F1 to V-F12 -/

theorem test_compressN_tag : (nextOf (exec .compressN State.reset)).map (fun s => (s.enc.phase, s.enc.out.map (·.bits))) =
    some (.step, some [false, false, false, false, false, false, false, false, true]) := by decide
theorem test_compressR_tag : (nextOf (exec .compressR State.reset)).map (fun s => (s.enc.phase, s.enc.out.map (·.bits))) =
    some (.step, some [false, false, false, false, false, false, false, true, false]) := by decide
theorem test_compressM_tag : (nextOf (exec .compressM State.reset)).map (fun s => (s.enc.phase, s.enc.out.map (·.bits))) =
    some (.step, some [false, false, false, false, false, false, false, true, true]) := by decide
theorem test_expand_starts : (nextOf (exec .expand { State.reset with bitSource := [0x00, 0xC0, 0x00] })).map
    (fun s => (s.dec.phase, s.dec.regs.map (fun r => (r.common.mode, r.bitpos)))) = some (.first, some (.none, 9)) := by decide -- R170
theorem test_vf1 : (nextOf (exec .expand State.reset)).map (fun s => (s.dec.phase, s.dec.fault, s.dec.out.map (·.bytes))) =
    some (.fault, .prematureEnd, some []) := by decide
theorem test_vf3 : (nextOf (exec .expand { State.reset with bitSource := [0x00, 0x40, 0x00] })).map (·.dec.fault) =
    some .badModeTag := by decide
theorem test_vf4 : (nextOf (exec (.tagIllegal 4) State.reset)).map (fun s => (s.dec.fault, s.dec.info)) =
    some (.badModeTag, some 4) := by decide
theorem test_vf12 : (nextOf (exec .illegalCmd101 State.reset)).map (fun s => (s.dec.phase, s.dec.fault.code)) = some (.fault, 1) ∧
    (nextOf (exec .illegalCmd000 State.reset)).map (fun s => (s.enc.phase, s.enc.fault.code)) = some (.fault, 1) := by decide

theorem test_illegal_after_done :
    (nextOf (exec .illegalCmd101 { State.reset with dec := { phase := .done, fault := .none, info := none, regs := none, out := some { bytes := [65], closed := true } } })).map
      (·.dec.out) = some (some { bytes := [], closed := false }) ∧
    (nextOf (exec .illegalCmd000 { State.reset with enc := { phase := .done, fault := .none, info := none, regs := none, out := some { bits := [true], closed := true } } })).map
      (·.enc.out) = some (some { bits := [true], closed := false }) ∧
    (nextOf (exec .illegalCmd000 State.reset)).map (·.enc.out) = some (some { bits := [], closed := false }) := by decide -- R210, R150, R220, V-F12

/-! ### Units: V-C3 to V-C9, V-D1 to V-D8, V-F6 to V-F10 -/

theorem test_vd1 : (nextOf (exec .decFirst (decIn .first (decRegs (regs .none 257 9) few none [0x00, 0xC0, 0x00] 9)))).map
    (fun s => (s.dec.phase, s.dec.out.map (·.closed), s.dec.regs.map (·.bitpos))) = some (.done, some true, some 18) := by decide
theorem test_vf6 : (nextOf (exec .decFirst (decIn .first (decRegs (regs .none 257 9) few none [0x00, 0x80] 9)))).map
    (fun s => (s.dec.fault, s.dec.info)) = some (.prematureEnd, some 9) := by decide
theorem test_vf8 : (nextOf (exec .decFirst (decIn .first (decRegs (regs .none 257 9) few none [0x00, 0xC0, 0x60, 0x00] 9)))).map
    (fun s => (s.dec.fault, s.dec.info)) = some (.codewordOutOfRange, some 257) := by decide
theorem test_vd2 : (nextOf (exec .decStep (decIn .loop (decRegs (regs .fullReset 257 9) few (some [65]) [0x01, 0x10, 0x60, 0x00] 18)))).map
    (fun s => (s.dec.phase, s.dec.out, s.dec.regs.map (fun r => (r.common.count, r.common.U, r.common.C)))) =
    some (.done, some { bytes := [65], closed := true }, some (257, 8, 9)) := by decide
theorem test_vd3 : (nextOf (exec .decStep (decIn .loop (decRegs (regs .none 257 9) few (some [65]) [0x00, 0x90, 0x60, 0x30, 0x00] 18)))).bind
    (fun s => s.dec.regs.map (fun r => (r.val, r.table.read 257, r.common.count))) =
    some (some [65, 65], some [65, 65], 258) := by decide
theorem test_vf7 : (nextOf (exec .decStep (decIn .loop (decRegs (regs .none 257 9) few (some [65]) [0x00, 0x90, 0x40] 18)))).map
    (fun s => (s.dec.phase, s.dec.fault, s.dec.out)) = some (.fault, .prematureEnd, some { bytes := [65], closed := false }) := by decide
theorem test_vf9 : (nextOf (exec .decStep (decIn .loop (decRegs (regs .none 257 9) few (some [65]) [0x00, 0x90, 0x60, 0x50, 0x00] 18)))).map
    (fun s => (s.dec.fault, s.dec.info, s.dec.out)) = some (.codewordOutOfRange, some 258, some { bytes := [65], closed := false }) := by decide
theorem test_vd4_litW9 : (nextOf (exec (.litW9 66) (decIn .loop (decRegs (regs .none 258 9) few (some [65]) [] 0)))).bind
    (fun s => s.dec.regs.map (fun r => (r.val, r.table.read 258, r.common.count))) = some (some [66], some [65, 66], 259) := by decide
theorem test_vd5_kwkwk : (nextOf (exec (.dynKwkwk 259) (decIn .loop (decRegs (regs .none 259 9) few (some [65, 66]) [] 0)))).bind
    (fun s => s.dec.regs.map (fun r => (r.val, r.table.read 259, r.common.count))) = some (some [65, 66, 65], some [65, 66, 65], 260) := by decide
theorem test_vd6_grows : (nextOf (exec (.litW9 66) (decIn .loop (decRegs (regs .none 510 9) few (some [65]) [] 0)))).bind
    (fun s => s.dec.regs.map (fun r => (r.common.count, r.common.W, r.common.L))) = some (511, 10, 1024) := by decide
theorem test_vc5_ref : (nextOf (exec (.dynRef 258) (decIn .loop (decRegs (regs .none 260 9) [(258, [66, 65])] (some [65]) [] 0)))).bind
    (fun s => s.dec.regs.bind (·.val)) = some [66, 65] := by decide
theorem test_vc7_invalid : (nextOf (exec (.dynInvalid 261) (decIn .loop (decRegs (regs .none 260 9) few (some [65]) [] 0)))).map
    (fun s => (s.dec.fault, s.dec.out.map (·.bytes))) = some (.codewordOutOfRange, some [65]) := by decide
theorem test_vc9 : (nextOf (exec (.dynW9 510) (decIn .loop (decRegs (regs .none 510 9) few (some [65]) [] 0)))).bind
    (fun s => s.dec.regs.map (fun r => (r.common.count, r.common.W))) = some (511, 10) ∧
    (nextOf (exec (.dynW9 511) (decIn .loop (decRegs (regs .none 510 9) few (some [65]) [] 0)))).map (·.dec.fault) =
    some .codewordOutOfRange := by decide
theorem test_width_mismatch : faultOf (exec (.litW10 65) (decIn .first (decRegs (regs .none 257 9) few none [] 0))) =
    some .widthMismatch := by decide
theorem test_vd8 : (nextOf (exec .decOutput (decIn .loop (decRegs { regs .none 300 10 with U := 2040, C := 2295 } few (some [65, 66]) [] 0)))).bind
    (fun s => s.dec.regs.map (fun r => (r.common.U, r.common.C))) = some (2056, 2305) := by decide
theorem test_decResolve : (nextOf (exec (.decResolve 259) (decIn .loop (decRegs (regs .none 259 9) few (some [65, 66]) [] 0)))).map (·.ret) =
    some (.seq [65, 66, 65]) := by decide -- V-D5
theorem test_vd7 : (nextOf (exec (.decInsert [66]) (decIn .loop (decRegs (regs .none 65536 16) few (some [65]) [] 0)))).bind
    (fun s => s.dec.regs.map (·.common.count)) = some 65536 := by decide

/-! ### Width Controller: V-W1 to V-W10 -/

theorem test_wcInit : (nextOf (exec (.wcInit .dec) (decIn .loop (decRegs (regs .none 65536 16) few none [] 0)))).bind
    (fun s => s.dec.regs.map (fun r => (r.common.W, r.common.L))) = some (9, 512) := by decide -- V-W1
theorem test_wcReached_enc :
    ([(511, 9), (512, 9), (32768, 15), (65536, 16)].map fun p => capacityReached .enc (regs .none p.1 p.2)) =
    [false, true, true, false] := by decide -- V-W2, V-W3, V-W7, V-W9
theorem test_wcReached_dec :
    ([(510, 9), (511, 9), (512, 10), (32767, 15), (65535, 16)].map fun p => capacityReached .dec (regs .none p.1 p.2)) =
    [false, true, false, true, false] := by decide -- V-W4, V-W5, V-W6, V-W8, V-W10
theorem test_wcGrow : (nextOf (exec (.wcGrow .enc) (encIn (encRegs (regs .none 512 9) few [] 0)))).bind
    (fun s => s.enc.regs.map (fun r => (r.common.W, r.common.L, r.common.count))) = some (10, 1024, 512) := by decide -- R122

/-! ### Reset Policy: V-R1 to V-R11, V-P1 to V-P6 -/

theorem test_ratio : ([((11, 10), (1, 1)), ((111, 100), (1, 1)), ((1100001, 1000000), (1, 1)), ((1, 1), (1, 1)), ((2, 1), (1, 1)),
      ((1, 1), (2, 1)), ((12, 10), (12, 11)), ((3563584, 981255), (4068400, 1232279)), ((3563584, 981255), (4068408, 1232295)),
      ((4781528, 2213541), (5090112, 2592037)), ((4781528, 2213555), (5090112, 2592051))].map
      fun p => ratioExceeds .exact { U := p.1.1, C := p.1.2 } { U := p.2.1, C := p.2.2 }) =
    [false, true, true, false, true, false, false, false, true, true, false] := by decide
theorem test_vp1 : (nextOf (exec (.rpEval .enc) (encIn (encRegs (regs .fullReset 65535 16) few [] 0)))).map (·.ret) =
    some (.flag false) := by decide
theorem test_vp4 : (nextOf (exec (.rpEval .enc) (encIn (encRegs { regs .ratioMonitored 65536 16 with U := 3563584, C := 981255 } few [] 0)))).map
    (fun s => (s.ret, s.enc.regs.map (fun r => (r.common.oldRatio, r.common.ratioSet)))) =
    some (.flag false, some (some { U := 3563584, C := 981255 }, true)) := by decide
theorem test_vp5 : (nextOf (exec (.rpEvalRatioCompare .dec) (decIn .loop
    (decRegs (monitored 65536 { U := 3563584, C := 981255 } 3563640 981271) few none [] 0)))).map
    (fun s => (s.ret, s.dec.regs.map (fun r => (r.common.newRatio, r.common.ratioSet)))) =
    some (.flag false, some (some { U := 3563640, C := 981271 }, true)) := by decide
theorem test_vp6 : (nextOf (exec (.rpEval .dec) (decIn .loop
    (decRegs (monitored 65536 { U := 3563584, C := 981255 } 4068408 1232295) few none [] 0)))).map
    (fun s => (s.ret, s.dec.regs.map (fun r => (r.common.oldRatio, r.common.ratioSet)))) = some (.flag true, some (none, false)) := by decide
theorem test_vp3 : (nextOf (exec .encPolicy (encIn (encRegs { regs .fullReset 65536 16 with U := 5, C := 7 } few [] 0)))).bind
    (fun s => s.enc.regs.map (fun r => (r.common.count, r.common.W, r.common.L, r.common.U, r.common.C, r.dict.length))) =
    some (257, 9, 512, 5, 7, 256) := by decide +kernel
theorem test_rpAccount : (nextOf (exec (.rpAccount .enc 24 9) (encIn (encRegs (regs .none 257 9) few [] 0)))).bind
    (fun s => s.enc.regs.map (fun r => (r.common.U, r.common.C))) = some (24, 9) := by decide -- R131
theorem test_dictReset : (nextOf (exec (.dictReset .dec) (decIn .loop (decRegs (regs .none 65536 16) few (some [66]) [] 7)))).bind
    (fun s => s.dec.regs.map (fun r => (r.common.count, r.common.W, r.val, r.bitpos))) = some (257, 9, some [66], 7) := by decide -- R54

/-! ### Encoder: V-E1 to V-E12 -/

theorem test_ve2 : (nextOf (exec .encLookup (encIn (encRegs (regs .none 258 9) (few.write 257 [65, 65]) [65, 65, 65] 0)))).map (·.ret) =
    some (.entry [65, 65] 257) := by decide
theorem test_ve4 : (nextOf (exec (.longestPrefix [65, 66, 68]) (encIn (encRegs (regs .none 258 9) (few.write 257 [65, 66, 67]) [] 0)))).map (·.ret) =
    some (.entry [65] 65) := by decide
theorem test_ve5 : (nextOf (exec (.longestPrefix [65, 66, 67, 68]) (encIn (encRegs (regs .none 258 9) (few.write 257 [65, 66, 67]) [] 0)))).map
    (·.ret) = some (.entry [65, 66, 67] 257) := by decide
theorem test_ve6 : (nextOf (exec (.encEmit [65, 66] 257) (encIn (encRegs { regs .none 258 9 with U := 8, C := 9 } few [] 0)))).map
    (fun s => (s.enc.out.map (·.bits), s.enc.regs.map (fun r => (r.common.U, r.common.C)))) =
    some (some [true, false, false, false, false, false, false, false, true], some (24, 18)) := by decide
theorem test_ve7 : (nextOf (exec (.encInsert [65, 66]) (encIn (encRegs (regs .none 258 9) few [65, 66, 65] 0)))).bind
    (fun s => s.enc.regs.map (fun r => (r.dict.read 258, r.common.count))) = some (some [65, 66, 65], 259) := by decide
theorem test_ve8 : (nextOf (exec (.encInsert [65, 66]) (encIn (encRegs (regs .none 258 9) few [65, 66] 0)))).bind
    (fun s => s.enc.regs.map (·.common.count)) = some 258 := by decide
theorem test_ve10 : (nextOf (exec .encStep (encIn (encRegs (regs .none 511 9) few [65, 66] 0)))).bind
    (fun s => s.enc.regs.map (fun r => (r.common.count, r.common.W, r.common.L))) = some (512, 10, 1024) := by decide
theorem test_ve12 : (nextOf (exec .encStep (encIn (encRegs (regs .fullReset 65536 16) (few.write 300 [65, 66, 65]) [65, 66, 65, 66] 0)))).map
    (fun s => (s.enc.out.map (·.bits.length), s.enc.regs.map (fun r => (r.dict.read 257, r.common.count, r.common.W)))) =
    some (some 16, some (some [65, 66, 65, 66], 258, 9)) := by decide +kernel
theorem test_encFinish : (nextOf (exec .encFinish (encIn (encRegs (regs .none 512 10) few [] 0)))).map
    (fun s => (s.enc.phase, s.enc.out.map (·.toBytes))) = some (.done, some [0x40, 0x00]) := by decide -- R158: 256:10, six pad bits
theorem test_encAdvance : (nextOf (exec (.encAdvance [65, 66]) (encIn (encRegs (regs .none 258 9) few [65, 66, 65] 1)))).bind
    (fun s => s.enc.regs.map (·.pos)) = some 3 := by decide -- R157

/-! ### Stores, and where an operation stops -/

theorem test_tableWrite : (nextOf (exec (.tableWrite 257 [65, 66]) (decIn .loop (decRegs (regs .none 257 9) few none [] 0)))).bind
    (fun s => s.dec.regs.map (·.table)) = some [(65, [65]), (66, [66]), (257, [65, 66])] := by decide -- R66
theorem test_tableRead_none : faultOf (exec (.tableRead 256) (decIn .loop (decRegs (regs .none 257 9) few none [] 0))) = some .noValue := by decide -- R65
theorem test_tableSeed : (nextOf (exec .tableSeed (decIn .loop (decRegs (regs .none 300 9) few none [] 0)))).bind
    (fun s => s.dec.regs.map (fun r => (r.common.count, r.common.W, r.table.length))) = some (257, 9, 256) := by decide +kernel -- R67
theorem test_long_decAdvance : refusalOf (exec (.decAdvance [65, 66, 67]) (within 2 (decIn .loop (decRegs (regs .none 257 9) few none [] 0)))) =
    some .seqTooLong := by decide -- R12, U9
theorem test_long_decFirst : refusalOf (exec (.litW9 65) (within 0 (decIn .first (decRegs (regs .none 257 9) few none [] 0)))) =
    some .seqTooLong := by decide -- R12, U9
theorem test_seed_seqMax0 : (nextOf (exec .compressN (within 0 State.reset))).bind (fun s => s.enc.regs.map (·.dict.length)) = some 256 := by
  decide +kernel -- log 12
theorem test_dictInsert_old : faultOf (exec (.dictInsert [65] 257) (encIn (encRegs (regs .none 257 9) few [] 0))) =
    some .outsideContract := by decide -- R63
theorem test_seed : Store.seed.length = 256 ∧ Store.seed.read 255 = some [255] ∧ Store.seed.read 256 = none := by decide +kernel -- R64, R67

/-! ### Fetch -/

theorem test_fetch_command : (nextOf (step (State.reset.withFetchWord 3 2))).bind (fun s => s.enc.regs.map (·.common.mode)) =
    some .fullReset := by decide
theorem test_fetch_tag : (nextOf (step (State.reset.withFetchWord 9 3))).bind (fun s => s.dec.regs.map (·.common.mode)) =
    some .ratioMonitored := by decide
theorem test_fetch_literal : (nextOf (step (State.reset.withFetchWord 12 65))).map (fun s => (s.dec.phase, s.dec.regs.bind (·.val))) =
    some (.loop, some [65]) := by decide
theorem test_fetch_idle : (nextOf (step State.reset)) = some State.reset := by decide -- R219

/-! ### Witnesses: for each statement with hypotheses, states and operands that meet them -/

/-- The Encoder right after COMPRESS.N on `A`. -/
def startedEnc : State :=
  { encIn { common := startCommon .none, dict := Store.seed, inp := [65], pos := 0 } with
    enc := { phase := .step, fault := .none, info := none
             regs := some { common := startCommon .none, dict := Store.seed, inp := [65], pos := 0 }
             out := some { bits := natBits 9 1, closed := false } } }

theorem startedEnc_inv : startedEnc.Inv :=
  ⟨⟨rfl, _, _, rfl, rfl, rfl, EncRegs.inv_start .none [65]⟩, rfl, rfl, rfl⟩

/-- The Decoder right after EXPAND on the stream `1:9 256:9`. -/
def startedDecRegs : DecRegs :=
  { common := startCommon .none, table := Store.seed, val := none, readW := none, src := [0x00, 0xC0, 0x00], bitpos := 9 }

def startedDec : State := decIn .first startedDecRegs

theorem startedDec_inv : startedDec.Inv :=
  ⟨⟨rfl, rfl, rfl⟩, rfl, _, rfl, rfl, DecRegs.inv_start .none _ (by decide), rfl, rfl, rfl⟩

theorem exists_next {o : Host.Outcome State Fault Refusal} (h : (nextOf o).isSome = true) : ∃ t, o = .next t := by
  cases o <;> simp_all [nextOf]

theorem witness_StepKeepsInvariant : (startedEnc.Inv ∧ ∃ t, step startedEnc = .next t) ∧ (startedDec.Inv ∧ ∃ t, step startedDec = .next t) :=
  ⟨⟨startedEnc_inv, exists_next (by decide +kernel)⟩, startedDec_inv, exists_next (by decide +kernel)⟩
theorem witness_NoStepStopsUnderInvariant : startedEnc.Inv ∧ startedEnc.params.seqMax = none := ⟨startedEnc_inv, rfl⟩
theorem witness_InstructionsKeepStoresCanonical : Memory.wf (encIn (encRegs (regs .none 257 9) few [] 0)) = true ∧
    ∃ t, exec (.dictInsert [65, 66] 257) (encIn (encRegs (regs .none 257 9) few [] 0)) = .next t := ⟨rfl, _, rfl⟩
theorem witness_InstructionsTouchOneEngine : (∃ t, exec .compressN State.reset = .next t) ∧ (Instr.compressN).onEncoder = true ∧
    (∃ t, exec .tagNone State.reset = .next t) ∧ (Instr.tagNone).onEncoder = false := ⟨⟨_, rfl⟩, rfl, ⟨_, rfl⟩, rfl⟩
theorem witness_EnginesLearnNothingOfEachOther : (∃ t, exec .readAllBytes State.reset = .next t) ∧ (Instr.readAllBytes).onEncoder = true ∧
    (∃ t, exec .expand State.reset = .next t) ∧ (Instr.expand).onEncoder = false := ⟨⟨_, rfl⟩, rfl, ⟨_, rfl⟩, rfl⟩

/-- Both engines in phase FAULT. -/
def failed : State := (State.reset.raise .enc .invocationError (some 0)).raise .dec .prematureEnd (some 0)

theorem witness_FaultIsLeftOnlyByStart : (∃ t, exec .compressR failed = .next t ∧ failed.enc.phase = .fault ∧ t.enc.phase ≠ .fault) ∧
    (∃ t, exec .tagNone failed = .next t ∧ failed.dec.phase = .fault ∧ t.dec.phase ≠ .fault) :=
  ⟨⟨_, rfl, rfl, by decide⟩, _, rfl, rfl, by decide⟩
theorem witness_FaultEntryDiscardsRegisters :
    (∃ t, exec .illegalCmd000 State.reset = .next t ∧ State.reset.enc.phase ≠ .fault ∧ t.enc.phase = .fault) ∧
    (∃ t, exec .expand State.reset = .next t ∧ State.reset.dec.phase ≠ .fault ∧ t.dec.phase = .fault) :=
  ⟨⟨_, rfl, by decide, rfl⟩, _, rfl, by decide, rfl⟩

/-- An Encoder about to emit `A` with `B` behind it. -/
def aboutEnc (m : Mode) (n w : Nat) : State := encIn (encRegs (regs m n w) few [65, 66] 0)

/-- A Decoder in phase LOOP about to read `66` at 9 bits. -/
def aboutDecRegs (m : Mode) (n w : Nat) : DecRegs := decRegs (regs m n w) few (some [65]) [0x21, 0x00] 0

def aboutDec (m : Mode) (n w : Nat) : State := decIn .loop (aboutDecRegs m n w)

def noBytes : ByteSink := { bytes := [], closed := false }

theorem regs_inv {m : Mode} {n w : Nat} (hw : 9 ≤ w ∧ w ≤ 16) (hn : 257 ≤ n ∧ n ≤ 2 ^ w) : (regs m n w).Inv :=
  ⟨hw, rfl, hn.1, hn.2, fun h => by cases h⟩

/-- The width and the count that the Encoder's registers hold where an outcome goes on. -/
def encWidth (o : Host.Outcome State Fault Refusal) : Option (Nat × Nat) :=
  (nextOf o).bind fun s => s.enc.regs.map fun r => (r.common.W, r.common.count)

/-- The same for the Decoder. -/
def decWidth (o : Host.Outcome State Fault Refusal) : Option (Nat × Nat) :=
  (nextOf o).bind fun s => s.dec.regs.map fun r => (r.common.W, r.common.count)

theorem witness_WidthIsMonotonicBetweenResets_enc :
    (regs .none 300 9).Inv ∧ encWidth (exec .encStep (aboutEnc .none 300 9)) = some (9, 301) ∧
    (regs .none 511 9).Inv ∧ encWidth (exec .encStep (aboutEnc .none 511 9)) = some (10, 512) ∧
    (regs .fullReset 65536 16).Inv ∧ encWidth (exec .encStep (aboutEnc .fullReset 65536 16)) = some (9, 258) :=
  ⟨regs_inv (by decide) (by decide), by decide, regs_inv (by decide) (by decide), by decide, regs_inv (by decide) (by decide),
   by decide +kernel⟩
theorem witness_WidthIsMonotonicBetweenResets_dec :
    (regs .none 300 9).Inv ∧ decWidth (exec .decStep (aboutDec .none 300 9)) = some (9, 301) ∧
    (regs .none 510 9).Inv ∧ decWidth (exec .decStep (aboutDec .none 510 9)) = some (10, 511) ∧
    (regs .fullReset 65536 16).Inv ∧ decWidth (exec .decStep (aboutDec .fullReset 65536 16)) = some (9, 258) :=
  ⟨regs_inv (by decide) (by decide), by decide, regs_inv (by decide) (by decide), by decide, regs_inv (by decide) (by decide),
   by decide +kernel⟩
theorem witness_EveryStepMakesProgress : (∃ t u, exec .encStep (aboutEnc .none 300 9) = .next t ∧ t.enc.regs = some u) ∧
    (∃ t u, exec .decStep (aboutDec .none 300 9) = .next t ∧ t.dec.phase = .loop ∧ t.dec.regs = some u) ∧
    (∃ t u, exec .decFirst (decIn .first (decRegs (regs .none 257 9) few none [0x21, 0x00] 0)) = .next t ∧ t.dec.phase = .loop ∧
      t.dec.regs = some u) ∧ (regs .none 257 9).Inv :=
  ⟨⟨_, _, rfl, rfl⟩, ⟨_, _, rfl, rfl, rfl⟩, ⟨_, _, rfl, rfl, rfl⟩, regs_inv (by decide) (by decide)⟩
theorem witness_FaultKeepsOutputOfTheStep : ∃ t, exec .decStep (decIn .loop (decRegs (regs .none 257 9) few (some [65]) [0x21] 0)) = .next t ∧
    t.dec.phase = .fault := ⟨_, rfl, rfl⟩
theorem witness_ModeIsIdleBelowSaturation : (aboutEnc .none 300 9).enc.regs = some (encRegs (regs .none 300 9) few [65, 66] 0) ∧
    (regs .none 300 9).count ≠ 65536 := ⟨rfl, by decide⟩
theorem witness_RoundTripIsLossless : ((1 : BitVec 3) = 1 ∨ (1 : BitVec 3) = 2) ∧
    ¬ EndsOnGrowth (encRegs (regs .none 510 9) few [65] 1) ∧ ¬ EndsOnGrowth (encRegs (regs .none 511 9) few [] 0) :=
  ⟨.inl rfl, fun h => absurd h.2.1 (by decide), fun h => absurd h.1 (by decide)⟩

theorem witness_DecodeOfEncodeIsIdentity : (Instr.dynW9 257).wellFormed = true ∧
    encode (.dynW9 257) = some (.codeword 9, [true, false, false, false, false, false, false, false, true]) := ⟨rfl, rfl⟩
theorem witness_EncodeOfDecodeIsIdentity : decode .command [true, true, false, true] = .ok (.illegalCmd110, [true]) := rfl
theorem witness_GetBitsReadsWhatPutBitsPut : 511 < 2 ^ 9 ∧ 8 ∣ ([true] ++ natBits 9 511 ++ [false, true, true, false, true, false]).length := by decide

/-! StepRunsTheDecodedInstruction and DecoderOperationsRunTheirUnit: a command and an EXPAND on a tag, both phases of the Encoder, both of the Decoder, an idle block. -/

theorem witness_step_command : ∃ s : State, s.host = [.command 2 [65]] ∧ (2 : BitVec 3) ≠ 4 :=
  ⟨{ State.reset with host := [.command 2 [65]] }, rfl, by decide⟩
theorem witness_step_expand : State.running .dec State.reset = false ∧
    ∃ i tail, decode .header (streamBits (connect 4 [0x00, 0xC0, 0x00] State.reset).bitSource) = .ok (i, tail) := ⟨rfl, _, _, rfl⟩
theorem witness_step_expand_short : State.running .dec (connect 4 [0x00] State.reset) = false ∧
    decode .header (streamBits (connect 4 [0x00] State.reset).bitSource) = .error .endOfInput := ⟨rfl, rfl⟩
theorem witness_step_encoder : Moves (aboutEnc .none 300 9) .enc (aboutEnc .none 300 9) ∧ (aboutEnc .none 300 9).enc.phase = .step ∧
    (encRegs (regs .none 300 9) few [65, 66] 0).pos < 2 ∧
    Moves (encIn (encRegs (regs .none 300 9) few [65] 1)) .enc (encIn (encRegs (regs .none 300 9) few [65] 1)) :=
  ⟨.inr ⟨rfl, rfl, rfl⟩, rfl, by decide, .inr ⟨rfl, rfl, rfl⟩⟩
theorem witness_step_first : Moves { startedDec with host := [.turn .dec] } .dec startedDec ∧ startedDec.dec.phase = .first ∧
    ∃ i tail, decode (.codeword 9) ((streamBits [0x00, 0xC0, 0x00]).drop 9) = .ok (i, tail) :=
  ⟨.inl ⟨[], rfl, rfl⟩, rfl, _, _, rfl⟩
theorem witness_step_loop : Moves (aboutDec .none 300 9) .dec (aboutDec .none 300 9) ∧ (aboutDec .none 300 9).dec.phase = .loop ∧
    ∃ v r i tail, ((decOutput (aboutDec .none 300 9)).bind fun _ => decPolicy) = .go () v ∧ v.dec.regs = some r ∧
      decode (.codeword r.common.W) ((streamBits r.src).drop r.bitpos) = .ok (i, tail) :=
  ⟨.inr ⟨rfl, rfl, rfl⟩, rfl, _, _, _, _, rfl, rfl, rfl⟩
theorem witness_step_first_short : Moves { startedDec with host := [.turn .dec] } .dec startedDec ∧ startedDec.dec.phase = .first ∧
    decode (.codeword 9) ((streamBits [0x00, 0x80]).drop 9) = .error .endOfInput ∧
    decode (.codeword 9) ((streamBits [0x00, 0xC0, 0x00]).drop 16) = .error .endOfInput := ⟨.inl ⟨[], rfl, rfl⟩, rfl, rfl, rfl⟩

/-- A Decoder in phase LOOP with 8 bits left, one bit less than its width. -/
def shortDec : State := decIn .loop (decRegs (regs .none 300 9) few (some [65]) [0x21, 0x00] 8)

theorem witness_step_loop_short : Moves shortDec .dec shortDec ∧ shortDec.dec.phase = .loop ∧
    ∃ v r e, ((decOutput shortDec).bind fun _ => decPolicy) = .go () v ∧ v.dec.regs = some r ∧
      decode (.codeword r.common.W) ((streamBits r.src).drop r.bitpos) = .error e :=
  ⟨.inr ⟨rfl, rfl, rfl⟩, rfl, _, _, _, rfl, rfl, rfl⟩

/-- Registers at `none` in a phase that needs them, and a Decoder whose accounting overflows before DEC.READ: the states in
which the operation itself runs. -/
theorem witness_step_stops : (∃ s, Moves s .enc s ∧ s.enc.phase = .step ∧ s.enc.regs = none) ∧
    (∃ s, Moves s .dec s ∧ s.dec.phase = .first ∧ s.dec.regs = none) ∧
    (∃ s, Moves s .dec s ∧ s.dec.phase = .loop ∧ ∀ v, ((decOutput s).bind fun _ => decPolicy) ≠ .go () v) :=
  ⟨⟨{ State.reset with enc := { State.reset.enc with phase := .step } }, .inr ⟨rfl, rfl, rfl⟩, rfl, rfl⟩,
   ⟨{ State.reset with dec := { State.reset.dec with phase := .first } }, .inr ⟨rfl, rfl, rfl⟩, rfl, rfl⟩,
   ⟨counting 3 (decIn .loop (aboutDecRegs .none 300 9)), .inr ⟨rfl, rfl, rfl⟩, rfl, fun v h => by cases h⟩⟩
theorem witness_step_turn : ∃ s : State, s.host = [.turn .enc, .turn .dec] ∧ s.running .enc = false ∧ s.running .dec = false :=
  ⟨{ State.reset with host := [.turn .enc, .turn .dec] }, rfl, rfl, rfl⟩
theorem witness_step_idle : State.reset.host = [] ∧ State.reset.running .enc = false ∧ State.reset.running .dec = false := ⟨rfl, rfl, rfl⟩
theorem witness_ExpandRunsItsTag : State.reset.running .dec = false ∧
    ∃ i tail, decode .header (streamBits [0x01, 0x40, 0x00]) = .ok (i, tail) := ⟨rfl, _, _, rfl⟩

theorem witness_StepsAreTheirSubSteps_enc : ∃ s2 s3 s4 s5 s6,
    exec .encLookup (aboutEnc .none 300 9) = .next { aboutEnc .none 300 9 with ret := .entry [65] 65 } ∧
    exec (.encEmit [65] 65) (aboutEnc .none 300 9) = .next s2 ∧ exec .encPolicy s2 = .next s3 ∧ exec (.encInsert [65]) s3 = .next s4 ∧
    exec .encGrow s4 = .next s5 ∧ exec (.encAdvance [65]) s5 = .next s6 := ⟨_, _, _, _, _, rfl, rfl, rfl, rfl, rfl, rfl⟩

/-- `aboutDec` after its output and the read of `66`. -/
def readDone : State :=
  { aboutDec .none 300 9 with
    dec := { phase := .loop, fault := .none, info := none
             regs := some { decRegs { regs .none 300 9 with U := 8, C := 9 } few (some [65]) [0x21, 0x00] 9 with readW := some 9 }
             out := some { bytes := [65], closed := false } } }

theorem witness_StepsAreTheirSubSteps_dec : ∃ s1 s2 s4 s5 s6,
    exec .decOutput (aboutDec .none 300 9) = .next s1 ∧ exec .decPolicy s1 = .next s2 ∧
    exec .decRead s2 = .next { readDone with ret := .number (some 66) } ∧ readDone.ret = (aboutDec .none 300 9).ret ∧
    exec (.decResolve 66) readDone = .next { readDone with ret := .seq [66] } ∧ exec (.decInsert [66]) readDone = .next s4 ∧
    exec .decGrow s4 = .next s5 ∧ exec (.decAdvance [66]) s5 = .next s6 :=
  ⟨_, _, _, _, _, rfl, rfl, rfl, rfl, rfl, rfl, rfl, rfl⟩

/-! Commands and starts. -/

/-- For CompressStartsTheEncoder, ExpandStartsTheDecoder (each of the three tags) and IllegalCommandsRaiseInvocationError. -/
theorem witness_starts : State.reset.enc.phase ≠ .step ∧ State.reset.running .dec = false ∧
    peekBits [0x00, 0xC0, 0x00] 0 9 = some 1 ∧ peekBits [0x01, 0x40, 0x00] 0 9 = some 2 ∧
    peekBits [0x01, 0xC0, 0x00] 0 9 = some 3 := by decide
theorem witness_CommandToRunningEngineChangesNothing : (aboutEnc .none 300 9).running .enc = true ∧
    (aboutDec .none 300 9).running .dec = true := by decide
theorem witness_BadHeadersRaiseTheirFaults : peekBits [0xFF] 0 9 = none ∧ (0 : BitVec 9).toNat = 0 ∧ 3 < (4 : BitVec 9).toNat ∧
    peekBits [0x02, 0x40, 0x00] 0 9 = some (4 : BitVec 9).toNat ∧ 3 < (511 : BitVec 9).toNat := by decide

/-! Units: first position, then phase LOOP, at the ends of the ranges of their clauses. -/

theorem witness_FirstLiteralBecomesVal :
    FirstReady (decIn .first (decRegs (regs .none 257 9) few none [0x20, 0x80] 0)) (decRegs (regs .none 257 9) few none [0x20, 0x80] 0)
      { bytes := [], closed := false } ∧ few.read 65 = some [65] ∧ peekBits [0x20, 0x80] 0 9 = some 65 ∧
    (9, Instr.litW9 65) ∈ litUnits 65 ∧ seqFits none [65] = true ∧ seqFits (some 1) [65] = true :=
  ⟨firstReady _, by decide, by decide, by decide, by decide, by decide⟩
theorem witness_FirstLiteralBecomesVal_premature :
    FirstReady (decIn .first (decRegs (regs .none 257 9) few none [0x20, 0x80] 8)) (decRegs (regs .none 257 9) few none [0x20, 0x80] 8) noBytes ∧
    peekBits [0x20, 0x80] 8 9 = none ∧ peekBits [0x20, 0x80] 7 9 = some 128 := ⟨firstReady _, by decide, by decide⟩
theorem witness_FirstEofFinishes : FirstReady startedDec startedDecRegs noBytes ∧ (16, Instr.eofW16) ∈ eofUnits := ⟨firstReady _, by decide⟩
theorem witness_FirstDynamicIsOutOfRange : FirstReady startedDec startedDecRegs noBytes ∧ 257 ≤ (257 : BitVec 16).toNat ∧
    (511 : BitVec 16).toNat < 2 ^ 9 ∧ (9, Instr.dynW9 257) ∈ dynUnits 257 := ⟨firstReady _, by decide⟩
theorem witness_LoopLiteralStep : LoopReady (aboutDec .none 300 9) (aboutDecRegs .none 300 9) noBytes [65] ∧ QuietPolicy (regs .none 300 9) ∧
    few.read 66 = some [66] ∧ 66 < 300 ∧ (16, Instr.litW16 255) ∈ litUnits 255 ∧ QuietPolicy (regs .none 65536 16) :=
  ⟨loopReady _ _ _ _ _, .inl (by decide), by decide, by decide, by decide, .inr rfl⟩
theorem witness_LoopReferenceStep :
    LoopReady (decIn .loop (decRegs (regs .none 258 9) [(257, [65, 66])] (some [65]) [] 0))
      (decRegs (regs .none 258 9) [(257, [65, 66])] (some [65]) [] 0) noBytes [65] ∧ QuietPolicy (regs .none 258 9) ∧
    Store.read 257 [(257, [65, 66])] = some [65, 66] ∧ 257 ≤ (257 : BitVec 16).toNat ∧ (257 : BitVec 16).toNat < 258 ∧
    (9, Instr.dynW9 257) ∈ dynUnits 257 := ⟨loopReady _ _ _ _ _, .inl (by decide), by decide⟩
theorem witness_LoopKwkwkStep : LoopReady (aboutDec .none 257 9) (aboutDecRegs .none 257 9) noBytes [65] ∧ QuietPolicy (regs .none 257 9) ∧
    (257 : BitVec 16).toNat = 257 ∧ (257 : BitVec 16).toNat < 2 ^ 9 := ⟨loopReady _ _ _ _ _, .inl (by decide), by decide⟩
theorem witness_LoopInvalidIsOutOfRange : LoopReady (aboutDec .none 257 9) (aboutDecRegs .none 257 9) noBytes [65] ∧ QuietPolicy (regs .none 257 9) ∧
    257 < (258 : BitVec 16).toNat ∧ (511 : BitVec 16).toNat < 2 ^ 9 := ⟨loopReady _ _ _ _ _, .inl (by decide), by decide⟩
theorem witness_LoopEofFinishes : LoopReady (aboutDec .ratioMonitored 257 9) (aboutDecRegs .ratioMonitored 257 9) noBytes [65] ∧ QuietPolicy (regs .ratioMonitored 257 9) ∧
    (9, Instr.eofW9) ∈ eofUnits := ⟨loopReady _ _ _ _ _, .inl (by decide), by decide⟩
theorem witness_DecStepReadsItsStream : LoopReady (aboutDec .none 300 9) (aboutDecRegs .none 300 9) noBytes [65] ∧ QuietPolicy (regs .none 300 9) ∧
    peekBits [0x21, 0x00] 0 9 = some 66 ∧ few.read 66 = some [66] ∧ peekBits [0x21] 0 9 = none :=
  ⟨loopReady _ _ _ _ _, .inl (by decide), by decide⟩
theorem witness_FullResetStepCarriesTheEntry : LoopReady (aboutDec .fullReset 65536 16) (aboutDecRegs .fullReset 65536 16) noBytes [65] ∧ (regs .fullReset 65536 16).count = 65536 ∧
    EncReady (aboutEnc .fullReset 65536 16) (encRegs (regs .fullReset 65536 16) few [65, 66] 0) { bits := [], closed := false } ∧
    few.longestMatch [65, 66] = some ([65], 65) ∧ 65 < 2 ^ 16 := ⟨loopReady _ _ _ _ _, by decide, encReady _, by decide, by decide⟩

/-! Decoder sub-steps. -/

theorem witness_DecOutputWritesAndAccounts : LoopReady (aboutDec .none 300 9) (aboutDecRegs .none 300 9) noBytes [65] ∧
    ∃ s r, s = { aboutDec .none 300 10 with params := { Config.defaults with decAccountWidth := .asRead } } ∧ s.dec.regs = some r ∧
      r.val = some [65] ∧ s.Unbounded ∧ r.readW = some 9 := ⟨loopReady _ _ _ _ _, _, _, rfl, rfl, rfl, ⟨rfl, rfl⟩, rfl⟩
theorem witness_PolicyResetsAtSaturation : (aboutDec .fullReset 65536 16).dec.phase = .loop ∧ QuietPolicy (regs .fullReset 65535 16) ∧
    (regs .fullReset 65536 16).count = 65536 ∧ (aboutEnc .fullReset 65536 16).enc.phase = .step := ⟨rfl, .inl (by decide), rfl, rfl⟩
theorem witness_DecReadTakesOneCodeword : (aboutDec .none 300 9).dec.phase = .loop ∧ peekBits [0x21, 0x00] 0 9 = some 66 ∧
    peekBits [0x80, 0x00] 0 9 = some 256 ∧ peekBits [0x21] 0 9 = none ∧ 1 ≤ (regs .none 300 16).W ∧ (regs .none 300 16).W ≤ 16 := by decide
theorem witness_DecResolveGivesTheSequence : (aboutDec .none 257 9).dec.phase = .loop ∧ (aboutDec .none 257 9).Unbounded ∧
    few.read 66 = some [66] ∧ 66 < (regs .none 257 9).count ∧ 257 = (regs .none 257 9).count ∧ (regs .none 257 9).count < 258 :=
  ⟨rfl, ⟨rfl, rfl⟩, by decide⟩
theorem witness_DecInsertGrowAdvance : (aboutDec .none 65535 16).dec.phase = .loop ∧ (aboutDec .none 65535 16).Unbounded ∧
    (regs .none 65535 16).count < (regs .none 65535 16).L ∧ (regs .none 65536 16).L ≤ (regs .none 65536 16).count :=
  ⟨rfl, ⟨rfl, rfl⟩, by decide⟩
theorem witness_DecFinishClosesTheSink : startedDec.running .dec = true ∧ startedDec.dec.out = some { bytes := [], closed := false } := by decide

/-! Encoder. -/

theorem witness_EncStepEmitsTheLongestPrefix :
    EncReady (aboutEnc .none 511 9) (encRegs (regs .none 511 9) few [65, 66] 0) { bits := [], closed := false } ∧
    QuietPolicy (regs .none 511 9) ∧ few.longestMatch [65, 66] = some ([65], 65) ∧ 65 < 2 ^ 9 ∧
    (encRegs (regs .none 511 9) few [65, 66] 0).CanInsert [65] :=
  ⟨encReady _, .inl (by decide), by decide, by decide, fun _ => by decide⟩
theorem witness_EncFinishWritesEofAndPads :
    EncReady (encIn (encRegs (regs .none 511 9) few [65] 1)) (encRegs (regs .none 511 9) few [65] 1) { bits := [], closed := false } ∧
    (encRegs (regs .none 511 9) few [65] 1).pos = 1 := ⟨encReady _, rfl⟩
theorem witness_LookupFindsTheLongestKey : (aboutEnc .none 300 9).enc.phase = .step ∧ few.wf = true ∧ few.read 65 = some [65] ∧
    [65] <+: ((encRegs (regs .none 300 9) few [65, 66] 0).inp.drop 0) ∧ seqFits (some 1) [65] = true := ⟨rfl, rfl, rfl, ⟨[66], rfl⟩, rfl⟩
theorem witness_EncEmitPutsAndAccounts :
    EncReady (aboutEnc .none 300 9) (encRegs (regs .none 300 9) few [65, 66] 0) { bits := [], closed := false } ∧ 511 < 2 ^ (regs .none 300 9).W :=
  ⟨encReady _, by decide⟩
theorem witness_EncInsertGrowAdvance : (aboutEnc .none 511 9).Unbounded ∧
    (0 + [65].length < [65, 66].length ∧ (regs .none 511 9).count < (regs .none 511 9).L ∧
      (encRegs (regs .none 511 9) few [65, 66] 0).CanInsert [65]) ∧ [65, 66].length ≤ 0 + [65, 66].length ∧
    (regs .none 65536 16).L ≤ (regs .none 65536 16).count := ⟨⟨rfl, rfl⟩, ⟨by decide, by decide, fun _ => by decide⟩, by decide, by decide⟩

/-! Width Controller, Reset Policy. -/

/-- For WidthControllerOperations, SaturationTestAndAccounting and DictResetRestoresTheSeed, in STEP, LOOP and FIRST. -/
theorem witness_sharedOperations : (aboutEnc .none 512 9).enc.phase = .step ∧ (regs .none 512 15).W < 16 ∧
    (aboutDec .none 511 9).running .dec = true ∧ startedDec.running .dec = true ∧ State.reset.params.cntW = none := by decide
/-- SaturationTestAndAccounting with counters of 4 bits: a sum of 15 fits, and 16 does not. -/
theorem witness_SaturationTestAndAccounting : ∃ r s, counting 4 (aboutEnc .none 300 9) = s ∧ s.enc.phase = .step ∧ s.enc.regs = some r ∧
    ∀ n, s.params.cntW = some n → r.common.U + 15 < 2 ^ n ∧ r.common.C + 15 < 2 ^ n ∧ ¬ r.common.U + 16 < 2 ^ n :=
  ⟨_, _, rfl, rfl, rfl, fun n h => by cases h; decide⟩
theorem test_rpAccount_fits : (nextOf (exec (.rpAccount .dec 15 15) (counting 4 (aboutDec .none 300 9)))).bind
    (fun s => s.dec.regs.map (fun r => (r.common.U, r.common.C))) = some (15, 15) := by decide -- R131, R205
theorem witness_CounterOverflowIsRaised : ∃ s r, s = counting 4 (aboutEnc .none 300 9) ∧
    s.params.cntW = some 4 ∧ s.enc.phase = .step ∧ s.enc.regs = some r ∧ 2 ^ 4 ≤ r.common.U + 16 ∧
    ¬ 2 ^ 4 ≤ r.common.C + 15 := ⟨_, _, rfl, rfl, rfl, rfl, by decide, by decide⟩
theorem witness_CounterOverflowIsRaised_dec : ∃ s r, s = counting 4 (aboutDec .none 300 9) ∧
    s.params.cntW = some 4 ∧ s.running .dec = true ∧ s.dec.regs = some r ∧ 2 ^ 4 ≤ r.common.C + 16 := ⟨_, _, rfl, rfl, rfl, rfl, by decide⟩
theorem witness_PolicyVariants : (aboutEnc .ratioMonitored 65536 16).enc.regs = some (encRegs (regs .ratioMonitored 65536 16) few [65, 66] 0) ∧
    (regs .ratioMonitored 65536 16).ratioSet = false ∧ (regs .fullReset 65536 16).mode = .fullReset ∧
    (regs .none 65536 16).mode = .none ∧ (regs .none 65535 16).count ≠ 65536 := ⟨rfl, rfl, rfl, rfl, by decide⟩
theorem witness_RatioCompareCase : ∃ s r, s = encIn (encRegs (monitored 65536 { U := 11, C := 10 } 1 1) few [] 0) ∧ s.enc.phase = .step ∧
    s.enc.regs = some r ∧ s.params.ratio = .exact ∧ r.common.mode = .ratioMonitored ∧ r.common.ratioSet = true ∧
    r.common.oldRatio = some { U := 11, C := 10 } ∧ ¬ 10 * 11 * r.common.C > 11 * 10 * r.common.U := ⟨_, _, rfl, rfl, rfl, rfl, rfl, rfl, rfl, by decide⟩
theorem witness_RatioCompareCase_dec : ∃ s r, s = decIn .loop (decRegs (monitored 65536 { U := 111, C := 100 } 1 1) few none [] 0) ∧
    s.running .dec = true ∧ s.dec.regs = some r ∧ s.params.ratio = .exact ∧ r.common.mode = .ratioMonitored ∧ r.common.ratioSet = true ∧
    r.common.oldRatio = some { U := 111, C := 100 } ∧ 10 * 111 * r.common.C > 11 * 100 * r.common.U :=
  ⟨_, _, rfl, rfl, rfl, rfl, rfl, rfl, rfl, by decide⟩
theorem witness_RatioTestIsTheQuotient : 0 < (Snapshot.mk 11 10).U ∧ 0 < (Snapshot.mk 11 10).C ∧ 0 < (Snapshot.mk 1 1).U ∧
    0 < (Snapshot.mk 1 1).C := by decide

/-! Primitives. -/

theorem witness_StreamPrimitives : (aboutEnc .none 300 9).enc.out = some { bits := [], closed := false } ∧ 65535 < 2 ^ 16 ∧ 1 < 2 ^ 1 ∧
    peekBits [0x21, 0x00] 0 16 = some 0x2100 ∧ peekBits [0x21, 0x00] 1 16 = none ∧
    (aboutDec .none 300 9).dec.out = some { bytes := [], closed := false } := by decide
theorem witness_CloseEndsTheStream : ∃ s t : State, s.enc.out = some { bits := [], closed := true } ∧ 1 < 2 ^ 1 ∧
    t.dec.out = some { bytes := [], closed := true } :=
  ⟨{ State.reset with enc := { State.reset.enc with out := some { bits := [], closed := true } } },
   { State.reset with dec := { State.reset.dec with out := some { bytes := [], closed := true } } }, rfl, by decide, rfl⟩
theorem witness_StorePrimitives : (aboutEnc .none 300 9).Unbounded ∧ few.codeOf [65, 66] = none ∧ few.read 65535 = none ∧
    (aboutDec .none 300 9).running .dec = true ∧ few.read 65 = some [65] := ⟨⟨rfl, rfl⟩, by decide⟩
theorem witness_LongEntriesAreRefused : ∃ s t : State, s = within 1 (aboutEnc .none 300 9) ∧ t = within 1 (aboutDec .none 300 9) ∧
    s.params.seqMax = some 1 ∧ t.params.seqMax = some 1 ∧ 1 < [65, 66].length ∧ s.enc.phase = .step ∧ t.dec.phase = .loop ∧
    few.codeOf [65, 66] = none ∧ few.read 257 = none ∧ insertKey [65] (encRegs (regs .none 300 9) few [65, 66] 0) = [65, 66] ∧
    (encRegs (regs .none 300 9) few [65, 66] 0).CanInsert [65] ∧ (aboutDecRegs .none 300 9).val = some [65] ∧ [66].length ≤ 1 :=
  ⟨_, _, rfl, rfl, rfl, rfl, by decide, rfl, rfl, by decide, by decide, rfl, fun _ => by decide, rfl, by decide⟩

/-- A longest match, a table's sequence and a `D.val` with its first byte that are two bytes long. -/
theorem witness_LongEntriesAreRefused_found : (few.write 257 [65, 66]).longestMatch [65, 66] = some ([65, 66], 257) ∧
    (few.write 257 [65, 66]).read 257 = some [65, 66] ∧ 257 < (regs .none 300 9).count ∧ [65] ++ [65] = [65, 65] := by decide

/-- DEC.FIRST, a LIT row and a sub-step, `D.val` and a literal at one byte with `SEQ_MAX == 0`. -/
theorem witness_LongEntriesAreRefused_first : ∃ s r, s = within 0 (decIn .first (decRegs (regs .none 257 9) few none [0x20, 0x80] 0)) ∧
    FirstReady s r noBytes ∧ r.table.read 65 = some [65] ∧ 0 < [65].length ∧ peekBits r.src r.bitpos r.common.W = some 65 ∧
    (9, Instr.litW9 65) ∈ litUnits 65 := ⟨_, _, rfl, ⟨rfl, rfl, rfl⟩, rfl, by decide, by decide, by decide⟩

/-- Each kind of place in which an instruction is not enabled. -/
theorem witness_OperationsStopWhereNotEnabled :
    enabled .encLookup State.reset = false ∧ enabled (.litW9 65) State.reset = false ∧ enabled (.wcInit .enc) State.reset = false ∧
    enabled .decFirst (aboutDec .none 300 9) = false ∧ enabled .decStep startedDec = false ∧ enabled .decRead startedDec = false ∧
    enabled (.encStart 1) (aboutEnc .none 300 9) = false ∧ enabled .tagNone (aboutDec .none 300 9) = false ∧
    enabled .encStep (encIn (encRegs (regs .none 257 9) few [65] 1)) = false ∧
    enabled .encFinish (encIn (encRegs (regs .none 257 9) few [65] 0)) = false ∧
    enabled .encStep (encIn (encRegs (regs .none 257 9) few [65] 0)) = true ∧
    enabled .encFinish (encIn (encRegs (regs .none 257 9) few [65] 1)) = true := by decide

end Sys2Proof.Tests
end

/-! ## Proofs: the instruction that stands next (StepRunsTheDecodedInstruction) -/

namespace Sys2Proof.Machine

/-! ### Which instruction a command word runs -/

/-- A command word other than an accepted EXPAND runs its own row (rules R104, R105). -/
theorem commandInstr_of_not_accepted_expand {cmd : BitVec 3} {s : State} (h : cmd ≠ 4 ∨ s.running .dec = true) :
    commandInstr cmd s = decodeCommand cmd :=
  if_neg fun ⟨hcmd, hrun⟩ => h.elim (· hcmd) (by simp [hrun])

/-- An accepted EXPAND on a stream that begins with a tag runs the tag's row (rules R91, R170). -/
theorem commandInstr_expand_of_tag {s : State} {i : Instr} {tail : Bits} (hrun : s.running .dec = false)
    (h : decode .header (streamBits s.bitSource) = .ok (i, tail)) : commandInstr 4 s = i := by
  simp [commandInstr, hrun, h]

/-- An accepted EXPAND on a stream too short for a tag runs as EXPAND itself (rules R170, R202). -/
theorem commandInstr_expand_of_no_tag {s : State} {e : Reject} (hrun : s.running .dec = false)
    (h : decode .header (streamBits s.bitSource) = .error e) : commandInstr 4 s = .expand := by
  simp [commandInstr, hrun, h]

/-! ### Which unit the Decoder reads -/

theorem nextUnit_of_no_regs {s : State} (h : s.dec.regs = none) : nextUnit s = none := by simp [nextUnit, h]

theorem nextUnit_of_decode_ok {s : State} {r : DecRegs} {i : Instr} {tail : Bits} (hr : s.dec.regs = some r)
    (h : decode (.codeword r.common.W) ((streamBits r.src).drop r.bitpos) = .ok (i, tail)) : nextUnit s = some i := by
  simp [nextUnit, hr, h]

theorem nextUnit_of_decode_error {s : State} {r : DecRegs} {e : Reject} (hr : s.dec.regs = some r)
    (h : decode (.codeword r.common.W) ((streamBits r.src).drop r.bitpos) = .error e) : nextUnit s = none := by
  simp [nextUnit, hr, h]

/-- The unit that stands next in `v` runs, or `d` where none does. -/
theorem exec_nextUnit_getD (d : Instr) (u v : State) :
    (v.dec.regs = none → exec ((nextUnit v).getD d) u = exec d u) ∧
    ∀ r, v.dec.regs = some r →
      (∀ i tail, decode (.codeword r.common.W) ((streamBits r.src).drop r.bitpos) = .ok (i, tail) →
        exec ((nextUnit v).getD d) u = exec i u) ∧
      (∀ e, decode (.codeword r.common.W) ((streamBits r.src).drop r.bitpos) = .error e →
        exec ((nextUnit v).getD d) u = exec d u) :=
  ⟨fun hr => by rw [nextUnit_of_no_regs hr, Option.getD_none], fun _ hr =>
    ⟨fun _ _ hd => by rw [nextUnit_of_decode_ok hr hd, Option.getD_some],
      fun _ hd => by rw [nextUnit_of_decode_error hr hd, Option.getD_none]⟩⟩

/-- DEC.STEP reads its unit in the state that DEC.OUTPUT and DEC.POLICY leave (rules R172, R175). -/
theorem nextLoopUnit_of_go {s t : State} (h : ((decOutput s).bind fun _ => decPolicy) = .go () t) :
    nextLoopUnit s = nextUnit t := by
  simp [nextLoopUnit, h]

/-- DEC.STEP reads no unit where DEC.OUTPUT or DEC.POLICY does not go on. -/
theorem nextLoopUnit_of_not_go {s : State} (h : ∀ t, ((decOutput s).bind fun _ => decPolicy) ≠ .go () t) :
    nextLoopUnit s = none := by
  unfold nextLoopUnit
  cases hm : (decOutput s).bind fun _ => decPolicy with
  | go a t => exact absurd hm (h t)
  | ended t => rfl
  | fault f => rfl
  | refused r => rfl

/-! ### What an engine runs next -/

theorem running_enc_iff {s : State} : s.running .enc = true ↔ s.enc.phase = .step := by simp [State.running]

theorem running_dec_iff {s : State} : s.running .dec = true ↔ s.dec.phase = .first ∨ s.dec.phase = .loop := by
  simp [State.running]

theorem engineInstr_enc_of_no_regs {s : State} (hp : s.enc.phase = .step) (hr : s.enc.regs = none) :
    engineInstr .enc s = some .encStep := by
  simp [engineInstr, running_enc_iff.2 hp, hr]

theorem engineInstr_enc_of_input_left {s : State} {r : EncRegs} (hp : s.enc.phase = .step) (hr : s.enc.regs = some r)
    (h : r.pos < r.inp.length) : engineInstr .enc s = some .encStep := by
  simp [engineInstr, running_enc_iff.2 hp, hr, h]

theorem engineInstr_enc_of_no_input_left {s : State} {r : EncRegs} (hp : s.enc.phase = .step) (hr : s.enc.regs = some r)
    (h : r.inp.length ≤ r.pos) : engineInstr .enc s = some .encFinish := by
  simp [engineInstr, running_enc_iff.2 hp, hr, Nat.not_lt.2 h]

theorem engineInstr_dec_first {s : State} (hp : s.dec.phase = .first) :
    engineInstr .dec s = some ((nextUnit s).getD .decFirst) := by
  simp [engineInstr, hp]

theorem engineInstr_dec_loop {s : State} (hp : s.dec.phase = .loop) :
    engineInstr .dec s = some ((nextLoopUnit s).getD .decStep) := by
  simp [engineInstr, hp]

/-- An engine that is not inside an invocation does nothing until it is started (rule R219). -/
theorem engineInstr_of_not_running {x : Engine} {s : State} (h : s.running x = false) : engineInstr x s = none := by
  cases x with
  | enc => simp [engineInstr, h]
  | dec => cases hp : s.dec.phase <;> simp_all [engineInstr, State.running]

/-! ### What a step fetches and runs -/

theorem fetch_of_command {s : State} {cmd : BitVec 3} {input : Bytes} {rest : List Event}
    (h : s.host = .command cmd input :: rest) :
    fetch s = (some (commandInstr cmd (connect cmd input { s with host := rest })),
      connect cmd input { s with host := rest }) := by
  simp [fetch, h]

/-- Where an engine moves, by its turn or with no event, its next operation is fetched (rule R217). -/
theorem fetch_of_moves {s u : State} {x : Engine} (h : Moves s x u) : fetch s = (engineInstr x u, u) := by
  rcases h with ⟨rest, hh, rfl⟩ | ⟨hh, rfl, rfl⟩
  · simp [fetch, hh]
  · by_cases hp : u.enc.phase = .step <;> simp [fetch, hh, State.running, hp]

theorem step_of_fetch_some {s u : State} {i : Instr} (h : fetch s = (some i, u)) : step s = exec i u := by
  simp [step, h]

theorem step_of_fetch_none {s u : State} (h : fetch s = (none, u)) : step s = .next u := by simp [step, h]

theorem step_of_command {s : State} {cmd : BitVec 3} {input : Bytes} {rest : List Event} {i : Instr}
    (h : s.host = .command cmd input :: rest) (hi : commandInstr cmd (connect cmd input { s with host := rest }) = i) :
    step s = exec i (connect cmd input { s with host := rest }) :=
  step_of_fetch_some (hi ▸ fetch_of_command h)

theorem step_of_moves {s u : State} {x : Engine} {i : Instr} (h : Moves s x u) (hi : engineInstr x u = some i) :
    step s = exec i u :=
  step_of_fetch_some (hi ▸ fetch_of_moves h)

theorem step_of_moves_not_running {s u : State} {x : Engine} (h : Moves s x u) (hrun : u.running x = false) :
    step s = .next u :=
  step_of_fetch_none (engineInstr_of_not_running hrun ▸ fetch_of_moves h)

/-- In phase FIRST the unit at `D.bitpos` runs, or DEC.FIRST where there is none (rules R95, R171). -/
theorem step_of_moves_first {s u : State} (h : Moves s .dec u) (hp : u.dec.phase = .first) :
    step s = exec ((nextUnit u).getD .decFirst) u :=
  step_of_moves h (engineInstr_dec_first hp)

/-- In phase LOOP the unit that DEC.STEP reads runs, or DEC.STEP where there is none (rules R95, R172). -/
theorem step_of_moves_loop {s u : State} (h : Moves s .dec u) (hp : u.dec.phase = .loop) :
    step s = exec ((nextLoopUnit u).getD .decStep) u :=
  step_of_moves h (engineInstr_dec_loop hp)

/-- Settles O19, by the cases of `fetch`: a command, a move of the Encoder, a move of the Decoder in FIRST and in LOOP, and
an engine that does not run. -/
theorem stepRunsTheDecodedInstruction : Obligations.StepRunsTheDecodedInstruction := by
  refine ⟨?command, ?encoder, ?first, ?loop, ?idleTurn, ?idle⟩
  case command =>
    intro s cmd input rest hh
    refine ⟨fun h => step_of_command hh (commandInstr_of_not_accepted_expand h), ?_⟩
    rintro rfl hrun
    exact ⟨fun i tail hd => step_of_command hh (commandInstr_expand_of_tag hrun hd),
      fun e hd => step_of_command hh (commandInstr_expand_of_no_tag hrun hd)⟩
  case encoder =>
    intro s u hm hp
    exact ⟨fun hr => step_of_moves hm (engineInstr_enc_of_no_regs hp hr), fun r hr =>
      ⟨fun h => step_of_moves hm (engineInstr_enc_of_input_left hp hr h),
        fun h => step_of_moves hm (engineInstr_enc_of_no_input_left hp hr h)⟩⟩
  case first =>
    intro s u hm hp
    rw [step_of_moves_first hm hp]
    exact exec_nextUnit_getD .decFirst u u
  case loop =>
    intro s u hm hp
    rw [step_of_moves_loop hm hp]
    refine ⟨fun v hv => ?_, fun hv => by rw [nextLoopUnit_of_not_go hv, Option.getD_none]⟩
    rw [nextLoopUnit_of_go hv]
    exact exec_nextUnit_getD .decStep u v
  case idleTurn =>
    intro s x rest hh hrun
    have hm : Moves s x { s with host := rest } := .inl ⟨rest, hh, rfl⟩
    exact step_of_moves_not_running hm (by cases x <;> exact hrun)
  case idle =>
    intro s hh henc hdec
    have hp : s.enc.phase ≠ .step := fun h => by simp [running_enc_iff.2 h] at henc
    exact step_of_moves_not_running (.inr ⟨hh, rfl, (if_neg hp).symm⟩) hdec

end Sys2Proof.Machine

/-! ## Proofs: a sequence longer than `SEQ_MAX` (LongEntriesAreRefused) -/

namespace Sys2Proof.Machine

theorem seqFits_of_le {s : State} {n : Nat} {q : Bytes} (h : s.params.seqMax = some n) (hq : q.length ≤ n) :
    seqFits s.params.seqMax q = true := by
  simp [seqFits, h, hq]

theorem tableRead_of_read {s : State} {r : DecRegs} {i : Nat} {q : Bytes} (hr : s.dec.regs = some r) (hi : i < 65536)
    (h : r.table.read i = some q) : tableRead i s = .go q s := by
  simp [tableRead, Config.ceiling, Nat.not_le.2 hi, readDec_some hr, h]

/-- A literal row of width `w` is the unit of its byte's value at this width (rules R96, R99). -/
theorem exec_litUnit {b : Byte} {p : Nat × Instr} (h : p ∈ litUnits b) (s : State) :
    exec p.2 s = runCodeword p.1 b.toNat s := by
  simp only [litUnits, List.mem_cons, List.not_mem_nil, or_false] at h
  rcases h with rfl | rfl | rfl | rfl | rfl | rfl | rfl | rfl <;> rfl

section
variable {s : State} {n : Nat} {q : Bytes} (hmax : s.params.seqMax = some n) (hlong : n < q.length)
include hmax hlong

/-! ### The Encoder's operations -/

theorem encLookup_long {r : EncRegs} {c : Nat} (hr : s.enc.regs = some r)
    (hm : r.dict.longestMatch (r.inp.drop r.pos) = some (q, c)) : encLookup s = .refused .seqTooLong := by
  simp [encLookup, longestPrefix, readEnc_some hr, hm, holdSeq_long hmax hlong]

theorem dictInsert_long {r : EncRegs} {code : Nat} (hr : s.enc.regs = some r) (hcode : code < 65536)
    (hkey : r.dict.codeOf q = none) (hnew : r.dict.read code = none) :
    dictInsert q code s = .refused .seqTooLong := by
  have hq : q ≠ [] := List.ne_nil_of_length_pos (by omega)
  simp [dictInsert, readEnc_some hr, hq, Config.ceiling, Nat.not_le.2 hcode, hkey, hnew, holdSeq_long hmax hlong]

theorem encInsert_long {r : EncRegs} {p : Bytes} (hr : s.enc.regs = some r) (hkey : insertKey p r = q)
    (hpos : r.pos + p.length < r.inp.length) (hcount : r.common.count < r.common.L) (hcan : r.CanInsert p) :
    encInsert p s = .refused .seqTooLong := by
  obtain ⟨hcode, hnew, hcodeOf⟩ := hcan ⟨hpos, hcount⟩
  subst hkey
  simp [encInsert, readEnc_some hr, hpos, hcount, dictInsert_long hmax hlong hr hcode hcodeOf hnew]

/-! ### The Decoder's operations -/

theorem tableWrite_long {r : DecRegs} {i : Nat} (hr : s.dec.regs = some r) (hi : i < 65536) :
    tableWrite i q s = .refused .seqTooLong := by
  have hq : q ≠ [] := List.ne_nil_of_length_pos (by omega)
  simp [tableWrite, Config.ceiling, Nat.not_le.2 hi, hq, readDec_some hr, holdSeq_long hmax hlong]

/-- An assigned codeword below the count (rule R176). -/
theorem decResolve_assigned_long {r : DecRegs} {cw : Nat} (hr : s.dec.regs = some r) (hcw : cw < r.common.count)
    (hi : cw < 65536) (hq : r.table.read cw = some q) : decResolve cw s = .refused .seqTooLong := by
  simp [decResolve, readDec_some hr, Nat.not_lt.2 hcw.le, hcw.ne, tableRead_of_read hr hi hq, holdSeq_long hmax hlong]

/-- The codeword at the count, `D.val` followed by its own first byte (rule R176). -/
theorem decResolve_kwkwk_long {r : DecRegs} {f : Byte} {p : Bytes} (hr : s.dec.regs = some r)
    (hval : r.val = some (f :: p)) (hq : q = f :: p ++ [f]) :
    decResolve r.common.count s = .refused .seqTooLong := by
  have hbuilt : r.val.bind (fun v => appendFirst v v) = some q := by simp [hval, appendFirst, hq]
  simp [decResolve, readDec_some hr, hbuilt, holdSeq_long hmax hlong]

theorem decInsert_long {r : DecRegs} {v : Bytes} {f : Byte} {p : Bytes} (hr : s.dec.regs = some r)
    (hval : r.val = some v) (hq : q = v ++ [f]) (hcount : r.common.count < r.common.L)
    (hcode : r.common.count < 65536) : decInsert (f :: p) s = .refused .seqTooLong := by
  subst hq
  simp [decInsert, readDec_some hr, hcount, hval, appendFirst, tableWrite_long hmax hlong hr hcode]

/-- At the first codeword position a literal whose sequence `D.val` cannot hold, however the codeword was read
(rule R171). -/
theorem decFirstBody_long {rd : State → Run (Option Nat)} {r t : DecRegs} {b : Byte}
    (hrd : rd s = .go (some b.toNat) (s.setDec t)) (htable : t.table = r.table) (hq : r.table.read b.toNat = some q) :
    decFirstBody rd s = .refused .seqTooLong := by
  have hb : b.toNat < 256 := b.isLt
  have hread : tableRead b.toNat (s.setDec t) = .go q (s.setDec t) :=
    tableRead_of_read (State.setDec_regs t s) (by omega) (htable ▸ hq)
  have hhold : holdSeq q (s.setDec t) = .refused .seqTooLong := holdSeq_long (by simpa using hmax) hlong
  simp [decFirstBody, hrd, Config.eofCode, hb.ne, Nat.not_lt.2 hb.le, hread, hhold]

end

/-- Settles O59, each operation by its own refusal: those given `q`, those that find or build it, and the first literal. -/
theorem longEntriesAreRefused : Obligations.LongEntriesAreRefused := by
  intro s n q hmax hlong
  refine ⟨?encoder, ?tableWrite, ?loop, ?first⟩
  case encoder =>
    intro r hp hr
    have hrun := running_enc_iff.2 hp
    have given (k : State → Run Unit) : (whenEnabled (s.running .enc) (givenSeq q k s)).outcome = .refused .seqTooLong := by
      simp [hrun, givenSeq_long hmax hlong]
    refine ⟨fun c => given (encEmit q c), given (encInsert q), given (encAdvance q), fun c hm => ?found,
      fun code hcode hkey hnew => ?insert, fun p hfit hkey hpos hcan hcount => ?build⟩
    case found =>
      have hlookup := encLookup_long hmax hlong hr hm
      exact ⟨by simp [exec, execEncLookup, hrun, hlookup],
        fun hpos => by simp [exec, execEncStep, hrun, readEnc_some hr, hpos, encStepBody, hlookup]⟩
    case insert => simp [exec, execDictInsert, hrun, dictInsert_long hmax hlong hr hcode hkey hnew]
    case build =>
      simp [exec, execEncInsert, hrun, givenSeq_fits (seqFits_of_le hmax hfit),
        encInsert_long hmax hlong hr hkey hpos hcount hcan]
  case tableWrite =>
    intro r i hrun hr hi
    simp [exec, execTableWrite, hrun, tableWrite_long hmax hlong hr hi]
  case loop =>
    intro r hp hr
    refine ⟨by simp [exec, execDecInsert, hp, givenSeq_long hmax hlong],
      by simp [exec, execDecAdvance, hp, givenSeq_long hmax hlong], fun cw hcw hi hq => ?assigned,
      fun f p hval hq => ?kwkwk, fun v f p hval hq hfit hcount hcode => ?build⟩
    case assigned => simp [exec, execDecResolve, hp, decResolve_assigned_long hmax hlong hr hcw hi hq]
    case kwkwk => simp [exec, execDecResolve, hp, decResolve_kwkwk_long hmax hlong hr hval hq]
    case build =>
      simp [exec, execDecInsert, hp, givenSeq_fits (seqFits_of_le hmax hfit),
        decInsert_long hmax hlong hr hval hq hcount hcode]
  case first =>
    intro r o b hready hq
    have refuses {rd : State → Run (Option Nat)}
        (hrd : rd s = .go (some b.toNat) (s.setDec (consumeUnit r.common.W r))) :
        decFirstBody rd s = .refused .seqTooLong := decFirstBody_long hmax hlong hrd rfl hq
    refine ⟨fun p hmem hw => ?literal, fun h1 h16 hpeek => ?stream⟩
    case literal =>
      rw [exec_litUnit hmem, hw]
      simp [runCodeword, decUnit, hready.phase, refuses (presentUnit_regs b.toNat hready.regs)]
    case stream =>
      have hread : readUnit s = .go (some b.toNat) (s.setDec (consumeUnit r.common.W r)) := by
        rw [readUnit_regs hready.regs ⟨h1, h16⟩, hpeek]
      simp [exec, execDecFirst, hready.phase, refuses hread]

end Sys2Proof.Machine

/-! ## Proofs: the two engines share nothing (InstructionsTouchOneEngine, EnginesLearnNothingOfEachOther)

Both statements come from one equation: an operation of engine `x` commutes with grafting the side of `x` onto another
state that has the same parameters (`OnEngine`). The equation holds of each operation and is kept by composition. -/

namespace Sys2Proof.Machine

/-- The side of engine `x` and the returned value from `s`, everything else from `u`. -/
def State.graft (x : Engine) (s u : State) : State :=
  match x with
  | .enc => { u with enc := s.enc, byteSource := s.byteSource, ret := s.ret }
  | .dec => { u with dec := s.dec, bitSource := s.bitSource, ret := s.ret }

@[simp] theorem State.graft_enc_enc (s u : State) : (s.graft .enc u).enc = s.enc := rfl
@[simp] theorem State.graft_dec_dec (s u : State) : (s.graft .dec u).dec = s.dec := rfl
@[simp] theorem State.graft_params (x : Engine) (s u : State) : (s.graft x u).params = u.params := by cases x <;> rfl
@[simp] theorem State.graft_host (x : Engine) (s u : State) : (s.graft x u).host = u.host := by cases x <;> rfl
@[simp] theorem State.graft_self (x : Engine) (s : State) : s.graft x s = s := by cases x <;> rfl
@[simp] theorem State.graft_running (x : Engine) (s u : State) : (s.graft x u).running x = s.running x := by cases x <;> rfl

/-- Change the state that an operation leaves. -/
def Run.mapState {α : Type} (f : State → State) : Run α → Run α
  | .go a s => .go a (f s)
  | .ended s => .ended (f s)
  | .fault e => .fault e
  | .refused r => .refused r

/-- Change the next state of an outcome. -/
def mapNext (f : State → State) : Host.Outcome State Fault Refusal → Host.Outcome State Fault Refusal
  | .next s => .next (f s)
  | .fault e => .fault e
  | .refused r => .refused r

/-- The operation `k` reads and writes the side of engine `x` and the parameters only. -/
def OnEngine {α : Type} (x : Engine) (k : State → Run α) : Prop :=
  ∀ s u, u.params = s.params → k (s.graft x u) = (k s).mapState (·.graft x u)

/-- An instruction's meaning `f` reads and writes the side of engine `x` and the parameters only. -/
def OutcomeOnEngine (x : Engine) (f : State → Host.Outcome State Fault Refusal) : Prop :=
  ∀ s u, u.params = s.params → f (s.graft x u) = mapNext (·.graft x u) (f s)

/-! ### Composition -/

section
variable {α β : Type} {x : Engine}

/-- What an operation of one engine leaves is a graft onto the state it began with. -/
theorem OnEngine.go_eq_graft {k : State → Run α} (hk : OnEngine x k) {s t : State} {a : α} (h : k s = .go a t) :
    t = t.graft x s := by
  have := hk s s rfl
  rw [State.graft_self, h] at this
  exact (Run.go.inj this).2

theorem OnEngine.go_params {k : State → Run α} (hk : OnEngine x k) {s t : State} {a : α} (h : k s = .go a t) :
    t.params = s.params := by
  rw [hk.go_eq_graft h, State.graft_params]

theorem OnEngine.bind {m : State → Run α} {k : α → State → Run β} (hm : OnEngine x m) (hk : ∀ a, OnEngine x (k a)) :
    OnEngine x fun s => (m s).bind (k · ·) := by
  intro s u hu
  simp only [hm s u hu]
  cases h : m s with
  | go a t => exact hk a t u (hu.trans (hm.go_params h).symm)
  | ended t => rfl
  | fault f => rfl
  | refused r => rfl

/-- An operation that first looks at its own side or the parameters. -/
theorem OnEngine.reads {f : State → β} (hf : ∀ s u, u.params = s.params → f (s.graft x u) = f s)
    {k : β → State → Run α} (hk : ∀ b, OnEngine x (k b)) : OnEngine x fun s => k (f s) s := by
  intro s u hu
  simp only [hf s u hu, hk (f s) s u hu]

theorem OnEngine.ite {p : Prop} [Decidable p] {k l : State → Run α} (hk : OnEngine x k) (hl : OnEngine x l) :
    OnEngine x fun s => if p then k s else l s := by
  by_cases h : p
  · simpa only [h, if_true] using hk
  · simpa only [h, if_false] using hl

/-- An operation that changes the state by `f` and returns. -/
theorem OnEngine.update (a : α) {f : State → State} (hf : ∀ s u, f (s.graft x u) = (f s).graft x u) :
    OnEngine x fun s => Run.go a (f s) := by
  intro s u _
  simp only [hf, Run.mapState]

/-- An operation that runs on the state changed by `f`. -/
theorem OnEngine.after {f : State → State} (hf : ∀ s u, f (s.graft x u) = (f s).graft x u) {k : State → Run α}
    (hk : OnEngine x k) : OnEngine x fun s => k (f s) :=
  (OnEngine.update () hf).bind fun _ => hk

theorem OnEngine.go (a : α) : OnEngine x fun s => Run.go a s := OnEngine.update a fun _ _ => rfl

theorem OnEngine.fault (e : Fault) : OnEngine x fun _ => (Run.fault e : Run α) := fun _ _ _ => rfl

theorem OnEngine.refused (r : Refusal) : OnEngine x fun _ => (Run.refused r : Run α) := fun _ _ _ => rfl

theorem OnEngine.ended {f : State → State} (hf : ∀ s u, f (s.graft x u) = (f s).graft x u) :
    OnEngine x fun s => (Run.ended (f s) : Run α) := by
  intro s u _
  simp only [hf, Run.mapState]

theorem OnEngine.whenEnabled {b : State → Bool} (hb : ∀ s u, b (s.graft x u) = b s) {k : State → Run α}
    (hk : OnEngine x k) : OnEngine x fun s => whenEnabled (b s) (k s) :=
  OnEngine.reads (f := b) (k := fun b s => Machine.whenEnabled b (k s)) (fun s u _ => hb s u) fun _ =>
    OnEngine.ite hk (OnEngine.fault _)

theorem OnEngine.whenRunning {k : State → Run α} (hk : OnEngine x k) :
    OnEngine x fun s => Machine.whenEnabled (s.running x) (k s) :=
  OnEngine.whenEnabled (State.graft_running x) hk

theorem OnEngine.outcome {k : State → Run α} (hk : OnEngine x k) : OutcomeOnEngine x fun s => (k s).outcome := by
  intro s u hu
  simp only [hk s u hu]
  cases k s <;> rfl

theorem OnEngine.outcomeRet {k : State → Run α} (hk : OnEngine x k) (f : α → Ret) :
    OutcomeOnEngine x fun s => (k s).outcomeRet f := by
  intro s u hu
  simp only [hk s u hu]
  cases k s with
  | go a t => cases x <;> rfl
  | ended t => rfl
  | fault e => rfl
  | refused r => rfl

end

/-! ### The operations that both engines share -/

theorem raiseFault_onEngine {α : Type} (x : Engine) (code : FaultCode) (info : Option Nat) :
    OnEngine x (raiseFault x code info : State → Run α) :=
  OnEngine.ended fun _ _ => by cases x <;> rfl

theorem readEnc_onEngine : OnEngine .enc readEnc := by
  intro s u _
  simp only [readEnc, State.graft_enc_enc]
  cases s.enc.regs <;> rfl

theorem readDec_onEngine : OnEngine .dec readDec := by
  intro s u _
  simp only [readDec, State.graft_dec_dec]
  cases s.dec.regs <;> rfl

theorem setEnc_onEngine (r : EncRegs) : OnEngine .enc fun s => Run.go () (s.setEnc r) := OnEngine.update () fun _ _ => rfl

theorem setDec_onEngine {α : Type} (a : α) (r : DecRegs) : OnEngine .dec fun s => Run.go a (s.setDec r) :=
  OnEngine.update a fun _ _ => rfl

theorem readCommon_onEngine (x : Engine) : OnEngine x (readCommon x) := by
  cases x with
  | enc => exact readEnc_onEngine.bind fun _ => OnEngine.go _
  | dec => exact readDec_onEngine.bind fun _ => OnEngine.go _

theorem writeCommon_onEngine (x : Engine) (c : Common) : OnEngine x (writeCommon x c) := by
  cases x with
  | enc => exact readEnc_onEngine.bind fun _ => setEnc_onEngine _
  | dec => exact readDec_onEngine.bind fun _ => setDec_onEngine _ _

theorem holdSeq_onEngine (x : Engine) (q : Bytes) : OnEngine x (holdSeq q) :=
  OnEngine.reads (f := fun s => seqFits s.params.seqMax q) (k := fun b s => if b then .go () s else .refused .seqTooLong)
    (fun _ _ hu => by simp only [State.graft_params, hu]) fun _ => OnEngine.ite (OnEngine.go _) (OnEngine.refused _)

theorem OnEngine.givenSeq {α : Type} {x : Engine} {k : State → Run α} (q : Bytes) (hk : OnEngine x k) :
    OnEngine x (givenSeq q k) :=
  (holdSeq_onEngine x q).bind fun _ => hk

theorem closeSink_onEngine (x : Engine) : OnEngine x (closeSink x) := by
  intro s u _
  cases x with
  | enc => simp only [closeSink, State.graft_enc_enc]; cases s.enc.out <;> rfl
  | dec => simp only [closeSink, State.graft_dec_dec]; cases s.dec.out <;> rfl

theorem growIfReached_onEngine (x : Engine) : OnEngine x (growIfReached x) :=
  (readCommon_onEngine x).bind fun _ => OnEngine.ite (writeCommon_onEngine x _) (OnEngine.go _)

theorem accountBits_onEngine (x : Engine) (ubits cbits : Nat) : OnEngine x (accountBits x ubits cbits) :=
  (readCommon_onEngine x).bind fun c =>
    OnEngine.reads (f := fun s => s.params.cntW)
      (k := fun w s => if counterOverflows w (c.U + ubits) || counterOverflows w (c.C + cbits) then
        raiseFault x .counterOverflow none s
        else writeCommon x { c with U := c.U + ubits, C := c.C + cbits } s)
      (fun _ _ hu => by simp only [State.graft_params, hu]) fun _ =>
      OnEngine.ite (raiseFault_onEngine x _ _) (writeCommon_onEngine x _)

/-- How RP.EVAL and its variants end: the condition returned and the policy registers written. -/
theorem writeEval_onEngine (x : Engine) (e : Option (Bool × Common)) :
    OnEngine x fun s => match e with
      | none => Run.fault .noValue
      | some (fire, c) => (writeCommon x c s).bind fun _ s => .go fire s := by
  cases e with
  | none => exact OnEngine.fault _
  | some e => exact (writeCommon_onEngine x _).bind fun _ => OnEngine.go _

theorem runEval_onEngine (x : Engine) : OnEngine x (runEval x) :=
  (readCommon_onEngine x).bind fun c =>
    OnEngine.reads (f := fun s => evalPolicy s.params.ratio c) (k := fun e s => match e with
      | none => Run.fault .noValue
      | some (fire, c) => (writeCommon x c s).bind fun _ s => .go fire s)
      (fun _ _ hu => by simp only [State.graft_params, hu]) (writeEval_onEngine x)

theorem dictSeed_onEngine : OnEngine .enc dictSeed := readEnc_onEngine.bind fun _ => setEnc_onEngine _

theorem tableSeed_onEngine : OnEngine .dec tableSeed := readDec_onEngine.bind fun _ => setDec_onEngine _ _

theorem resetDict_onEngine (x : Engine) : OnEngine x (resetDict x) := by
  have hwrite : OnEngine x fun s => (readCommon x s).bind fun c s =>
      writeCommon x (initWidth { c with count := Config.firstDyn }) s :=
    (readCommon_onEngine x).bind fun _ => writeCommon_onEngine x _
  cases x with
  | enc => exact dictSeed_onEngine.bind fun _ => hwrite
  | dec => exact tableSeed_onEngine.bind fun _ => hwrite

theorem applyPolicy_onEngine (x : Engine) : OnEngine x (applyPolicy x) :=
  (runEval_onEngine x).bind fun _ => OnEngine.ite (resetDict_onEngine x) (OnEngine.go _)

theorem runVariant_onEngine (x : Engine) (inCase : Common → Bool) {variant : State → Common → Option (Bool × Common)}
    (hv : ∀ c s u, u.params = s.params → variant (s.graft x u) c = variant s c) :
    OnEngine x (runVariant x inCase variant) :=
  ((readCommon_onEngine x).bind fun c => OnEngine.ite
    (OnEngine.reads (f := fun s => variant s c) (k := fun e s => match e with
      | none => Run.fault .noValue
      | some (fire, c) => (writeCommon x c s).bind fun _ s => .go fire s) (hv c) (writeEval_onEngine x))
    (OnEngine.fault _)).whenRunning

/-! ### The Encoder's operations -/

theorem putBits_onEngine (v n : Nat) : OnEngine .enc (putBits v n) := by
  intro s u _
  simp only [putBits, State.graft_enc_enc]
  by_cases hn : putBitsOk v n = true
  · simp only [hn, if_true]
    cases s.enc.out with
    | none => rfl
    | some o => cases hc : o.closed <;> simp [Run.mapState, State.graft, hc]
  · simp only [hn]; rfl

theorem readAllBytes_onEngine : OnEngine .enc readAllBytes := fun _ _ _ => rfl

theorem encStart_onEngine (m : BitVec 2) : OnEngine .enc (encStart m) := by
  unfold encStart
  cases modeOfNumber m.toNat with
  | none => exact OnEngine.ended fun _ _ => rfl
  | some mode =>
    refine OnEngine.after (f := State.clearOut .enc) (fun _ _ => rfl) (readAllBytes_onEngine.bind fun inp => ?_)
    exact OnEngine.after (f := fun s => { s with enc := { s.enc with
        fault := .none, info := none
        regs := some { common := startCommon mode, dict := Store.seed, inp := inp, pos := 0 } } }) (fun _ _ => rfl)
      ((putBits_onEngine (modeNumber mode) Config.headerW).bind fun _ => OnEngine.update () fun _ _ => rfl)

theorem longestPrefix_onEngine (rest : Bytes) : OnEngine .enc (longestPrefix rest) :=
  readEnc_onEngine.bind fun r => by
    cases r.dict.longestMatch rest with
    | none => exact OnEngine.fault _
    | some b => exact OnEngine.go _

theorem encLookup_onEngine : OnEngine .enc encLookup :=
  readEnc_onEngine.bind fun _ => (longestPrefix_onEngine _).bind fun _ => (holdSeq_onEngine _ _).bind fun _ => OnEngine.go _

theorem encEmit_onEngine (q : Bytes) (c : Nat) : OnEngine .enc (encEmit q c) :=
  readEnc_onEngine.bind fun _ => (putBits_onEngine _ _).bind fun _ => accountBits_onEngine .enc _ _

theorem dictInsert_onEngine (key : Bytes) (code : Nat) : OnEngine .enc (dictInsert key code) :=
  readEnc_onEngine.bind fun _ => OnEngine.ite (OnEngine.fault _) ((holdSeq_onEngine _ _).bind fun _ => setEnc_onEngine _)

theorem encInsert_onEngine (q : Bytes) : OnEngine .enc (encInsert q) :=
  readEnc_onEngine.bind fun _ => OnEngine.ite
    ((dictInsert_onEngine _ _).bind fun _ => writeCommon_onEngine .enc _) (OnEngine.go _)

theorem encAdvance_onEngine (q : Bytes) : OnEngine .enc (encAdvance q) := readEnc_onEngine.bind fun _ => setEnc_onEngine _

theorem encStepBody_onEngine : OnEngine .enc encStepBody :=
  encLookup_onEngine.bind fun _ => (encEmit_onEngine _ _).bind fun _ => (applyPolicy_onEngine .enc).bind fun _ =>
    (encInsert_onEngine _).bind fun _ => (growIfReached_onEngine .enc).bind fun _ => encAdvance_onEngine _

theorem encFinishBody_onEngine : OnEngine .enc encFinishBody :=
  readEnc_onEngine.bind fun _ => (putBits_onEngine _ _).bind fun _ => (closeSink_onEngine .enc).bind fun _ =>
    OnEngine.update () fun _ _ => rfl

theorem encCommand_onEngine (m : BitVec 2) : OutcomeOnEngine .enc (encCommand m) := by
  intro s u hu
  have hrun : (s.graft .enc u).running .enc = s.running .enc := State.graft_running .enc s u
  simp only [encCommand, hrun, (encStart_onEngine m).outcome s u hu]
  cases s.running .enc <;> rfl

/-! ### The Decoder's operations -/

theorem tableRead_onEngine (i : Nat) : OnEngine .dec (tableRead i) :=
  OnEngine.ite (OnEngine.fault _) (readDec_onEngine.bind fun r => by
    cases r.table.read i with
    | none => exact OnEngine.fault _
    | some q => exact OnEngine.go _)

theorem tableWrite_onEngine (i : Nat) (q : Bytes) : OnEngine .dec (tableWrite i q) :=
  OnEngine.ite (OnEngine.fault _) (readDec_onEngine.bind fun _ => (holdSeq_onEngine _ _).bind fun _ => setDec_onEngine _ _)

theorem getBits_onEngine (n : Nat) : OnEngine .dec (getBits n) :=
  OnEngine.ite (readDec_onEngine.bind fun r => by
    cases peekBits r.src r.bitpos n with
    | none => exact OnEngine.go _
    | some v => exact setDec_onEngine _ _) (OnEngine.fault _)

theorem writeBytes_onEngine (q : Bytes) : OnEngine .dec (writeBytes q) := by
  intro s u _
  simp only [writeBytes, State.graft_dec_dec]
  cases s.dec.out with
  | none => rfl
  | some o => cases hc : o.closed <;> simp [Run.mapState, State.graft, hc]

theorem decStart_onEngine (low : BitVec 2) (tag : Option Nat) : OnEngine .dec (decStart low tag) := by
  refine OnEngine.ite (OnEngine.ended fun _ _ => rfl) ?_
  cases tag with
  | none => exact OnEngine.ended fun _ _ => rfl
  | some t =>
    cases hm : modeOfNumber t with
    | none => simp only [hm]; exact OnEngine.ended fun _ _ => rfl
    | some mode => simp only [hm]; exact OnEngine.update () fun _ _ => rfl

theorem decStartHeader_onEngine (low : BitVec 2) : OnEngine .dec fun s => decStart low (headerTag s) s :=
  OnEngine.reads (f := headerTag) (fun _ _ _ => rfl) (decStart_onEngine low)

theorem raisePremature_onEngine {α : Type} : OnEngine .dec (raisePremature : State → Run α) :=
  readDec_onEngine.bind fun _ => raiseFault_onEngine .dec _ _

theorem readUnit_onEngine : OnEngine .dec readUnit :=
  readDec_onEngine.bind fun _ => (getBits_onEngine _).bind fun v => by
    cases v with
    | none => exact OnEngine.go _
    | some c => exact setDec_onEngine _ _

theorem presentUnit_onEngine (w c : Nat) : OnEngine .dec (presentUnit w c) :=
  readDec_onEngine.bind fun _ => OnEngine.ite (setDec_onEngine _ _) (OnEngine.fault _)

theorem presentClass_onEngine (k : UnitClass) (c : Nat) : OnEngine .dec (presentClass k c) :=
  readDec_onEngine.bind fun r => OnEngine.reads (f := fun s => s.dec.phase)
    (k := fun p s => if c < 2 ^ r.common.W ∧ unitClass (decide (p = .first)) r.common.count c = k then
      .go (some c) (s.setDec (consumeUnit r.common.W r)) else .fault .wrongClass)
    (fun _ _ _ => rfl) fun _ => OnEngine.ite (setDec_onEngine _ _) (OnEngine.fault _)

theorem decFinishBody_onEngine : OnEngine .dec decFinishBody :=
  (closeSink_onEngine .dec).bind fun _ => OnEngine.update () fun _ _ => rfl

theorem decOutput_onEngine : OnEngine .dec decOutput :=
  readDec_onEngine.bind fun r => OnEngine.reads (f := fun s => accountWidth s.params r)
    (k := fun w s => match r.val, w with
      | some q, some w => (writeBytes q s).bind fun _ s => accountBits .dec (8 * q.length) w s
      | _, _ => .fault .noValue)
    (fun _ _ hu => by simp only [State.graft_params, hu]) fun w => by
      cases r.val with
      | none => exact OnEngine.fault _
      | some q =>
        cases w with
        | none => exact OnEngine.fault _
        | some w => exact (writeBytes_onEngine q).bind fun _ => accountBits_onEngine .dec _ _

theorem decResolve_onEngine (cw : Nat) : OnEngine .dec (decResolve cw) := by
  have hold (q : Bytes) : OnEngine .dec fun s => (holdSeq q s).bind fun _ s => Run.go q s :=
    (holdSeq_onEngine _ q).bind fun _ => OnEngine.go _
  refine readDec_onEngine.bind fun r => OnEngine.ite (raiseFault_onEngine .dec _ _)
    (OnEngine.ite ?_ ((tableRead_onEngine cw).bind hold))
  cases r.val.bind fun q => appendFirst q q with
  | none => exact OnEngine.fault _
  | some q => exact hold q

theorem decInsert_onEngine (q : Bytes) : OnEngine .dec (decInsert q) := by
  refine readDec_onEngine.bind fun r => OnEngine.ite ?_ (OnEngine.go _)
  cases r.val.bind fun p => appendFirst p q with
  | none => exact OnEngine.fault _
  | some e => exact (tableWrite_onEngine _ _).bind fun _ => writeCommon_onEngine .dec _

theorem decAdvance_onEngine (q : Bytes) : OnEngine .dec (decAdvance q) := readDec_onEngine.bind fun _ => setDec_onEngine _ _

section
variable {rd : State → Run (Option Nat)} (hrd : OnEngine .dec rd)
include hrd

theorem decFirstBody_onEngine : OnEngine .dec (decFirstBody rd) := by
  refine hrd.bind fun v => ?_
  cases v with
  | none => exact raisePremature_onEngine
  | some cw =>
    exact OnEngine.ite decFinishBody_onEngine (OnEngine.ite (raiseFault_onEngine .dec _ _)
      ((tableRead_onEngine cw).bind fun q => (holdSeq_onEngine _ q).bind fun _ => readDec_onEngine.bind fun _ =>
        OnEngine.update () fun _ _ => rfl))

theorem decRead_onEngine : OnEngine .dec (decRead rd) := by
  refine hrd.bind fun v => ?_
  cases v with
  | none => exact raisePremature_onEngine
  | some cw => exact OnEngine.ite (decFinishBody_onEngine.bind fun _ => OnEngine.ended fun _ _ => rfl) (OnEngine.go _)

theorem decStepBody_onEngine : OnEngine .dec (decStepBody rd) :=
  decOutput_onEngine.bind fun _ => (applyPolicy_onEngine .dec).bind fun _ => (decRead_onEngine hrd).bind fun _ =>
    (decResolve_onEngine _).bind fun _ => (decInsert_onEngine _).bind fun _ => (growIfReached_onEngine .dec).bind fun _ =>
      decAdvance_onEngine _

theorem decUnit_onEngine : OnEngine .dec (decUnit rd) :=
  OnEngine.reads (f := fun s => s.dec.phase) (k := fun p s => match p with
      | .first => decFirstBody rd s
      | .loop => decStepBody rd s
      | .idle => .fault .notEnabled
      | .done => .fault .notEnabled
      | .fault => .fault .notEnabled) (fun _ _ _ => rfl) fun p => by
    cases p with
    | first => exact decFirstBody_onEngine hrd
    | loop => exact decStepBody_onEngine hrd
    | idle | done | fault => exact OnEngine.fault _

end

theorem decCommand_onEngine (low : BitVec 2) : OutcomeOnEngine .dec (decCommand low) := by
  intro s u hu
  have hrun : (s.graft .dec u).running .dec = s.running .dec := State.graft_running .dec s u
  have hstart := (decStartHeader_onEngine low).outcome s u hu
  simp only at hstart
  simp only [decCommand, hrun, hstart]
  cases s.running .dec <;> rfl

theorem startOnTag_onEngine (t : Nat) : OutcomeOnEngine .dec (startOnTag t) :=
  ((decStart_onEngine 0 (some t)).whenEnabled fun s u => by rw [State.graft_running]).outcome

theorem runCodeword_onEngine (w c : Nat) : OutcomeOnEngine .dec (runCodeword w c) :=
  (decUnit_onEngine (presentUnit_onEngine w c)).outcome

theorem runClass_onEngine (k : UnitClass) (c : Nat) : OutcomeOnEngine .dec (runClass k c) :=
  (decUnit_onEngine (presentClass_onEngine k c)).outcome

/-- An operation of the Decoder that is enabled in one phase. -/
theorem OnEngine.whenPhase {α : Type} {k : State → Run α} (p : DecPhase) (hk : OnEngine .dec k) :
    OnEngine .dec fun s => Machine.whenEnabled (decide (s.dec.phase = p)) (k s) :=
  hk.whenEnabled fun _ _ => rfl

/-! ### Every instruction -/

/-- The engine of an instruction (rules R20, R104, R109). -/
def engineOf (i : Instr) : Engine := if i.onEncoder then .enc else .dec

/-- R20: every instruction reads and writes the side of its own engine and the parameters only. -/
theorem exec_onEngine (i : Instr) : OutcomeOnEngine (engineOf i) (exec i) := by
  cases i with
  | compressN | compressR | compressM | illegalCmd000 => exact encCommand_onEngine _
  | expand | illegalCmd101 | illegalCmd110 | illegalCmd111 => exact decCommand_onEngine _
  | tagNone | tagFullReset | tagRatioMonitored | tagIllegal => exact startOnTag_onEngine _
  | litW9 | eofW9 | dynW9 | litW10 | eofW10 | dynW10 | litW11 | eofW11 | dynW11 | litW12 | eofW12 | dynW12
  | litW13 | eofW13 | dynW13 | litW14 | eofW14 | dynW14 | litW15 | eofW15 | dynW15 | litW16 | eofW16 | dynW16 =>
    exact runCodeword_onEngine _ _
  | dynRef | dynKwkwk | dynInvalid => exact runClass_onEngine _ _
  | encStart m => exact ((encStart_onEngine m).whenEnabled fun s u => by rw [State.graft_running]).outcome
  | encStep =>
    exact (readEnc_onEngine.bind fun r => encStepBody_onEngine.whenEnabled
      (b := fun _ => decide (r.pos < r.inp.length)) fun _ _ => rfl).whenRunning.outcome
  | encLookup => exact encLookup_onEngine.whenRunning.outcomeRet _
  | encEmit q c => exact ((encEmit_onEngine q c).givenSeq q).whenRunning.outcome
  | encPolicy => exact (applyPolicy_onEngine .enc).whenRunning.outcome
  | encInsert q => exact ((encInsert_onEngine q).givenSeq q).whenRunning.outcome
  | encGrow => exact (growIfReached_onEngine .enc).whenRunning.outcome
  | encAdvance q => exact ((encAdvance_onEngine q).givenSeq q).whenRunning.outcome
  | encFinish =>
    exact (readEnc_onEngine.bind fun r => encFinishBody_onEngine.whenEnabled
      (b := fun _ => decide (r.pos = r.inp.length)) fun _ _ => rfl).whenRunning.outcome
  | decStart low => exact ((decStartHeader_onEngine low).whenEnabled fun s u => by rw [State.graft_running]).outcome
  | decFirst => exact ((decFirstBody_onEngine readUnit_onEngine).whenPhase .first).outcome
  | decStep => exact ((decStepBody_onEngine readUnit_onEngine).whenPhase .loop).outcome
  | decOutput => exact (decOutput_onEngine.whenPhase .loop).outcome
  | decPolicy => exact ((applyPolicy_onEngine .dec).whenPhase .loop).outcome
  | decRead => exact ((decRead_onEngine readUnit_onEngine).whenPhase .loop).outcomeRet _
  | decResolve cw => exact ((decResolve_onEngine cw).whenPhase .loop).outcomeRet _
  | decInsert q => exact (((decInsert_onEngine q).givenSeq q).whenPhase .loop).outcome
  | decGrow => exact ((growIfReached_onEngine .dec).whenPhase .loop).outcome
  | decAdvance q => exact (((decAdvance_onEngine q).givenSeq q).whenPhase .loop).outcome
  | decFinish => exact decFinishBody_onEngine.whenRunning.outcome
  | putBits v n => exact (putBits_onEngine v n).outcome
  | getBits n => exact (getBits_onEngine n).outcomeRet _
  | writeBytes q => exact (writeBytes_onEngine q).outcome
  | readAllBytes => exact readAllBytes_onEngine.outcomeRet _
  | longestPrefix rest => exact (longestPrefix_onEngine rest).whenRunning.outcomeRet _
  | dictInsert key code => exact (dictInsert_onEngine key code).whenRunning.outcome
  | dictSeed => exact dictSeed_onEngine.whenRunning.outcome
  | tableRead n => exact (tableRead_onEngine n).whenRunning.outcomeRet _
  | tableWrite n q => exact (tableWrite_onEngine n q).whenRunning.outcome
  | tableSeed => exact tableSeed_onEngine.whenRunning.outcome
  | wcInit x =>
    cases x <;> exact ((readCommon_onEngine _).bind fun _ => writeCommon_onEngine _ _).whenRunning.outcome
  | wcReached x => cases x <;> exact ((readCommon_onEngine _).bind fun _ => OnEngine.go _).whenRunning.outcomeRet _
  | wcGrow x =>
    cases x <;> exact ((readCommon_onEngine _).bind fun _ =>
      OnEngine.ite (writeCommon_onEngine _ _) (OnEngine.fault _)).whenRunning.outcome
  | rpSaturated x => cases x <;> exact ((readCommon_onEngine _).bind fun _ => OnEngine.go _).whenRunning.outcomeRet _
  | rpAccount x ubits cbits => cases x <;> exact (accountBits_onEngine _ ubits cbits).whenRunning.outcome
  | rpEval x => cases x <;> exact (runEval_onEngine _).whenRunning.outcomeRet _
  | rpEvalNone x | rpEvalFullReset x | rpEvalRatioBaseline x =>
    cases x <;> exact (runVariant_onEngine _ _ fun _ _ _ _ => rfl).outcomeRet _
  | rpEvalRatioCompare x =>
    cases x <;> exact (runVariant_onEngine _ _ fun _ _ _ hu => by simp only [State.graft_params, hu]).outcomeRet _
  | dictReset x => cases x <;> exact (resetDict_onEngine _).whenRunning.outcome
  | close x => cases x <;> exact (closeSink_onEngine _).outcome

/-- An instruction run on a state with its own side grafted onto it answers the same side. -/
theorem exec_graft {i : Instr} {s t u : State} (h : exec i s = .next t) (hu : u.params = s.params) :
    exec i (s.graft (engineOf i) u) = .next (t.graft (engineOf i) u) := by
  rw [exec_onEngine i s u hu, h, mapNext]

/-- What an instruction leaves is its own side on the state it began with. -/
theorem exec_eq_graft {i : Instr} {s t : State} (h : exec i s = .next t) : t = t.graft (engineOf i) s := by
  have hg := exec_graft h rfl
  rw [State.graft_self, h] at hg
  exact Host.Outcome.next.inj hg

theorem exec_params {i : Instr} {s t : State} (h : exec i s = .next t) : t.params = s.params := by
  rw [exec_eq_graft h, State.graft_params]

theorem exec_host {i : Instr} {s t : State} (h : exec i s = .next t) : t.host = s.host := by
  rw [exec_eq_graft h, State.graft_host]

theorem exec_decSide {i : Instr} {s t : State} (hi : i.onEncoder = true) (h : exec i s = .next t) :
    t.decSide = s.decSide := by
  rw [exec_eq_graft h, engineOf, if_pos hi]; rfl

theorem exec_encSide {i : Instr} {s t : State} (hi : i.onEncoder = false) (h : exec i s = .next t) :
    t.encSide = s.encSide := by
  rw [exec_eq_graft h, engineOf, hi]; rfl

/-- Settles O6: what an instruction leaves is a graft of its own side onto the state it began with. -/
theorem instructionsTouchOneEngine : Obligations.InstructionsTouchOneEngine := fun _ _ _ h =>
  ⟨fun hi => exec_decSide hi h, fun hi => exec_encSide hi h, exec_params h, exec_host h⟩

/-- Settles O7: replacing the other engine and its input end is a graft of the own side onto the state with them replaced. -/
theorem enginesLearnNothingOfEachOther : Obligations.EnginesLearnNothingOfEachOther := by
  intro i s t
  constructor
  · intro hi d b h
    have ht := exec_eq_graft h
    have hg := exec_graft (u := { s with dec := d, bitSource := b }) h rfl
    simp only [engineOf, hi, if_true] at ht hg
    rw [ht]
    exact hg
  · intro hi e b h
    have ht := exec_eq_graft h
    have hg := exec_graft (u := { s with enc := e, byteSource := b }) h rfl
    simp only [engineOf, hi, Bool.false_eq_true, if_false] at ht hg
    rw [ht]
    exact hg

end Sys2Proof.Machine

/-! ## Proofs: power-on and the start values (InvariantAtPowerOn, CompressStartsTheEncoder, ExpandStartsTheDecoder) -/

namespace Sys2Proof.Machine

/-- Settles O2: at power-on both engines are idle and hold nothing. -/
theorem invariantAtPowerOn : Obligations.InvariantAtPowerOn := ⟨⟨⟨rfl, rfl, rfl⟩, ⟨rfl, rfl, rfl⟩⟩, Memory.wf_reset⟩

/-! ### The Encoder's start -/

/-- The Encoder right after an accepted START (rule R52): the start registers and the 9 bits of the mode tag. -/
def Encoder.started (mode : Mode) (inp : Bytes) : Encoder :=
  { phase := .step, fault := .none, info := none
    regs := some { common := startCommon mode, dict := Store.seed, inp := inp, pos := 0 }
    out := some { bits := natBits 9 (modeNumber mode), closed := false } }

theorem encStart_illegal {m : BitVec 2} (h : modeOfNumber m.toNat = none) (s : State) :
    encStart m s = .ended (s.keepOut.raise .enc .invocationError (some m.toNat)) := by
  simp [encStart, h, raiseFault]

/-- ENC.START with a legal mode takes the whole input (rule R150). -/
theorem encStart_legal {m : BitVec 2} {mode : Mode} (h : modeOfNumber m.toNat = some mode) (s : State) :
    encStart m s = .go () { s with byteSource := [], enc := Encoder.started mode s.byteSource } := by
  have hw : modeNumber mode < 2 ^ Config.headerW := by cases mode <;> decide
  simp only [encStart, h, readAllBytes, Run.bind_go]
  rw [putBits_open (o := { bits := [], closed := false }) rfl rfl (by decide) hw]
  rfl

theorem encCommand_legal {m : BitVec 2} {mode : Mode} (h : modeOfNumber m.toNat = some mode) {s : State}
    (hs : s.enc.phase ≠ .step) :
    encCommand m s = .next { s with byteSource := [], enc := Encoder.started mode s.byteSource } ∧
    exec (.encStart m) s = .next { s with byteSource := [], enc := Encoder.started mode s.byteSource } := by
  simp [encCommand, exec, execEncStart, State.running, hs, encStart_legal h]

/-- Settles O23: each command runs ENC.START with its mode. -/
theorem compressStartsTheEncoder : Obligations.CompressStartsTheEncoder := by
  intro s hs p hp
  simp only [List.mem_cons, List.not_mem_nil, or_false] at hp
  rcases hp with rfl | rfl | rfl
  · exact encCommand_legal (mode := .none) rfl hs
  · exact encCommand_legal (mode := .fullReset) rfl hs
  · exact encCommand_legal (mode := .ratioMonitored) rfl hs

/-! ### The Decoder's start -/

/-- The Decoder right after an accepted START (rule R53): the start registers, the tag taken, the output empty. -/
def Decoder.started (mode : Mode) (src : Bytes) : Decoder :=
  { phase := .first, fault := .none, info := none
    regs := some { common := startCommon mode, table := Store.seed, val := none, readW := none, src := src, bitpos := 9 }
    out := some { bytes := [], closed := false } }

/-- DEC.START on a legal tag takes the whole stream (rule R170). -/
theorem decStart_legal {n : Nat} {mode : Mode} (h : modeOfNumber n = some mode) (s : State) :
    decStart 0 (some n) s = .go () { s with bitSource := [], dec := Decoder.started mode s.bitSource } := by
  simp only [decStart, h]
  rfl

theorem startOnTag_legal {n : Nat} {mode : Mode} (h : modeOfNumber n = some mode) {s : State}
    (hs : s.running .dec = false) :
    startOnTag n s = .next { s with bitSource := [], dec := Decoder.started mode s.bitSource } := by
  simp only [startOnTag, hs, Bool.not_false, whenEnabled_true, decStart_legal h, Run.outcome_go]

/-- An EXPAND or DEC.START that is accepted runs as the tag that heads the stream (rules R91, R170). -/
theorem expand_eq_startOnTag {s : State} {n : Nat} (hs : s.running .dec = false) (h : headerTag s = some n) :
    exec .expand s = startOnTag n s ∧ exec (.decStart 0) s = startOnTag n s := by
  simp [exec, execExpand, decCommand, execDecStart, startOnTag, hs, h]

/-- Settles O24: EXPAND and DEC.START run as the tag that heads the stream, and each tag names its mode. -/
theorem expandStartsTheDecoder : Obligations.ExpandStartsTheDecoder := by
  intro s hs p hp
  have starts {n : Nat} {mode : Mode} (h : modeOfNumber n = some mode) :
      startOnTag n s = .next { s with bitSource := [], dec := Decoder.started mode s.bitSource } ∧
      (headerTag s = some n →
        exec .expand s = .next { s with bitSource := [], dec := Decoder.started mode s.bitSource } ∧
        exec (.decStart 0) s = .next { s with bitSource := [], dec := Decoder.started mode s.bitSource }) :=
    ⟨startOnTag_legal h hs, fun ht => startOnTag_legal h hs ▸ expand_eq_startOnTag hs ht⟩
  simp only [List.mem_cons, List.not_mem_nil, or_false] at hp
  rcases hp with rfl | rfl | rfl
  · exact starts (mode := .none) rfl
  · exact starts (mode := .fullReset) rfl
  · exact starts (mode := .ratioMonitored) rfl

end Sys2Proof.Machine

/-! ## Proofs: what a step runs

A unit of the stream is the DEC.FIRST or DEC.STEP that reads it and a tag is the EXPAND that reads it, so a step runs a
command word, ENC.STEP, ENC.FINISH, DEC.FIRST or DEC.STEP, or nothing. -/

namespace Sys2Proof

theorem bitsToNat_lt (bs : Bits) : bitsToNat bs < 2 ^ bs.length := by
  have key (a : Nat) : bs.foldl (fun a b => 2 * a + b.toNat) a < (a + 1) * 2 ^ bs.length := by
    induction bs generalizing a with
    | nil => simp
    | cons b t ih =>
      have hb : b.toNat ≤ 1 := Bool.toNat_le b
      calc t.foldl (fun a b => 2 * a + b.toNat) (2 * a + b.toNat)
          < (2 * a + b.toNat + 1) * 2 ^ t.length := ih _
        _ ≤ (2 * (a + 1)) * 2 ^ t.length := Nat.mul_le_mul_right _ (by omega)
        _ = (a + 1) * 2 ^ (b :: t).length := by rw [List.length_cons]; ring
  simpa [bitsToNat] using key 0

theorem decode_header_ok {bs tail : Bits} {i : Instr} (h : decode .header bs = .ok (i, tail)) :
    9 ≤ bs.length ∧ i = decodeTag (BitVec.ofNat 9 (bitsToNat (bs.take 9))) := by
  by_cases hlen : bs.length < frameWidth .header
  · rw [decode, if_pos hlen] at h; cases h
  · rw [decode, if_neg hlen] at h; cases h; exact ⟨not_lt.1 hlen, rfl⟩

theorem decode_codeword_ok {w : Nat} {bs tail : Bits} {i : Instr} (h : decode (.codeword w) bs = .ok (i, tail)) :
    w ≤ bs.length ∧ decodeCodeword w (bitsToNat (bs.take w)) = some i := by
  by_cases hlen : bs.length < frameWidth (.codeword w)
  · rw [decode, if_pos hlen] at h; cases h
  · rw [decode, if_neg hlen] at h
    refine ⟨not_lt.1 hlen, ?_⟩
    simp only [frameWidth] at h
    split at h
    · rename_i hj; cases h; exact hj
    · cases h

end Sys2Proof

namespace Sys2Proof.Machine

/-! ### Commands and tags -/

theorem exec_decodeTag (t : BitVec 9) (s : State) : exec (decodeTag t) s = startOnTag t.toNat s := by
  unfold decodeTag
  split
  · rename_i h; rw [h]; rfl
  · rename_i h; rw [h]; rfl
  · rename_i h; rw [h]; rfl
  · rfl

theorem peekBits_of_fits {src : Bytes} {pos n : Nat} (h : pos + n ≤ (streamBits src).length) :
    peekBits src pos n = some (bitsToNat (((streamBits src).drop pos).take n)) := if_pos h

theorem peekBits_eq_some {src : Bytes} {pos n v : Nat} (h : peekBits src pos n = some v) :
    pos + n ≤ (streamBits src).length := by
  unfold peekBits at h
  split at h
  · assumption
  · cases h

/-- The tag row that an accepted EXPAND decodes does what the EXPAND does (rules R91, R170). -/
theorem exec_commandInstr (cmd : BitVec 3) (s : State) : exec (commandInstr cmd s) s = exec (decodeCommand cmd) s := by
  by_cases h : cmd = 4 ∧ s.running .dec = false
  case neg =>
    have hne : cmd ≠ 4 ∨ s.running .dec = true := by simpa [imp_iff_not_or] using h
    rw [commandInstr_of_not_accepted_expand hne]
  case pos =>
    obtain ⟨rfl, hrun⟩ := h
    cases hd : decode .header (streamBits s.bitSource) with
    | error e => rw [commandInstr_expand_of_no_tag hrun hd]; rfl
    | ok p =>
      obtain ⟨i, tail⟩ := p
      obtain ⟨hlen, rfl⟩ := decode_header_ok hd
      have hlt := bitsToNat_lt ((streamBits s.bitSource).take 9)
      rw [List.length_take, Nat.min_eq_left hlen] at hlt
      have htag : headerTag s = some (bitsToNat ((streamBits s.bitSource).take 9)) :=
        peekBits_of_fits (by simpa [Config.headerW] using hlen)
      rw [commandInstr_expand_of_tag hrun hd, exec_decodeTag, BitVec.toNat_ofNat, Nat.mod_eq_of_lt hlt,
        ← (expand_eq_startOnTag hrun htag).1]
      rfl

/-- A command word is a START of the engine it selects (rules R104, R105). -/
theorem exec_decodeCommand (cmd : BitVec 3) :
    ((decodeCommand cmd).onEncoder = true ∧ ∃ m, exec (decodeCommand cmd) = encCommand m) ∨
    ((decodeCommand cmd).onEncoder = false ∧ ∃ low, exec (decodeCommand cmd) = decCommand low) := by
  unfold decodeCommand
  split
  · exact .inl ⟨rfl, 0, rfl⟩
  · exact .inl ⟨rfl, 1, rfl⟩
  · exact .inl ⟨rfl, 2, rfl⟩
  · exact .inl ⟨rfl, 3, rfl⟩
  · exact .inr ⟨rfl, 0, rfl⟩
  · exact .inr ⟨rfl, 1, rfl⟩
  · exact .inr ⟨rfl, 2, rfl⟩
  · exact .inr ⟨rfl, 3, rfl⟩

/-! ### Units -/

/-- The three rows of one width run the codeword they stand for (rules R96, R99). -/
theorem exec_codewordRow {w v : Nat} {lit : Byte → Instr} {eof : Instr} {dyn : BitVec w → Instr}
    (hlit : ∀ b, exec (lit b) = runCodeword w b.toNat) (heof : exec eof = runCodeword w 256)
    (hdyn : ∀ c, exec (dyn c) = runCodeword w c.toNat) (hv : v < 2 ^ w) :
    exec (if v < 256 then lit (BitVec.ofNat 8 v) else if v = 256 then eof else dyn (BitVec.ofNat w v)) =
      runCodeword w v := by
  by_cases hl : v < 256
  · rw [if_pos hl, hlit, BitVec.toNat_ofNat, Nat.mod_eq_of_lt hl]
  · by_cases he : v = 256
    · rw [if_neg hl, if_pos he, heof, he]
    · rw [if_neg hl, if_neg he, hdyn, BitVec.toNat_ofNat, Nat.mod_eq_of_lt hv]

theorem exec_decodeCodeword {w v : Nat} {i : Instr} (h : decodeCodeword w v = some i) (hv : v < 2 ^ w) :
    (9 ≤ w ∧ w ≤ 16) ∧ exec i = runCodeword w v := by
  unfold decodeCodeword at h
  split at h <;> cases h <;>
    exact ⟨by decide, exec_codewordRow (fun _ => rfl) rfl (fun _ => rfl) hv⟩

/-- The unit that stands next, as an instruction, takes from the stream what a read takes (rules R73, R95). -/
theorem nextUnit_eq_some {s : State} {i : Instr} (h : nextUnit s = some i) :
    ∃ w v, exec i = runCodeword w v ∧ presentUnit w v s = readUnit s := by
  cases hr : s.dec.regs with
  | none => rw [nextUnit_of_no_regs hr] at h; cases h
  | some r =>
    cases hd : decode (.codeword r.common.W) ((streamBits r.src).drop r.bitpos) with
    | error e => rw [nextUnit_of_decode_error hr hd] at h; cases h
    | ok p =>
      obtain ⟨j, tail⟩ := p
      rw [nextUnit_of_decode_ok hr hd] at h
      cases h
      obtain ⟨hlen, hj⟩ := decode_codeword_ok hd
      have hlt := bitsToNat_lt (((streamBits r.src).drop r.bitpos).take r.common.W)
      rw [List.length_take, Nat.min_eq_left hlen] at hlt
      obtain ⟨hW, hexec⟩ := exec_decodeCodeword hj hlt
      rw [List.length_drop] at hlen
      refine ⟨_, _, hexec, ?_⟩
      rw [presentUnit_regs _ hr, readUnit_regs hr ⟨by omega, hW.2⟩, peekBits_of_fits (by omega)]

section
variable {rd rd' : State → Run (Option Nat)} {s : State}

theorem decFirstBody_congr (h : rd s = rd' s) : decFirstBody rd s = decFirstBody rd' s := by simp only [decFirstBody, h]

/-- DEC.STEP reads its codeword in the state that DEC.OUTPUT and DEC.POLICY leave (rules R172, R175). -/
theorem decStepBody_congr (h : ∀ u, ((decOutput s).bind fun _ => decPolicy) = .go () u → rd u = rd' u) :
    decStepBody rd s = decStepBody rd' s := by
  have hsplit (rd) : decStepBody rd s = ((decOutput s).bind fun _ => decPolicy).bind fun _ s => (decRead rd s).bind fun cw s =>
      (decResolve cw s).bind fun q s => (decInsert q s).bind fun _ s => (decGrow s).bind fun _ s => decAdvance q s :=
    (Run.bind_assoc _ _ _).symm
  rw [hsplit, hsplit]
  cases hm : (decOutput s).bind fun _ => decPolicy with
  | go _ u => simp only [Run.bind_go, decRead, h u hm]
  | ended u => rfl
  | fault f => rfl
  | refused r => rfl

end

/-- In phase FIRST the next instruction does what DEC.FIRST does. -/
theorem exec_firstInstr {s : State} (hp : s.dec.phase = .first) :
    exec ((nextUnit s).getD .decFirst) s = exec .decFirst s := by
  cases hu : nextUnit s with
  | none => rfl
  | some i =>
    obtain ⟨w, v, hexec, hread⟩ := nextUnit_eq_some hu
    rw [Option.getD_some, hexec]
    simp [runCodeword, decUnit, hp, exec, execDecFirst, decFirstBody_congr hread]

/-- In phase LOOP the next instruction does what DEC.STEP does. -/
theorem exec_loopInstr {s : State} (hp : s.dec.phase = .loop) :
    exec ((nextLoopUnit s).getD .decStep) s = exec .decStep s := by
  cases hu : nextLoopUnit s with
  | none => rfl
  | some i =>
    have hgo : ∃ u, ((decOutput s).bind fun _ => decPolicy) = .go () u := by
      by_contra hne
      rw [nextLoopUnit_of_not_go (not_exists.1 hne)] at hu
      cases hu
    obtain ⟨u, hu'⟩ := hgo
    rw [nextLoopUnit_of_go hu'] at hu
    obtain ⟨w, v, hexec, hread⟩ := nextUnit_eq_some hu
    have hbody : decStepBody (presentUnit w v) s = decStepBody readUnit s := decStepBody_congr fun u₁ h₁ => by
      rw [hu'] at h₁; cases h₁; exact hread
    rw [Option.getD_some, hexec]
    simp [runCodeword, decUnit, hp, exec, execDecStep, hbody]

/-! ### The step -/

/-- The instructions that the steps come down to. -/
inductive StepInstr : Instr → Prop
  | command (cmd : BitVec 3) : StepInstr (decodeCommand cmd)
  | encStep : StepInstr .encStep
  | encFinish : StepInstr .encFinish
  | decFirst : StepInstr .decFirst
  | decStep : StepInstr .decStep

theorem exec_engineInstr {x : Engine} {s : State} {i : Instr} (h : engineInstr x s = some i) :
    ∃ j, StepInstr j ∧ exec i s = exec j s := by
  cases x with
  | enc =>
    simp only [engineInstr] at h
    split at h
    · split at h
      · cases h; exact ⟨_, .encStep, rfl⟩
      · split at h
        · cases h; exact ⟨_, .encStep, rfl⟩
        · cases h; exact ⟨_, .encFinish, rfl⟩
    · cases h
  | dec =>
    cases hp : s.dec.phase with
    | first => rw [engineInstr_dec_first hp] at h; cases h; exact ⟨_, .decFirst, exec_firstInstr hp⟩
    | loop => rw [engineInstr_dec_loop hp] at h; cases h; exact ⟨_, .decStep, exec_loopInstr hp⟩
    | idle | done | fault => simp [engineInstr, hp] at h

theorem connect_enc (cmd : BitVec 3) (input : Bytes) (s : State) : (connect cmd input s).enc = s.enc := by
  unfold connect; split <;> split <;> rfl

theorem connect_dec (cmd : BitVec 3) (input : Bytes) (s : State) : (connect cmd input s).dec = s.dec := by
  unfold connect; split <;> split <;> rfl

/-- What a step can do: fetching leaves the engines alone, then nothing runs or one of the instructions of `StepInstr`. -/
theorem step_cases {s t : State} (h : step s = .next t) :
    ∃ u, u.enc = s.enc ∧ u.dec = s.dec ∧ (t = u ∨ ∃ i, StepInstr i ∧ exec i u = .next t) := by
  have moves {x : Engine} {u : State} (hm : Moves s x u) : t = u ∨ ∃ i, StepInstr i ∧ exec i u = .next t := by
    cases hi : engineInstr x u with
    | none =>
      rw [step_of_fetch_none (hi ▸ fetch_of_moves hm)] at h
      exact .inl (Host.Outcome.next.inj h).symm
    | some i =>
      rw [step_of_moves hm hi] at h
      obtain ⟨j, hj, hexec⟩ := exec_engineInstr hi
      exact .inr ⟨j, hj, hexec ▸ h⟩
  cases hh : s.host with
  | nil => exact ⟨s, rfl, rfl, moves (.inr ⟨hh, rfl, rfl⟩)⟩
  | cons e rest =>
    cases e with
    | command cmd input =>
      refine ⟨connect cmd input { s with host := rest }, connect_enc _ _ _, connect_dec _ _ _, .inr ⟨_, .command cmd, ?_⟩⟩
      rw [← exec_commandInstr, ← step_of_command hh rfl, h]
    | turn x => exact ⟨{ s with host := rest }, rfl, rfl, moves (.inl ⟨rest, hh, rfl⟩)⟩

end Sys2Proof.Machine

/-! ## Proofs: every step keeps the invariant (StepKeepsInvariant)

Each sub-step gets a rule of the form `Run.Ensures`: from a state in the middle of a step it leaves the next such state, or
ends the step in a state that meets the invariant. Between the insertion and the growth the count may stand on the trigger
of the growth, so the registers' middle invariant has the room `k` below the capacity as a parameter. -/

namespace Sys2Proof.Machine

/-- Where the operation goes on, `Q` holds of what it returns and leaves; where it ends the step, `E` holds of the state. -/
def Run.Ensures {α : Type} (E : State → Prop) (Q : α → State → Prop) : Run α → Prop
  | .go a s => Q a s
  | .ended s => E s
  | .fault _ => True
  | .refused _ => True

section
variable {α β : Type} {E : State → Prop} {P : α → State → Prop} {Q : β → State → Prop} {m : Run α} {k : α → State → Run β}

theorem Run.Ensures.bind (hm : m.Ensures E P) (hk : ∀ a s, P a s → (k a s).Ensures E Q) : (m.bind k).Ensures E Q := by
  cases m with
  | go a s => exact hk a s hm
  | ended s => exact hm
  | fault f => trivial
  | refused r => trivial

theorem Run.ensures_of_go (hgo : ∀ a t, m = .go a t → P a t) (hended : ∀ t, m ≠ .ended t) : m.Ensures E P := by
  cases m with
  | go a t => exact hgo a t rfl
  | ended t => exact absurd rfl (hended t)
  | fault f => trivial
  | refused r => trivial

theorem Run.Ensures.whenEnabled {b : Bool} (h : b = true → m.Ensures E P) : (whenEnabled b m).Ensures E P := by
  cases b with
  | false => trivial
  | true => exact h rfl

theorem Run.Ensures.outcome {t : State} (hm : m.Ensures E fun _ => E) (h : m.outcome = .next t) : E t := by
  cases m with
  | go a s => cases h; exact hm
  | ended s => cases h; exact hm
  | fault f => cases h
  | refused r => cases h

end

/-! ### The Width Controller's and the Reset Policy's registers -/

section
variable {c : Common} (h : c.Inv)
include h

theorem Common.Inv.capacity_le : c.L ≤ 65536 := by
  calc c.L = 2 ^ c.W := h.capacity
    _ ≤ 2 ^ 16 := Nat.pow_le_pow_right (by decide) h.width.2
    _ = 65536 := rfl

/-- A baseline is held only at saturation, where there is no room. -/
theorem Common.Inv.ratioSet_of_room (hroom : c.count < c.L) : c.ratioSet = false := by
  have hL := h.capacity_le
  by_contra hset
  have := (h.baseline (by simpa using hset)).2.1
  omega

theorem Common.Inv.counters (u b : Nat) : Common.Inv { c with U := u, C := b } :=
  ⟨h.width, h.capacity, h.seeded, h.bounded, h.baseline⟩

/-- One more codeword, where there is room (rules R155, R177). -/
theorem Common.Inv.insert (hroom : c.count < c.L) : Common.Inv { c with count := c.count + 1 } where
  width := h.width
  capacity := h.capacity
  seeded := Nat.le_succ_of_le h.seeded
  bounded := hroom
  baseline hset := by simp [h.ratioSet_of_room hroom] at hset

/-- WC.GROW below width 16 (rule R122). -/
theorem Common.Inv.grow (hW : c.W < 16) : Common.Inv { c with W := c.W + 1, L := 2 * c.L } where
  width := ⟨Nat.le_succ_of_le h.width.1, hW⟩
  capacity := by rw [h.capacity]; exact (pow_succ' 2 c.W).symm
  seeded := h.seeded
  bounded := h.bounded.trans (Nat.le_mul_of_pos_left _ (by decide))
  baseline := h.baseline

end

/-- DICT.RESET once the baseline is gone (rules R138, R139). -/
theorem Common.Inv.reset {c : Common} (hset : c.ratioSet = false) : c.afterReset.Inv where
  width := by simp [Common.afterReset]
  capacity := rfl
  seeded := Nat.le_refl _
  bounded := by simp [Common.afterReset]
  baseline hset' := by simp [Common.afterReset, hset] at hset'

/-- What RP.EVAL can answer (rules R134 to R138): nothing to do, the reset of mode 2, a first baseline, the reset of
mode 3, or a new ratio that is good enough. -/
theorem evalPolicy_cases {t : RatioTest} {c c' : Common} {fire : Bool} (h : evalPolicy t c = some (fire, c')) :
    (fire = false ∧ c' = c) ∨
    (fire = true ∧ c.mode = .fullReset ∧ c' = c) ∨
    (fire = false ∧ c.mode = .ratioMonitored ∧ c.count = 65536 ∧
      c' = { c with oldRatio := some (snapshot c), ratioSet := true }) ∨
    (fire = true ∧ c' = { c with ratioSet := false, oldRatio := none, newRatio := none }) ∨
    (fire = false ∧ c' = { c with newRatio := some (snapshot c) }) := by
  unfold evalPolicy at h
  split at h
  case isFalse => cases h; exact .inl ⟨rfl, rfl⟩
  case isTrue hsat =>
    split at h
    · cases h; exact .inl ⟨rfl, rfl⟩
    · rename_i hm; cases h; exact .inr (.inl ⟨rfl, hm, rfl⟩)
    · rename_i hm
      unfold evalRatio at h
      split at h
      · obtain ⟨old, -, h⟩ := Option.map_eq_some_iff.1 h
        unfold evalCompare at h
        split at h
        · cases h; exact .inr (.inr (.inr (.inl ⟨rfl, rfl⟩)))
        · cases h; exact .inr (.inr (.inr (.inr ⟨rfl, rfl⟩)))
      · cases h
        exact .inr (.inr (.inl ⟨rfl, hm, of_decide_eq_true hsat, rfl⟩))

/-- The registers after RP.EVAL and, where it fired, DICT.RESET (rules R134, R139). -/
def Common.afterPolicy (fire : Bool) (c : Common) : Common := if fire then c.afterReset else c

@[simp] theorem Common.afterPolicy_U (fire : Bool) (c : Common) : (c.afterPolicy fire).U = c.U := by cases fire <;> rfl
@[simp] theorem Common.afterPolicy_C (fire : Bool) (c : Common) : (c.afterPolicy fire).C = c.C := by cases fire <;> rfl

/-- RP.EVAL writes the snapshots and the flag alone. -/
theorem evalPolicy_changes {t : RatioTest} {c c' : Common} {fire : Bool} (h : evalPolicy t c = some (fire, c')) :
    c'.W = c.W ∧ c'.L = c.L ∧ c'.count = c.count ∧ c'.U = c.U ∧ c'.C = c.C := by
  rcases evalPolicy_cases h with ⟨-, rfl⟩ | ⟨-, -, rfl⟩ | ⟨-, -, -, rfl⟩ | ⟨-, rfl⟩ | ⟨-, rfl⟩ <;> exact ⟨rfl, rfl, rfl, rfl, rfl⟩

/-- The policy keeps the invariant: it fires only where it leaves no baseline (rules R134 to R139). -/
theorem Common.Inv.policy {t : RatioTest} {c c' : Common} {fire : Bool} (hc : c.Inv)
    (h : evalPolicy t c = some (fire, c')) : (c'.afterPolicy fire).Inv := by
  have ⟨hwidth, hcapacity, hseeded, hbounded, hbaseline⟩ := hc
  rcases evalPolicy_cases h with ⟨rfl, rfl⟩ | ⟨rfl, hm, rfl⟩ | ⟨rfl, hm, hsat, rfl⟩ | ⟨rfl, rfl⟩ | ⟨rfl, rfl⟩
  · exact hc
  · refine Common.Inv.reset (Bool.eq_false_iff.2 fun hset => ?_)
    cases hm.symm.trans (hc.baseline hset).1
  · exact ⟨hwidth, hcapacity, hseeded, hbounded, fun _ => ⟨hm, hsat, Option.some_ne_none _⟩⟩
  · exact Common.Inv.reset rfl
  · exact ⟨hwidth, hcapacity, hseeded, hbounded, hbaseline⟩

/-! ### The stores -/

/-- The next codeword gets a sequence of two bytes or more (rule R48). -/
theorem Store.Inv.write {t : Store} {n : Nat} {q : Bytes} (h : t.Inv n) (hn : 257 ≤ n) (hq : 2 ≤ q.length) :
    (Store.write n q t).Inv (n + 1) where
  canonical := Store.wf_write n q h.canonical
  assigned c := by
    by_cases hc : c = n
    · subst hc; simp [hn]
    · rw [Store.read_write_other hc, h.assigned]; omega
  literal b := by
    have hb : b.toNat < 256 := b.isLt
    rw [Store.read_write_other (by omega), h.literal]
  dynamic c p hc hp := by
    by_cases hcn : c = n
    · subst hcn; rw [Store.read_write_same] at hp; cases hp; exact hq
    · rw [Store.read_write_other hcn] at hp; exact h.dynamic c p hc hp

/-- Every sequence of a store is non-empty (rules R48, R62). -/
theorem Store.Inv.ne_nil {t : Store} {n c : Nat} {q : Bytes} (h : t.Inv n) (hr : t.read c = some q) : q ≠ [] := by
  have hassigned : c < 256 ∨ (257 ≤ c ∧ c < n) := (h.assigned c).1 (by simp [hr])
  rcases hassigned with hc | ⟨hc, -⟩
  · have hlit := h.literal (BitVec.ofNat 8 c)
    rw [BitVec.toNat_ofNat, Nat.mod_eq_of_lt hc, hr] at hlit
    cases hlit
    exact List.cons_ne_nil _ _
  · exact List.ne_nil_of_length_pos (by have := h.dynamic c q hc hr; omega)

/-- A new key leaves no two codewords with one key (rules R48, R63). -/
theorem Store.write_keys {t : Store} {n : Nat} {key : Bytes} (hkeys : ∀ c d q, t.read c = some q → t.read d = some q → c = d)
    (hnew : t.codeOf key = none) (c d : Nat) (q : Bytes) (hc : (Store.write n key t).read c = some q)
    (hd : (Store.write n key t).read d = some q) : c = d := by
  have fresh {e : Nat} (he : t.read e = some key) : False := Store.codeOf_eq_none.1 hnew e (Store.mem_of_read he)
  by_cases hcn : c = n <;> by_cases hdn : d = n
  · exact hcn.trans hdn.symm
  · rw [hcn, Store.read_write_same] at hc; cases hc
    rw [Store.read_write_other hdn] at hd
    exact (fresh hd).elim
  · rw [hdn, Store.read_write_same] at hd; cases hd
    rw [Store.read_write_other hcn] at hc
    exact (fresh hc).elim
  · rw [Store.read_write_other hcn] at hc
    rw [Store.read_write_other hdn] at hd
    exact hkeys c d q hc hd

/-! ### Each shared operation on the registers of its engine -/

theorem State.setEnc_same {s : State} {r : EncRegs} (h : s.enc.regs = some r) : s.setEnc r = s := by
  unfold State.setEnc; rw [← h]

theorem State.setDec_same {s : State} {r : DecRegs} (h : s.dec.regs = some r) : s.setDec r = s := by
  unfold State.setDec; rw [← h]

section
variable {s : State} {r : EncRegs} (h : s.enc.regs = some r)
include h

theorem accountBits_enc_regs (u c : Nat) : accountBits .enc u c s =
    if counterOverflows s.params.cntW (r.common.U + u) || counterOverflows s.params.cntW (r.common.C + c) then
      raiseFault .enc .counterOverflow none s
    else .go () (s.setEnc { r with common := { r.common with U := r.common.U + u, C := r.common.C + c } }) := by
  simp only [accountBits, readCommon_enc h, Run.bind_go, writeCommon_enc h]

/-- The Encoder's registers after ENC.POLICY wrote the policy registers `c` and, where it fired, reset (rule R154). -/
theorem applyPolicy_enc_regs : applyPolicy .enc s = match evalPolicy s.params.ratio r.common with
    | none => .fault .noValue
    | some (fire, c) => .go () (s.setEnc { r with
        common := c.afterPolicy fire, dict := if fire then Store.seed else r.dict }) := by
  simp only [applyPolicy, runEval, readCommon_enc h, Run.bind_go]
  rcases evalPolicy s.params.ratio r.common with _ | ⟨_ | _, c⟩
  · rfl
  · simp only [writeCommon_enc h]; rfl
  · simp only [writeCommon_enc h, Run.bind_go, if_true, resetDict_enc (State.setEnc_regs _ _)]; rfl

theorem growIfReached_enc_regs :
    growIfReached .enc s = .go () (s.setEnc { r with common := r.common.encGrown }) := by
  simp only [growIfReached, readCommon_enc h, Run.bind_go, capacityReached, writeCommon_enc h, Common.encGrown]
  by_cases hc : r.common.count = r.common.L ∧ r.common.W < 16
  · simp [hc, Config.wMax, growWidth, Nat.mul_comm]
  · simp [hc, Config.wMax, State.setEnc_same h]

end

section
variable {s : State} {r : DecRegs} (h : s.dec.regs = some r)
include h

theorem accountBits_dec_regs (u c : Nat) : accountBits .dec u c s =
    if counterOverflows s.params.cntW (r.common.U + u) || counterOverflows s.params.cntW (r.common.C + c) then
      raiseFault .dec .counterOverflow none s
    else .go () (s.setDec { r with common := { r.common with U := r.common.U + u, C := r.common.C + c } }) := by
  simp only [accountBits, readCommon_dec h, Run.bind_go, writeCommon_dec h]

/-- The Decoder's registers after DEC.POLICY wrote the policy registers `c` and, where it fired, reset (rule R174). -/
theorem applyPolicy_dec_regs : applyPolicy .dec s = match evalPolicy s.params.ratio r.common with
    | none => .fault .noValue
    | some (fire, c) => .go () (s.setDec { r with
        common := c.afterPolicy fire, table := if fire then Store.seed else r.table }) := by
  simp only [applyPolicy, runEval, readCommon_dec h, Run.bind_go]
  rcases evalPolicy s.params.ratio r.common with _ | ⟨_ | _, c⟩
  · rfl
  · simp only [writeCommon_dec h]; rfl
  · simp only [writeCommon_dec h, Run.bind_go, if_true, resetDict_dec (State.setDec_regs _ _)]; rfl

theorem growIfReached_dec_regs :
    growIfReached .dec s = .go () (s.setDec { r with common := r.common.decGrown }) := by
  simp only [growIfReached, readCommon_dec h, Run.bind_go, capacityReached, writeCommon_dec h, Common.decGrown]
  by_cases hc : r.common.count + 1 = r.common.L ∧ r.common.W < 16
  · simp [hc, Config.wMax, growWidth, Nat.mul_comm]
  · simp [hc, Config.wMax, State.setDec_same h]

end

/-! ### Growth -/

@[simp] theorem Common.encGrown_count (c : Common) : c.encGrown.count = c.count := by unfold Common.encGrown; split <;> rfl
@[simp] theorem Common.encGrown_U (c : Common) : c.encGrown.U = c.U := by unfold Common.encGrown; split <;> rfl
@[simp] theorem Common.encGrown_C (c : Common) : c.encGrown.C = c.C := by unfold Common.encGrown; split <;> rfl
@[simp] theorem Common.decGrown_count (c : Common) : c.decGrown.count = c.count := by unfold Common.decGrown; split <;> rfl
@[simp] theorem Common.decGrown_U (c : Common) : c.decGrown.U = c.U := by unfold Common.decGrown; split <;> rfl

section
variable {c : Common} (h : c.Inv)
include h

theorem Common.Inv.encGrown : c.encGrown.Inv := by
  unfold Common.encGrown
  split
  · rename_i hc; exact h.grow hc.2
  · exact h

theorem Common.Inv.decGrown : c.decGrown.Inv := by
  unfold Common.decGrown
  split
  · rename_i hc; exact h.grow hc.2
  · exact h

/-- After ENC.GROW the count stands below the capacity, but at width 16 (rules R47, R156). -/
theorem Common.Inv.encGrown_room : c.encGrown.W < 16 → c.encGrown.count + 1 ≤ c.encGrown.L := by
  have hseeded := h.seeded
  have hbounded := h.bounded
  unfold Common.encGrown
  split
  · exact fun _ => show c.count + 1 ≤ 2 * c.L by omega
  · omega

/-- After DEC.GROW the count stands two below the capacity, but at width 16 (rules R47, R178). -/
theorem Common.Inv.decGrown_room (hroom : c.W < 16 → c.count + 1 ≤ c.L) :
    c.decGrown.W < 16 → c.decGrown.count + 2 ≤ c.decGrown.L := by
  have hseeded := h.seeded
  unfold Common.decGrown
  split
  · exact fun _ => show c.count + 2 ≤ 2 * c.L by omega
  · omega

end

/-! ### Operations that do not end a step -/

theorem Run.go_ne_ended {α : Type} (a : α) (s t : State) : Run.go a s ≠ .ended t := nofun

theorem Run.fault_ne_ended {α : Type} (f : Fault) (t : State) : (Run.fault f : Run α) ≠ .ended t := nofun

theorem Run.bind_ne_ended {α β : Type} {m : Run α} {k : α → State → Run β} (hm : ∀ t, m ≠ .ended t)
    (hk : ∀ a s t, k a s ≠ .ended t) (t : State) : m.bind k ≠ .ended t := fun h =>
  (Run.bind_eq_ended.1 h).elim (hm t) fun ⟨a, s, _, hs⟩ => hk a s t hs

theorem longestPrefix_ne_ended (rest : Bytes) (s t : State) : longestPrefix rest s ≠ .ended t :=
  Run.bind_ne_ended (fun _ => readEnc_ne_ended) (fun r _ _ => by
    cases r.dict.longestMatch rest with
    | none => exact Run.fault_ne_ended _ _
    | some b => exact Run.go_ne_ended _ _ _) t

theorem dictInsert_ne_ended (key : Bytes) (code : Nat) (s t : State) : dictInsert key code s ≠ .ended t := by
  refine Run.bind_ne_ended (fun _ => readEnc_ne_ended) (fun r u => ?_) t
  split
  · exact Run.fault_ne_ended _
  · exact Run.bind_ne_ended (fun _ => holdSeq_ne_ended) fun _ _ => Run.go_ne_ended _ _

theorem tableRead_ne_ended (i : Nat) (s t : State) : tableRead i s ≠ .ended t := by
  unfold tableRead
  split
  · exact Run.fault_ne_ended _ _
  · exact Run.bind_ne_ended (fun _ => readDec_ne_ended) (fun r _ _ => by
      cases r.table.read i with
      | none => exact Run.fault_ne_ended _ _
      | some q => exact Run.go_ne_ended _ _ _) t

theorem tableWrite_ne_ended (i : Nat) (q : Bytes) (s t : State) : tableWrite i q s ≠ .ended t := by
  unfold tableWrite
  split
  · exact Run.fault_ne_ended _ _
  · exact Run.bind_ne_ended (fun _ => readDec_ne_ended) (fun _ _ =>
      Run.bind_ne_ended (fun _ => holdSeq_ne_ended) fun _ _ => Run.go_ne_ended _ _) t

/-! ### The Encoder in the middle of a step -/

/-- The Encoder's registers in an ENC.STEP that has accounted for `q`, with room `k` below the capacity, and `bits` bits in
the sink. Between steps `q` is empty and the room is 1. -/
structure EncRegs.Mid (r : EncRegs) (q : Bytes) (k bits : Nat) : Prop where
  common : r.common.Inv
  dict : r.dict.Inv r.common.count
  keys : ∀ c d p, r.dict.read c = some p → r.dict.read d = some p → c = d
  cursor : r.pos + q.length ≤ r.inp.length
  room : r.common.W < 16 → r.common.count + k ≤ r.common.L
  uncompressed : r.common.U = 8 * (r.pos + q.length)
  compressed : bits = 9 + r.common.C

theorem EncRegs.inv_iff_mid {r : EncRegs} {bits : Nat} : r.Inv bits ↔ r.Mid [] 1 bits := by
  constructor
  · intro h
    have hW := h.common.width
    have hbounded := h.common.bounded
    have hgrown := h.grown
    exact ⟨h.common, h.dict, h.keys, h.cursor, by omega, h.uncompressed, h.compressed⟩
  · intro h
    have hW := h.common.width
    have hroom := h.room
    exact ⟨h.common, h.dict, h.keys, h.cursor, by omega, h.uncompressed, h.compressed⟩

section
variable {r : EncRegs} {q : Bytes} {k bits : Nat}

/-- ENC.EMIT puts the codeword of `q` at the width and accounts for both (rule R153). -/
theorem EncRegs.Mid.emit (h : r.Mid [] k bits) (hq : r.pos + q.length ≤ r.inp.length) :
    EncRegs.Mid { r with common := { r.common with U := r.common.U + 8 * q.length, C := r.common.C + r.common.W } } q k
      (bits + r.common.W) where
  common := h.common.counters _ _
  dict := h.dict
  keys := h.keys
  cursor := hq
  room := h.room
  uncompressed := by simp only [h.uncompressed, List.length_nil]; ring
  compressed := by rw [h.compressed, Nat.add_assoc]

/-- ENC.POLICY (rules R134, R139, R154). -/
theorem EncRegs.Mid.policy {t : RatioTest} {c : Common} {fire : Bool} (h : r.Mid q 1 bits)
    (he : evalPolicy t r.common = some (fire, c)) :
    EncRegs.Mid { r with common := c.afterPolicy fire, dict := if fire then Store.seed else r.dict } q 1 bits := by
  obtain ⟨hW, hL, hcount, hU, hC⟩ := evalPolicy_changes he
  have huncompressed : (c.afterPolicy fire).U = 8 * (r.pos + q.length) := by rw [Common.afterPolicy_U, hU, h.uncompressed]
  have hcompressed : bits = 9 + (c.afterPolicy fire).C := by rw [Common.afterPolicy_C, hC, h.compressed]
  cases fire with
  | false =>
    exact ⟨h.common.policy he, hcount ▸ h.dict, h.keys, h.cursor, hW ▸ hL ▸ hcount ▸ h.room, huncompressed, hcompressed⟩
  | true =>
    exact ⟨h.common.policy he, Store.inv_seed, fun _ _ _ => Store.seed_injective, h.cursor,
      fun _ => (by decide : 257 + 1 ≤ 512), huncompressed, hcompressed⟩

/-- ENC.INSERT where it adds an entry (rule R155). -/
theorem EncRegs.Mid.insert {key : Bytes} (h : r.Mid q 1 bits) (hroom : r.common.count < r.common.L)
    (hkey : 2 ≤ key.length) (hnew : r.dict.codeOf key = none) :
    EncRegs.Mid { r with
      common := { r.common with count := r.common.count + 1 }, dict := r.dict.write r.common.count key } q 0 bits where
  common := h.common.insert hroom
  dict := h.dict.write h.common.seeded hkey
  keys := Store.write_keys h.keys hnew
  cursor := h.cursor
  room _ := hroom
  uncompressed := h.uncompressed
  compressed := h.compressed

/-- ENC.GROW (rule R156). -/
theorem EncRegs.Mid.grow (h : r.Mid q 0 bits) : EncRegs.Mid { r with common := r.common.encGrown } q 1 bits where
  common := h.common.encGrown
  dict := by simpa using h.dict
  keys := h.keys
  cursor := h.cursor
  room := h.common.encGrown_room
  uncompressed := by simpa using h.uncompressed
  compressed := by simpa using h.compressed

/-- ENC.ADVANCE (rule R157). -/
theorem EncRegs.Mid.advance (h : r.Mid q k bits) : EncRegs.Mid { r with pos := r.pos + q.length } [] k bits :=
  ⟨h.common, h.dict, h.keys, h.cursor, h.room, h.uncompressed, h.compressed⟩

theorem EncRegs.Mid.less_room (h : r.Mid q 1 bits) : r.Mid q 0 bits :=
  ⟨h.common, h.dict, h.keys, h.cursor, fun _ => h.common.bounded, h.uncompressed, h.compressed⟩

end

/-- The Encoder in the middle of an ENC.STEP that has accounted for `q`, with room `k` below the capacity. -/
def Encoder.Mid (e : Encoder) (q : Bytes) (k : Nat) : Prop :=
  e.phase = .step ∧ e.fault = .none ∧
    ∃ r o, e.regs = some r ∧ e.out = some o ∧ o.closed = false ∧ r.Mid q k o.bits.length

theorem Encoder.inv_iff_mid {e : Encoder} (hp : e.phase = .step) : e.Inv ↔ e.Mid [] 1 := by
  simp only [Encoder.Inv, hp, Encoder.Mid, true_and, EncRegs.inv_iff_mid]

theorem Encoder.Mid.inv {e : Encoder} (h : e.Mid [] 1) : e.Inv := (Encoder.inv_iff_mid h.1).2 h

section
variable {s : State} {q : Bytes}

/-- ENC.LOOKUP finds a non-empty start of the remaining input (rule R152). -/
theorem encLookup_ensures (s : State) : (encLookup s).Ensures (·.enc.Inv) fun b t =>
    t = s ∧ b.1 ≠ [] ∧ ∃ r, s.enc.regs = some r ∧ b.1 <+: r.inp.drop r.pos := by
  refine Run.ensures_of_go (fun b t h => ?_) fun t h => ?_
  · obtain ⟨rfl, -, r, hr, hm⟩ := encLookup_eq_go.1 h
    obtain ⟨-, hne, hprefix⟩ := Store.longestMatch_sound hm
    exact ⟨rfl, hne, r, hr, hprefix⟩
  · revert t
    exact Run.bind_ne_ended (fun _ => readEnc_ne_ended) fun r _ => Run.bind_ne_ended (longestPrefix_ne_ended _ _) fun _ _ =>
      Run.bind_ne_ended (fun _ => holdSeq_ne_ended) fun _ _ => Run.go_ne_ended _ _

theorem encEmit_ensures {c : Nat} (h : s.enc.Mid [] 1)
    (hq : ∃ r, s.enc.regs = some r ∧ q <+: r.inp.drop r.pos) :
    (encEmit q c s).Ensures (·.enc.Inv) fun _ t => t.enc.Mid q 1 := by
  obtain ⟨hp, hf, r, o, hr, ho, hopen, hmid⟩ := h
  obtain ⟨r', hr', hprefix⟩ := hq
  cases hr.symm.trans hr'
  have hlen : q.length ≤ r.inp.length - r.pos := List.length_drop ▸ hprefix.length_le
  have hcursor : r.pos + q.length ≤ r.inp.length := by have : r.pos ≤ r.inp.length := hmid.cursor; omega
  simp only [encEmit, readEnc_some hr, Run.bind_go]
  refine Run.Ensures.bind (Run.ensures_of_go (fun _ _ h => h) fun _ => putBits_ne_ended) fun _ t ht => ?_
  obtain ⟨o', ho', -, -, -, rfl⟩ := putBits_eq_go ht
  cases ho.symm.trans ho'
  rw [accountBits_enc_regs (r := r)]
  case h => exact hr
  split
  · exact ⟨.inr rfl, rfl, _, rfl, hopen⟩
  · exact ⟨hp, hf, _, _, rfl, rfl, hopen, by simpa using hmid.emit hcursor⟩

theorem encPolicy_ensures (h : s.enc.Mid q 1) : (encPolicy s).Ensures (·.enc.Inv) fun _ t => t.enc.Mid q 1 := by
  obtain ⟨hp, hf, r, o, hr, ho, hopen, hmid⟩ := h
  rw [encPolicy, applyPolicy_enc_regs hr]
  cases he : evalPolicy s.params.ratio r.common with
  | none => trivial
  | some e => exact ⟨hp, hf, _, o, rfl, ho, hopen, hmid.policy he⟩

theorem encInsert_ensures (hq : q ≠ []) (h : s.enc.Mid q 1) :
    (encInsert q s).Ensures (·.enc.Inv) fun _ t => t.enc.Mid q 0 := by
  obtain ⟨hp, hf, r, o, hr, ho, hopen, hmid⟩ := h
  simp only [encInsert, readEnc_some hr, Run.bind_go]
  split
  case isFalse => exact ⟨hp, hf, r, o, hr, ho, hopen, hmid.less_room⟩
  case isTrue hcan =>
    have hkey : 2 ≤ (insertKey q r).length := by
      have := List.length_pos_iff.2 hq
      rw [insertKey, List.length_take, List.length_drop]
      omega
    refine Run.Ensures.bind (Run.ensures_of_go (fun _ _ h => h) (dictInsert_ne_ended _ _ _)) fun _ t ht => ?_
    obtain ⟨r', hr', -, -, hnew, -, rfl⟩ := dictInsert_eq_go ht
    cases hr.symm.trans hr'
    rw [writeCommon_enc (State.setEnc_regs _ _)]
    exact ⟨hp, hf, _, o, rfl, ho, hopen, hmid.insert hcan.2 hkey hnew⟩

theorem encGrow_ensures (h : s.enc.Mid q 0) : (encGrow s).Ensures (·.enc.Inv) fun _ t => t.enc.Mid q 1 := by
  obtain ⟨hp, hf, r, o, hr, ho, hopen, hmid⟩ := h
  rw [encGrow, growIfReached_enc_regs hr]
  exact ⟨hp, hf, _, o, rfl, ho, hopen, hmid.grow⟩

theorem encAdvance_ensures (h : s.enc.Mid q 1) : (encAdvance q s).Ensures (·.enc.Inv) fun _ t => t.enc.Inv := by
  obtain ⟨hp, hf, r, o, hr, ho, hopen, hmid⟩ := h
  simp only [encAdvance, readEnc_some hr, Run.bind_go]
  exact Encoder.Mid.inv ⟨hp, hf, _, o, rfl, ho, hopen, hmid.advance⟩

theorem encStepBody_ensures (h : s.enc.Mid [] 1) : (encStepBody s).Ensures (·.enc.Inv) fun _ t => t.enc.Inv :=
  (encLookup_ensures s).bind fun _ _ ⟨hs, hne, hprefix⟩ =>
    (encEmit_ensures (hs ▸ h) (hs ▸ hprefix)).bind fun _ _ h => (encPolicy_ensures h).bind fun _ _ h =>
      (encInsert_ensures hne h).bind fun _ _ h => (encGrow_ensures h).bind fun _ _ h => encAdvance_ensures h

/-- ENC.FINISH closes the sink on whole bytes (rules R74, R158). -/
theorem encFinishBody_ensures (h : s.enc.Mid [] 1) : (encFinishBody s).Ensures (·.enc.Inv) fun _ t => t.enc.Inv := by
  obtain ⟨hp, hf, r, o, hr, ho, hopen, hmid⟩ := h
  simp only [encFinishBody, readEnc_some hr, Run.bind_go]
  refine Run.Ensures.bind (Run.ensures_of_go (fun _ _ h => h) fun _ => putBits_ne_ended) fun _ t ht => ?_
  obtain ⟨o', ho', -, -, -, rfl⟩ := putBits_eq_go ht
  have hregs : r.Inv (9 + r.common.C) := hmid.compressed ▸ EncRegs.inv_iff_mid.2 hmid
  refine ⟨hf, r, _, hr, rfl, rfl, ?_, hregs⟩
  simpa only [BitSink.close, List.length_append] using dvd_length_padBits _

end

/-! ### The Encoder's instructions -/

section
variable {s t : State} (h : s.enc.Inv)
include h

/-- An operation that runs between steps where its condition on the registers holds. -/
theorem encOperation_keeps_inv {b : EncRegs → Bool} {k : State → Run Unit}
    (hk : s.enc.Mid [] 1 → (k s).Ensures (·.enc.Inv) fun _ t => t.enc.Inv)
    (ht : (whenEnabled (s.running .enc) ((readEnc s).bind fun r s => whenEnabled (b r) (k s))).outcome = .next t) :
    t.enc.Inv := by
  refine Run.Ensures.outcome (E := (·.enc.Inv)) (Run.Ensures.whenEnabled fun hrun => ?_) ht
  have hmid := (Encoder.inv_iff_mid (running_enc_iff.1 hrun)).1 h
  have ⟨_, _, r, _, hr, _⟩ := hmid
  rw [readEnc_some hr]
  exact Run.Ensures.whenEnabled fun _ => hk hmid

theorem execEncStep_keeps_inv (ht : execEncStep s = .next t) : t.enc.Inv :=
  encOperation_keeps_inv h encStepBody_ensures ht

theorem execEncFinish_keeps_inv (ht : execEncFinish s = .next t) : t.enc.Inv :=
  encOperation_keeps_inv h encFinishBody_ensures ht

theorem encCommand_keeps_inv {m : BitVec 2} (ht : encCommand m s = .next t) : t.enc.Inv := by
  unfold encCommand at ht
  split at ht
  · cases ht; exact h
  · cases hm : modeOfNumber m.toNat with
    | none =>
      rw [encStart_illegal hm] at ht
      cases ht
      exact ⟨.inl rfl, rfl, _, rfl, rfl⟩
    | some mode =>
      rw [encStart_legal hm] at ht
      cases ht
      exact ⟨rfl, _, _, rfl, rfl, rfl, EncRegs.inv_start mode _⟩

end

/-! ### The Decoder in the middle of a step -/

/-- The Decoder's registers in a DEC.STEP, with room `k` below the capacity and `bytes` bytes in the sink. Between steps
the room is 2. -/
structure DecRegs.Mid (r : DecRegs) (k bytes : Nat) : Prop where
  common : r.common.Inv
  table : r.table.Inv r.common.count
  room : r.common.W < 16 → r.common.count + k ≤ r.common.L
  consumed : r.bitpos ≤ (streamBits r.src).length
  uncompressed : r.common.U = 8 * bytes

theorem DecRegs.inv_iff_mid {r : DecRegs} {bytes : Nat} : r.Inv bytes ↔ r.Mid 2 bytes :=
  ⟨fun h => ⟨h.common, h.table, h.grown, h.consumed, h.uncompressed⟩,
    fun h => ⟨h.common, h.table, h.room, h.consumed, h.uncompressed⟩⟩

section
variable {r : DecRegs} {k bytes : Nat}

/-- DEC.OUTPUT writes `n` bytes and accounts for them (rule R173). -/
theorem DecRegs.Mid.output (h : r.Mid k bytes) (n w : Nat) :
    DecRegs.Mid { r with common := { r.common with U := r.common.U + 8 * n, C := r.common.C + w } } k (bytes + n) where
  common := h.common.counters _ _
  table := h.table
  room := h.room
  consumed := h.consumed
  uncompressed := by simp only [h.uncompressed]; ring

/-- DEC.POLICY (rules R134, R139, R174). -/
theorem DecRegs.Mid.policy {t : RatioTest} {c : Common} {fire : Bool} (h : r.Mid 2 bytes)
    (he : evalPolicy t r.common = some (fire, c)) :
    DecRegs.Mid { r with common := c.afterPolicy fire, table := if fire then Store.seed else r.table } 2 bytes := by
  obtain ⟨hW, hL, hcount, hU, -⟩ := evalPolicy_changes he
  have huncompressed : (c.afterPolicy fire).U = 8 * bytes := by rw [Common.afterPolicy_U, hU, h.uncompressed]
  cases fire with
  | false => exact ⟨h.common.policy he, hcount ▸ h.table, hW ▸ hL ▸ hcount ▸ h.room, h.consumed, huncompressed⟩
  | true =>
    exact ⟨h.common.policy he, Store.inv_seed, fun _ => (by decide : 257 + 2 ≤ 512), h.consumed, huncompressed⟩

/-- A unit of the stream taken whole (rules R43, R73). -/
theorem DecRegs.Mid.take {w : Nat} (h : r.Mid k bytes) (hw : r.bitpos + w ≤ (streamBits r.src).length) :
    (consumeUnit w r).Mid k bytes :=
  ⟨h.common, h.table, h.room, hw, h.uncompressed⟩

/-- DEC.INSERT where it adds an entry (rule R177). -/
theorem DecRegs.Mid.insert {e : Bytes} (h : r.Mid 2 bytes) (hroom : r.common.count < r.common.L) (he : 2 ≤ e.length) :
    DecRegs.Mid { r with
      common := { r.common with count := r.common.count + 1 }, table := r.table.write r.common.count e } 1 bytes where
  common := h.common.insert hroom
  table := h.table.write h.common.seeded he
  room := h.room
  consumed := h.consumed
  uncompressed := h.uncompressed

theorem DecRegs.Mid.less_room (h : r.Mid 2 bytes) : r.Mid 1 bytes :=
  ⟨h.common, h.table, fun hW => Nat.le_of_succ_le (h.room hW), h.consumed, h.uncompressed⟩

/-- DEC.GROW (rule R178). -/
theorem DecRegs.Mid.grow (h : r.Mid 1 bytes) : DecRegs.Mid { r with common := r.common.decGrown } 2 bytes where
  common := h.common.decGrown
  table := by simpa using h.table
  room := h.common.decGrown_room h.room
  consumed := h.consumed
  uncompressed := by simpa using h.uncompressed

/-- DEC.FIRST and DEC.ADVANCE set `D.val` (rules R171, R179). -/
theorem DecRegs.Mid.setVal (h : r.Mid k bytes) (v : Option Bytes) : DecRegs.Mid { r with val := v } k bytes :=
  ⟨h.common, h.table, h.room, h.consumed, h.uncompressed⟩

end

/-- `D.val` is a sequence, and the width at which its codeword was read is a width (rules R38, R46). -/
def DecRegs.HoldsVal (r : DecRegs) : Prop :=
  (∃ q, r.val = some q ∧ q ≠ []) ∧ ∃ w, r.readW = some w ∧ 9 ≤ w ∧ w ≤ 16

/-- The Decoder in the middle of a DEC.STEP, with room `k` below the capacity. -/
def Decoder.Mid (d : Decoder) (k : Nat) : Prop :=
  d.phase = .loop ∧ d.fault = .none ∧
    ∃ r o, d.regs = some r ∧ d.out = some o ∧ o.closed = false ∧ r.Mid k o.bytes.length ∧ r.HoldsVal

theorem Decoder.inv_iff_mid {d : Decoder} (hp : d.phase = .loop) : d.Inv ↔ d.Mid 2 := by
  simp only [Decoder.Inv, hp, Decoder.Mid, DecRegs.HoldsVal, true_and, ← DecRegs.inv_iff_mid]
  constructor
  · rintro ⟨hf, r, o, q, w, hr, ho, hopen, hinv, hval, hne, hreadW, hw⟩
    exact ⟨hf, r, o, hr, ho, hopen, hinv, ⟨q, hval, hne⟩, w, hreadW, hw⟩
  · rintro ⟨hf, r, o, hr, ho, hopen, hinv, ⟨q, hval, hne⟩, w, hreadW, hw⟩
    exact ⟨hf, r, o, q, w, hr, ho, hopen, hinv, hval, hne, hreadW, hw⟩

theorem Decoder.Mid.inv {d : Decoder} (h : d.Mid 2) : d.Inv := (Decoder.inv_iff_mid h.1).2 h

/-- A fault of the Decoder leaves its open output (rules R209, R220). -/
theorem raiseFault_dec_ensures {α : Type} {Q : α → State → Prop} {s : State} {o : ByteSink} {code : FaultCode}
    {info : Option Nat} (hcode : code ≠ .none) (ho : s.dec.out = some o) (hopen : o.closed = false) :
    (raiseFault .dec code info s : Run α).Ensures (·.dec.Inv) Q :=
  ⟨hcode, rfl, o, ho, hopen⟩

/-! ### The Decoder's sub-steps that need no phase -/

section
variable {s : State} {r : DecRegs} {o : ByteSink} (hr : s.dec.regs = some r)
include hr

theorem raisePremature_ensures {α : Type} {Q : α → State → Prop} (ho : s.dec.out = some o) (hopen : o.closed = false) :
    (raisePremature s : Run α).Ensures (·.dec.Inv) Q := by
  simp only [raisePremature, readDec_some hr, Run.bind_go]
  exact raiseFault_dec_ensures (by decide) ho hopen

theorem decFinishBody_ensures (hf : s.dec.fault = .none) (ho : s.dec.out = some o) (hmid : r.Mid 2 o.bytes.length) :
    (decFinishBody s).Ensures (·.dec.Inv) fun _ t => t.dec.Inv := by
  simp only [decFinishBody, closeSink, ho, Run.bind_go]
  exact ⟨hf, r, _, hr, rfl, rfl, DecRegs.inv_iff_mid.2 hmid⟩

/-- Reading a unit: nothing taken at the end of the input, else the unit whole (rule R73). -/
theorem readUnit_ensures {k bytes : Nat} (hmid : r.Mid k bytes) :
    (readUnit s).Ensures (·.dec.Inv) fun v t =>
      (v = none ∧ t = s) ∨
      t = s.setDec (consumeUnit r.common.W r) ∧ (consumeUnit r.common.W r).Mid k bytes := by
  have hW := hmid.common.width
  rw [readUnit_regs hr ⟨by omega, hW.2⟩]
  cases hp : peekBits r.src r.bitpos r.common.W with
  | none => exact .inl ⟨rfl, rfl⟩
  | some v => exact .inr ⟨rfl, hmid.take (peekBits_eq_some hp)⟩

end

theorem holdSeq_ensures {E : State → Prop} (q : Bytes) (s : State) : (holdSeq q s).Ensures E fun _ t => t = s :=
  Run.ensures_of_go (fun _ _ h => (holdSeq_eq_go.1 h).2) fun _ => holdSeq_ne_ended

theorem tableRead_ensures {E : State → Prop} (i : Nat) (s : State) :
    (tableRead i s).Ensures E fun q t => t = s ∧ ∃ r, s.dec.regs = some r ∧ r.table.read i = some q :=
  Run.ensures_of_go (fun _ _ h => ⟨(tableRead_eq_go h).1, (tableRead_eq_go h).2.2⟩) (tableRead_ne_ended _ _)

theorem appendFirst_eq_some {q p e : Bytes} (h : appendFirst q p = some e) : e.length = q.length + 1 := by
  obtain ⟨b, -, rfl⟩ := Option.map_eq_some_iff.1 h
  exact List.length_append

/-! ### DEC.FIRST -/

theorem decFirstBody_ensures {s : State} (hp : s.dec.phase = .first) (h : s.dec.Inv) :
    (decFirstBody readUnit s).Ensures (·.dec.Inv) fun _ t => t.dec.Inv := by
  simp only [Decoder.Inv, hp] at h
  obtain ⟨hf, r, hr, ho, hinv, -, -, -⟩ := h
  refine (readUnit_ensures hr (DecRegs.inv_iff_mid.1 hinv)).bind fun v t hread => ?_
  rcases hread with ⟨rfl, rfl⟩ | ⟨rfl, hmid⟩
  · exact raisePremature_ensures hr ho rfl
  cases v with
  | none => exact raisePremature_ensures (State.setDec_regs _ _) ho rfl
  | some cw =>
    dsimp only
    split
    · exact decFinishBody_ensures (State.setDec_regs _ _) hf ho hmid
    · split
      · exact raiseFault_dec_ensures (by decide) ho rfl
      · refine (tableRead_ensures cw _).bind fun q t ⟨ht, r', hr', hq⟩ => ?_
        subst ht
        cases hr'
        refine (holdSeq_ensures q _).bind fun _ t ht => ?_
        subst ht
        have hW := hmid.common.width
        simp only [readDec_setDec, Run.bind_go, Run.Ensures]
        exact Decoder.Mid.inv ⟨rfl, hf, _, _, rfl, ho, rfl, hmid.setVal _, ⟨q, rfl, hmid.table.ne_nil hq⟩, _, rfl, hW⟩

/-! ### DEC.STEP -/

section
variable {s : State}

theorem decOutput_ensures (h : s.dec.Mid 2) : (decOutput s).Ensures (·.dec.Inv) fun _ t => t.dec.Mid 2 := by
  obtain ⟨hp, hf, r, o, hr, ho, hopen, hmid, hval⟩ := h
  simp only [decOutput, readDec_some hr, Run.bind_go]
  split
  case h_2 => trivial
  case h_1 q w hq hw =>
    rw [writeBytes_open q ho hopen, Run.bind_go, accountBits_dec_regs (r := r)]
    case h => exact hr
    split
    · exact raiseFault_dec_ensures (by decide) rfl hopen
    · exact ⟨hp, hf, _, _, rfl, rfl, hopen, by simpa using hmid.output q.length w, hval⟩

theorem decPolicy_ensures (h : s.dec.Mid 2) : (decPolicy s).Ensures (·.dec.Inv) fun _ t => t.dec.Mid 2 := by
  obtain ⟨hp, hf, r, o, hr, ho, hopen, hmid, hval⟩ := h
  rw [decPolicy, applyPolicy_dec_regs hr]
  cases he : evalPolicy s.params.ratio r.common with
  | none => trivial
  | some e => exact ⟨hp, hf, _, o, rfl, ho, hopen, hmid.policy he, hval⟩

theorem decRead_ensures (h : s.dec.Mid 2) : (decRead readUnit s).Ensures (·.dec.Inv) fun _ t => t.dec.Mid 2 := by
  obtain ⟨hp, hf, r, o, hr, ho, hopen, hmid, hval, -⟩ := h
  refine (readUnit_ensures hr hmid).bind fun v t hread => ?_
  rcases hread with ⟨rfl, rfl⟩ | ⟨rfl, hmid⟩
  · exact raisePremature_ensures hr ho hopen
  cases v with
  | none => exact raisePremature_ensures (State.setDec_regs _ _) ho hopen
  | some cw =>
    dsimp only
    split
    · exact (decFinishBody_ensures (State.setDec_regs _ _) hf ho hmid).bind fun _ _ hinv => hinv
    · exact ⟨hp, hf, _, o, rfl, ho, hopen, hmid, hval, _, rfl, hmid.common.width⟩

theorem decResolve_ensures {cw : Nat} (h : s.dec.Mid 2) :
    (decResolve cw s).Ensures (·.dec.Inv) fun q t => q ≠ [] ∧ t.dec.Mid 2 := by
  have ⟨_, _, r, o, hr, ho, hopen, hmid, _⟩ := h
  have hold {q : Bytes} (hq : q ≠ []) : ((holdSeq q s).bind fun _ s => Run.go q s).Ensures (·.dec.Inv)
      fun q t => q ≠ [] ∧ t.dec.Mid 2 := (holdSeq_ensures q s).bind fun _ t ht => ⟨hq, ht ▸ h⟩
  simp only [decResolve, readDec_some hr, Run.bind_go]
  split
  · exact raiseFault_dec_ensures (by decide) ho hopen
  · split
    · split
      · rename_i q hq
        obtain ⟨p, -, hp⟩ := Option.bind_eq_some_iff.1 hq
        exact hold (List.ne_nil_of_length_pos (by rw [appendFirst_eq_some hp]; omega))
      · trivial
    · refine (tableRead_ensures cw s).bind fun q t ⟨ht, r', hr', hq⟩ => ?_
      subst ht
      cases hr.symm.trans hr'
      exact hold (hmid.table.ne_nil hq)

theorem decInsert_ensures {q : Bytes} (h : s.dec.Mid 2) : (decInsert q s).Ensures (·.dec.Inv) fun _ t => t.dec.Mid 1 := by
  obtain ⟨hp, hf, r, o, hr, ho, hopen, hmid, hval⟩ := h
  simp only [decInsert, readDec_some hr, Run.bind_go]
  split
  case isFalse => exact ⟨hp, hf, r, o, hr, ho, hopen, hmid.less_room, hval⟩
  case isTrue hroom =>
    split
    · rename_i e he
      obtain ⟨p, hp', he⟩ := Option.bind_eq_some_iff.1 he
      have ⟨⟨p', hval', hne⟩, _⟩ := hval
      cases hp'.symm.trans hval'
      have hlen : 2 ≤ e.length := by have := List.length_pos_iff.2 hne; rw [appendFirst_eq_some he]; omega
      refine Run.Ensures.bind (Run.ensures_of_go (fun _ _ h => h) (tableWrite_ne_ended _ _ _)) fun _ t ht => ?_
      obtain ⟨r', hr', -, -, rfl⟩ := tableWrite_eq_go ht
      cases hr.symm.trans hr'
      rw [writeCommon_dec (State.setDec_regs _ _)]
      exact ⟨hp, hf, _, o, rfl, ho, hopen, hmid.insert hroom hlen, hval⟩
    · trivial

theorem decGrow_ensures (h : s.dec.Mid 1) : (decGrow s).Ensures (·.dec.Inv) fun _ t => t.dec.Mid 2 := by
  obtain ⟨hp, hf, r, o, hr, ho, hopen, hmid, hval⟩ := h
  rw [decGrow, growIfReached_dec_regs hr]
  exact ⟨hp, hf, _, o, rfl, ho, hopen, hmid.grow, hval⟩

theorem decAdvance_ensures {q : Bytes} (hq : q ≠ []) (h : s.dec.Mid 2) :
    (decAdvance q s).Ensures (·.dec.Inv) fun _ t => t.dec.Inv := by
  obtain ⟨hp, hf, r, o, hr, ho, hopen, hmid, -, hreadW⟩ := h
  simp only [decAdvance, readDec_some hr, Run.bind_go]
  exact Decoder.Mid.inv ⟨hp, hf, _, o, rfl, ho, hopen, hmid.setVal _, ⟨q, rfl, hq⟩, hreadW⟩

theorem decStepBody_ensures (h : s.dec.Mid 2) :
    (decStepBody readUnit s).Ensures (·.dec.Inv) fun _ t => t.dec.Inv :=
  (decOutput_ensures h).bind fun _ _ h => (decPolicy_ensures h).bind fun _ _ h => (decRead_ensures h).bind fun _ _ h =>
    (decResolve_ensures h).bind fun _ _ ⟨hq, h⟩ => (decInsert_ensures h).bind fun _ _ h =>
      (decGrow_ensures h).bind fun _ _ h => decAdvance_ensures hq h

end

/-! ### The Decoder's instructions -/

section
variable {s t : State} (h : s.dec.Inv)
include h

theorem execDecFirst_keeps_inv (ht : execDecFirst s = .next t) : t.dec.Inv :=
  Run.Ensures.outcome (E := (·.dec.Inv))
    (Run.Ensures.whenEnabled fun hp => decFirstBody_ensures (of_decide_eq_true hp) h) ht

theorem execDecStep_keeps_inv (ht : execDecStep s = .next t) : t.dec.Inv :=
  Run.Ensures.outcome (E := (·.dec.Inv))
    (Run.Ensures.whenEnabled fun hp => decStepBody_ensures ((Decoder.inv_iff_mid (of_decide_eq_true hp)).1 h)) ht

end

/-- DEC.START meets the invariant, whatever the Decoder held (rules R53, R209, R210). -/
theorem decStart_ensures (low : BitVec 2) (s : State) :
    (decStart low (headerTag s) s).Ensures (·.dec.Inv) fun _ t => t.dec.Inv := by
  by_cases hlow : low = 0
  case neg =>
    rw [decStart, if_pos hlow]
    exact raiseFault_dec_ensures (by decide) rfl rfl
  case pos =>
    subst hlow
    cases htag : headerTag s with
    | none => exact raiseFault_dec_ensures (by decide) rfl rfl
    | some n =>
      cases hm : modeOfNumber n with
      | none =>
        simp only [decStart, hm]
        exact raiseFault_dec_ensures (by decide) rfl rfl
      | some mode =>
        rw [decStart_legal hm]
        have hlen : 0 + 9 ≤ (streamBits s.bitSource).length := peekBits_eq_some htag
        exact ⟨rfl, _, rfl, rfl, DecRegs.inv_start mode s.bitSource (by omega), rfl, rfl, rfl⟩

theorem decCommand_keeps_inv {s t : State} {low : BitVec 2} (h : s.dec.Inv) (ht : decCommand low s = .next t) :
    t.dec.Inv := by
  unfold decCommand at ht
  split at ht
  · cases ht; exact h
  · exact (decStart_ensures low s).outcome ht

/-! ### The step -/

theorem exec_keeps_inv_of_enc {i : Instr} {s t : State} (hi : i.onEncoder = true) (h : s.Inv) (ht : exec i s = .next t)
    (henc : t.enc.Inv) : t.Inv :=
  have hdec : t.dec = s.dec := congrArg Prod.fst (exec_decSide hi ht)
  ⟨henc, hdec ▸ h.2⟩

theorem exec_keeps_inv_of_dec {i : Instr} {s t : State} (hi : i.onEncoder = false) (h : s.Inv) (ht : exec i s = .next t)
    (hdec : t.dec.Inv) : t.Inv :=
  have henc : t.enc = s.enc := congrArg Prod.fst (exec_encSide hi ht)
  ⟨henc ▸ h.1, hdec⟩

/-- Every instruction that a step comes down to keeps the invariant of its engine and leaves the other alone. -/
theorem StepInstr.keeps_inv {i : Instr} (hi : StepInstr i) {s t : State} (h : s.Inv) (ht : exec i s = .next t) : t.Inv := by
  cases hi with
  | command cmd =>
    rcases exec_decodeCommand cmd with ⟨hon, m, hexec⟩ | ⟨hon, low, hexec⟩
    · exact exec_keeps_inv_of_enc hon h ht (encCommand_keeps_inv h.1 (hexec ▸ ht))
    · exact exec_keeps_inv_of_dec hon h ht (decCommand_keeps_inv h.2 (hexec ▸ ht))
  | encStep => exact exec_keeps_inv_of_enc rfl h ht (execEncStep_keeps_inv h.1 ht)
  | encFinish => exact exec_keeps_inv_of_enc rfl h ht (execEncFinish_keeps_inv h.1 ht)
  | decFirst => exact exec_keeps_inv_of_dec rfl h ht (execDecFirst_keeps_inv h.2 ht)
  | decStep => exact exec_keeps_inv_of_dec rfl h ht (execDecStep_keeps_inv h.2 ht)

/-- Settles O3: a step leaves the engines alone or runs an instruction that keeps the invariant. -/
theorem stepKeepsInvariant : Obligations.StepKeepsInvariant := by
  intro s t h ht
  obtain ⟨u, henc, hdec, hstep⟩ := step_cases ht
  have hu : u.Inv := ⟨henc ▸ h.1, hdec ▸ h.2⟩
  rcases hstep with rfl | ⟨i, hi, hexec⟩
  · exact hu
  · exact hi.keeps_inv hu hexec

end Sys2Proof.Machine

/-! ## Proofs: every instruction keeps the stores canonical (InstructionsKeepStoresCanonical)

Each operation gets a rule `KeepsCanonical`, kept by composition. A read of the registers hands the canonical form of the
engine's store to what follows, and a write of the registers asks for it. -/

namespace Sys2Proof.Machine

theorem Memory.wf_iff {s : State} : Memory.wf s = true ↔
    (∀ r, s.enc.regs = some r → r.dict.wf = true) ∧ (∀ r, s.dec.regs = some r → r.table.wf = true) := by
  unfold Memory.wf
  cases s.enc.regs <;> cases s.dec.regs <;> simp

/-- An engine whose registers hold `none` has no store (rule R209). -/
theorem Memory.wf_raise {s : State} (h : Memory.wf s = true) (x : Engine) (code : FaultCode) (info : Option Nat) :
    Memory.wf (s.raise x code info) = true := by
  rw [Memory.wf_iff] at h ⊢
  cases x with
  | enc => exact ⟨nofun, h.2⟩
  | dec => exact ⟨h.1, nofun⟩

/-- From a state with canonical stores the operation `k` goes on to such a state or ends the step in one. -/
def KeepsCanonical {α : Type} (k : State → Run α) : Prop :=
  ∀ s, Memory.wf s = true → (k s).Ensures (Memory.wf · = true) fun _ t => Memory.wf t = true

/-- From a state with canonical stores an instruction's meaning `f` answers such a state. -/
def OutcomeKeepsCanonical (f : State → Host.Outcome State Fault Refusal) : Prop :=
  ∀ s t, Memory.wf s = true → f s = .next t → Memory.wf t = true

/-! ### Composition -/

namespace KeepsCanonical

section
variable {α β : Type}

theorem bind {m : State → Run α} {k : α → State → Run β} (hm : KeepsCanonical m) (hk : ∀ a, KeepsCanonical (k a)) :
    KeepsCanonical fun s => (m s).bind (k · ·) :=
  fun s h => (hm s h).bind fun a t ht => hk a t ht

/-- The Encoder's registers, read from a state with canonical stores, hold one. -/
theorem readEnc {k : EncRegs → State → Run α} (hk : ∀ r, r.dict.wf = true → KeepsCanonical (k r)) :
    KeepsCanonical fun s => (readEnc s).bind (k · ·) := fun s h =>
  Run.Ensures.bind (Run.ensures_of_go (fun _ _ h => h) fun _ => readEnc_ne_ended) fun r t ht => by
    obtain ⟨hr, rfl⟩ := readEnc_eq_go.1 ht
    exact hk r (Memory.wf_enc h hr) _ h

/-- The Decoder's registers, read from a state with canonical stores, hold one. -/
theorem readDec {k : DecRegs → State → Run α} (hk : ∀ r, r.table.wf = true → KeepsCanonical (k r)) :
    KeepsCanonical fun s => (readDec s).bind (k · ·) := fun s h =>
  Run.Ensures.bind (Run.ensures_of_go (fun _ _ h => h) fun _ => readDec_ne_ended) fun r t ht => by
    obtain ⟨hr, rfl⟩ := readDec_eq_go.1 ht
    exact hk r (Memory.wf_dec h hr) _ h

theorem ite {p : State → Prop} [∀ s, Decidable (p s)] {k l : State → Run α} (hk : KeepsCanonical k)
    (hl : KeepsCanonical l) : KeepsCanonical fun s => if p s then k s else l s := by
  intro s h
  dsimp only
  split
  · exact hk s h
  · exact hl s h

/-- An operation that changes the state by `f` and returns. -/
theorem update (a : α) {f : State → State} (hf : ∀ s, Memory.wf s = true → Memory.wf (f s) = true) :
    KeepsCanonical fun s => Run.go a (f s) := hf

theorem go (a : α) : KeepsCanonical fun s => Run.go a s := update a fun _ h => h

theorem fault (e : Fault) : KeepsCanonical fun _ => (Run.fault e : Run α) := fun _ _ => trivial

theorem refused (r : Refusal) : KeepsCanonical fun _ => (Run.refused r : Run α) := fun _ _ => trivial

theorem raiseFault (x : Engine) (code : FaultCode) (info : Option Nat) :
    KeepsCanonical (raiseFault x code info : State → Run α) := fun _ h => Memory.wf_raise h x code info

theorem setEnc (a : α) {r : EncRegs} (hr : r.dict.wf = true) : KeepsCanonical fun s => Run.go a (s.setEnc r) :=
  update a fun _ h => Memory.wf_setEnc h hr

theorem setDec (a : α) {r : DecRegs} (hr : r.table.wf = true) : KeepsCanonical fun s => Run.go a (s.setDec r) :=
  update a fun _ h => Memory.wf_setDec h hr

theorem whenEnabled {b : State → Bool} {k : State → Run α} (hk : KeepsCanonical k) :
    KeepsCanonical fun s => whenEnabled (b s) (k s) := fun s h => Run.Ensures.whenEnabled fun _ => hk s h

theorem outcome {k : State → Run α} (hk : KeepsCanonical k) : OutcomeKeepsCanonical fun s => (k s).outcome :=
  fun s _ h ht => Run.Ensures.outcome (E := (Memory.wf · = true)) (hk s h) ht

theorem outcomeRet {k : State → Run α} (hk : KeepsCanonical k) (f : α → Ret) :
    OutcomeKeepsCanonical fun s => (k s).outcomeRet f := by
  intro s t h ht
  have hs := hk s h
  rcases Run.outcomeRet_eq_next.1 ht with ⟨a, u, hgo, rfl⟩ | hended
  · rw [hgo] at hs; exact hs
  · rw [hended] at hs; exact hs

end

end KeepsCanonical

/-! ### The operations that both engines share -/

theorem readCommon_keepsCanonical (x : Engine) : KeepsCanonical (readCommon x) := by
  cases x with
  | enc => exact .readEnc fun _ _ => .go _
  | dec => exact .readDec fun _ _ => .go _

theorem writeCommon_keepsCanonical (x : Engine) (c : Common) : KeepsCanonical (writeCommon x c) := by
  cases x with
  | enc => exact .readEnc fun _ hr => .setEnc _ hr
  | dec => exact .readDec fun _ hr => .setDec _ hr

theorem holdSeq_keepsCanonical (q : Bytes) : KeepsCanonical (holdSeq q) := .ite (.go _) (.refused _)

theorem KeepsCanonical.givenSeq {α : Type} {k : State → Run α} (q : Bytes) (hk : KeepsCanonical k) :
    KeepsCanonical (givenSeq q k) :=
  (holdSeq_keepsCanonical q).bind fun _ => hk

theorem closeSink_keepsCanonical (x : Engine) : KeepsCanonical (closeSink x) := by
  intro s h
  cases x with
  | enc =>
    unfold closeSink
    cases s.enc.out with
    | none => trivial
    | some o => exact h
  | dec =>
    unfold closeSink
    cases s.dec.out with
    | none => trivial
    | some o => exact h

theorem growIfReached_keepsCanonical (x : Engine) : KeepsCanonical (growIfReached x) :=
  (readCommon_keepsCanonical x).bind fun _ => .ite (writeCommon_keepsCanonical x _) (.go _)

theorem accountBits_keepsCanonical (x : Engine) (ubits cbits : Nat) : KeepsCanonical (accountBits x ubits cbits) :=
  (readCommon_keepsCanonical x).bind fun _ => .ite (.raiseFault x _ _) (writeCommon_keepsCanonical x _)

/-- How RP.EVAL and its variants end: the policy registers written and the condition returned. -/
theorem writeEval_keepsCanonical (x : Engine) (fire : Bool) (c : Common) :
    KeepsCanonical fun s => (writeCommon x c s).bind fun _ s => .go fire s :=
  (writeCommon_keepsCanonical x c).bind fun _ => .go _

theorem runEval_keepsCanonical (x : Engine) : KeepsCanonical (runEval x) :=
  (readCommon_keepsCanonical x).bind fun c s h => by
    cases evalPolicy s.params.ratio c with
    | none => trivial
    | some e => exact writeEval_keepsCanonical x e.1 e.2 s h

theorem runVariant_keepsCanonical (x : Engine) (inCase : Common → Bool)
    (variant : State → Common → Option (Bool × Common)) : KeepsCanonical (runVariant x inCase variant) :=
  KeepsCanonical.whenEnabled <| (readCommon_keepsCanonical x).bind fun c => .ite
    (fun s h => by
      cases variant s c with
      | none => trivial
      | some e => exact writeEval_keepsCanonical x e.1 e.2 s h)
    (.fault _)

theorem dictSeed_keepsCanonical : KeepsCanonical dictSeed := .readEnc fun _ _ => .setEnc _ Store.wf_seed

theorem tableSeed_keepsCanonical : KeepsCanonical tableSeed := .readDec fun _ _ => .setDec _ Store.wf_seed

theorem resetDict_keepsCanonical (x : Engine) : KeepsCanonical (resetDict x) := by
  have hwrite : KeepsCanonical fun s => (readCommon x s).bind fun c s =>
      writeCommon x (initWidth { c with count := Config.firstDyn }) s :=
    (readCommon_keepsCanonical x).bind fun _ => writeCommon_keepsCanonical x _
  cases x with
  | enc => exact dictSeed_keepsCanonical.bind fun _ => hwrite
  | dec => exact tableSeed_keepsCanonical.bind fun _ => hwrite

theorem applyPolicy_keepsCanonical (x : Engine) : KeepsCanonical (applyPolicy x) :=
  (runEval_keepsCanonical x).bind fun _ => .ite (resetDict_keepsCanonical x) (.go _)

/-! ### The Encoder's operations -/

theorem putBits_keepsCanonical (v n : Nat) : KeepsCanonical (putBits v n) := fun s h =>
  Run.ensures_of_go (fun _ t ht => by obtain ⟨o, -, -, -, -, rfl⟩ := putBits_eq_go ht; exact h) fun _ => putBits_ne_ended

theorem readAllBytes_keepsCanonical : KeepsCanonical readAllBytes := fun _ h => h

theorem encStart_keepsCanonical (m : BitVec 2) : KeepsCanonical (encStart m) := by
  intro s h
  cases hm : modeOfNumber m.toNat with
  | none =>
    rw [encStart_illegal hm]
    exact Memory.wf_raise (s := s.keepOut) h _ _ _
  | some mode =>
    rw [encStart_legal hm]
    have started : ∀ r, (Encoder.started mode s.byteSource).regs = some r → r.dict.wf = true := by
      rintro r ⟨⟩; exact Store.wf_seed
    exact Memory.wf_iff.2 ⟨started, (Memory.wf_iff.1 h).2⟩

theorem longestPrefix_keepsCanonical (rest : Bytes) : KeepsCanonical (longestPrefix rest) :=
  .readEnc fun r _ => by
    cases r.dict.longestMatch rest with
    | none => exact .fault _
    | some b => exact .go _

theorem encLookup_keepsCanonical : KeepsCanonical encLookup :=
  .readEnc fun _ _ => (longestPrefix_keepsCanonical _).bind fun _ => (holdSeq_keepsCanonical _).bind fun _ => .go _

theorem encEmit_keepsCanonical (q : Bytes) (c : Nat) : KeepsCanonical (encEmit q c) :=
  .readEnc fun _ _ => (putBits_keepsCanonical _ _).bind fun _ => accountBits_keepsCanonical .enc _ _

theorem dictInsert_keepsCanonical (key : Bytes) (code : Nat) : KeepsCanonical (dictInsert key code) :=
  fun _ h => Run.ensures_of_go (fun _ _ => Memory.wf_dictInsert h) (dictInsert_ne_ended key code _)

theorem encInsert_keepsCanonical (q : Bytes) : KeepsCanonical (encInsert q) :=
  .readEnc fun _ _ => .ite ((dictInsert_keepsCanonical _ _).bind fun _ => writeCommon_keepsCanonical .enc _) (.go _)

theorem encAdvance_keepsCanonical (q : Bytes) : KeepsCanonical (encAdvance q) := .readEnc fun _ hr => .setEnc _ hr

theorem encStepBody_keepsCanonical : KeepsCanonical encStepBody :=
  encLookup_keepsCanonical.bind fun _ => (encEmit_keepsCanonical _ _).bind fun _ =>
    (applyPolicy_keepsCanonical .enc).bind fun _ => (encInsert_keepsCanonical _).bind fun _ =>
      (growIfReached_keepsCanonical .enc).bind fun _ => encAdvance_keepsCanonical _

theorem encFinishBody_keepsCanonical : KeepsCanonical encFinishBody :=
  .readEnc fun _ _ => (putBits_keepsCanonical _ _).bind fun _ => (closeSink_keepsCanonical .enc).bind fun _ =>
    .update () fun _ h => h

theorem encCommand_keepsCanonical (m : BitVec 2) : OutcomeKeepsCanonical (encCommand m) := by
  intro s t h ht
  unfold encCommand at ht
  split at ht
  · cases ht; exact h
  · exact (encStart_keepsCanonical m).outcome s t h ht

/-! ### The Decoder's operations -/

theorem tableRead_keepsCanonical (i : Nat) : KeepsCanonical (tableRead i) :=
  .ite (.fault _) (.readDec fun r _ => by
    cases r.table.read i with
    | none => exact .fault _
    | some q => exact .go _)

theorem tableWrite_keepsCanonical (i : Nat) (q : Bytes) : KeepsCanonical (tableWrite i q) :=
  fun _ h => Run.ensures_of_go (fun _ _ => Memory.wf_tableWrite h) (tableWrite_ne_ended i q _)

theorem getBits_keepsCanonical (n : Nat) : KeepsCanonical (getBits n) :=
  .ite (.readDec fun r hr => by
    cases peekBits r.src r.bitpos n with
    | none => exact .go _
    | some v => exact .setDec _ hr) (.fault _)

theorem writeBytes_keepsCanonical (q : Bytes) : KeepsCanonical (writeBytes q) := fun s h =>
  Run.ensures_of_go (fun _ t ht => by obtain ⟨o, -, -, rfl⟩ := writeBytes_eq_go ht; exact h) fun _ => writeBytes_ne_ended

theorem decStart_keepsCanonical (low : BitVec 2) (tag : Option Nat) : KeepsCanonical (decStart low tag) := by
  intro s h
  by_cases hlow : low = 0
  case neg =>
    rw [decStart, if_pos hlow]
    exact Memory.wf_raise (s := s.clearOut .dec) h _ _ _
  case pos =>
    subst hlow
    have hraise {code : FaultCode} {info : Option Nat} :
        Memory.wf (State.raise .dec code info { s.clearOut .dec with bitSource := [] }) = true :=
      Memory.wf_raise (s := { s.clearOut .dec with bitSource := [] }) h _ _ _
    cases tag with
    | none => exact hraise
    | some n =>
      cases hm : modeOfNumber n with
      | none => simp only [decStart, hm]; exact hraise
      | some mode =>
        rw [decStart_legal hm]
        have started : ∀ r, (Decoder.started mode s.bitSource).regs = some r → r.table.wf = true := by
          rintro r ⟨⟩; exact Store.wf_seed
        exact Memory.wf_iff.2 ⟨(Memory.wf_iff.1 h).1, started⟩

theorem decStartHeader_keepsCanonical (low : BitVec 2) : KeepsCanonical fun s => decStart low (headerTag s) s :=
  fun s h => decStart_keepsCanonical low (headerTag s) s h

theorem raisePremature_keepsCanonical {α : Type} : KeepsCanonical (raisePremature : State → Run α) :=
  .readDec fun _ _ => .raiseFault .dec _ _

theorem decFinishBody_keepsCanonical : KeepsCanonical decFinishBody :=
  (closeSink_keepsCanonical .dec).bind fun _ => .update () fun _ h => h

theorem readUnit_keepsCanonical : KeepsCanonical readUnit :=
  .readDec fun _ hr => (getBits_keepsCanonical _).bind fun v => by
    cases v with
    | none => exact .go _
    | some c => exact .setDec _ hr

theorem presentUnit_keepsCanonical (w c : Nat) : KeepsCanonical (presentUnit w c) :=
  .readDec fun _ hr => .ite (.setDec _ hr) (.fault _)

theorem presentClass_keepsCanonical (k : UnitClass) (c : Nat) : KeepsCanonical (presentClass k c) :=
  .readDec fun _ hr => .ite (.setDec _ hr) (.fault _)

theorem decOutput_keepsCanonical : KeepsCanonical decOutput :=
  .readDec fun r _ s h => by
    split
    · rename_i q w _ _
      exact ((writeBytes_keepsCanonical q).bind fun _ => accountBits_keepsCanonical .dec _ w) s h
    · trivial

theorem decResolve_keepsCanonical (cw : Nat) : KeepsCanonical (decResolve cw) := by
  have hold (q : Bytes) : KeepsCanonical fun s => (holdSeq q s).bind fun _ s => .go q s :=
    (holdSeq_keepsCanonical q).bind fun _ => .go _
  refine .readDec fun r _ => .ite (.raiseFault .dec _ _) (.ite ?_ ((tableRead_keepsCanonical cw).bind hold))
  cases r.val.bind fun q => appendFirst q q with
  | none => exact .fault _
  | some q => exact hold q

theorem decInsert_keepsCanonical (q : Bytes) : KeepsCanonical (decInsert q) := by
  refine .readDec fun r _ => .ite ?_ (.go _)
  cases r.val.bind fun p => appendFirst p q with
  | none => exact .fault _
  | some e => exact (tableWrite_keepsCanonical _ e).bind fun _ => writeCommon_keepsCanonical .dec _

theorem decAdvance_keepsCanonical (q : Bytes) : KeepsCanonical (decAdvance q) := .readDec fun _ hr => .setDec _ hr

section
variable {rd : State → Run (Option Nat)} (hrd : KeepsCanonical rd)
include hrd

theorem decFirstBody_keepsCanonical : KeepsCanonical (decFirstBody rd) := by
  refine hrd.bind fun v => ?_
  cases v with
  | none => exact raisePremature_keepsCanonical
  | some cw =>
    exact .ite decFinishBody_keepsCanonical (.ite (.raiseFault .dec _ _)
      ((tableRead_keepsCanonical cw).bind fun q => (holdSeq_keepsCanonical q).bind fun _ => .readDec fun r hr s h =>
        Memory.wf_setDec (s := s) (r := { r with val := some q }) h hr))

theorem decRead_keepsCanonical : KeepsCanonical (decRead rd) := by
  refine hrd.bind fun v => ?_
  cases v with
  | none => exact raisePremature_keepsCanonical
  | some cw => exact .ite (decFinishBody_keepsCanonical.bind fun _ _ h => h) (.go _)

theorem decStepBody_keepsCanonical : KeepsCanonical (decStepBody rd) :=
  decOutput_keepsCanonical.bind fun _ => (applyPolicy_keepsCanonical .dec).bind fun _ =>
    (decRead_keepsCanonical hrd).bind fun _ => (decResolve_keepsCanonical _).bind fun _ =>
      (decInsert_keepsCanonical _).bind fun _ => (growIfReached_keepsCanonical .dec).bind fun _ =>
        decAdvance_keepsCanonical _

theorem decUnit_keepsCanonical : KeepsCanonical (decUnit rd) := by
  intro s h
  unfold decUnit
  cases s.dec.phase with
  | first => exact decFirstBody_keepsCanonical hrd s h
  | loop => exact decStepBody_keepsCanonical hrd s h
  | idle | done | fault => trivial

end

theorem decCommand_keepsCanonical (low : BitVec 2) : OutcomeKeepsCanonical (decCommand low) := by
  intro s t h ht
  unfold decCommand at ht
  split at ht
  · cases ht; exact h
  · exact (decStartHeader_keepsCanonical low).outcome s t h ht

theorem startOnTag_keepsCanonical (t : Nat) : OutcomeKeepsCanonical (startOnTag t) :=
  (decStart_keepsCanonical 0 (some t)).whenEnabled.outcome

theorem runCodeword_keepsCanonical (w c : Nat) : OutcomeKeepsCanonical (runCodeword w c) :=
  (decUnit_keepsCanonical (presentUnit_keepsCanonical w c)).outcome

theorem runClass_keepsCanonical (k : UnitClass) (c : Nat) : OutcomeKeepsCanonical (runClass k c) :=
  (decUnit_keepsCanonical (presentClass_keepsCanonical k c)).outcome

/-! ### Every instruction -/

theorem exec_keepsCanonical (i : Instr) : OutcomeKeepsCanonical (exec i) := by
  cases i with
  | compressN | compressR | compressM | illegalCmd000 => exact encCommand_keepsCanonical _
  | expand | illegalCmd101 | illegalCmd110 | illegalCmd111 => exact decCommand_keepsCanonical _
  | tagNone | tagFullReset | tagRatioMonitored | tagIllegal => exact startOnTag_keepsCanonical _
  | litW9 | eofW9 | dynW9 | litW10 | eofW10 | dynW10 | litW11 | eofW11 | dynW11 | litW12 | eofW12 | dynW12
  | litW13 | eofW13 | dynW13 | litW14 | eofW14 | dynW14 | litW15 | eofW15 | dynW15 | litW16 | eofW16 | dynW16 =>
    exact runCodeword_keepsCanonical _ _
  | dynRef | dynKwkwk | dynInvalid => exact runClass_keepsCanonical _ _
  | encStart m => exact (encStart_keepsCanonical m).whenEnabled.outcome
  | encStep =>
    exact (KeepsCanonical.readEnc fun _ _ => encStepBody_keepsCanonical.whenEnabled).whenEnabled.outcome
  | encLookup => exact encLookup_keepsCanonical.whenEnabled.outcomeRet _
  | encEmit q c => exact ((encEmit_keepsCanonical q c).givenSeq q).whenEnabled.outcome
  | encPolicy => exact (applyPolicy_keepsCanonical .enc).whenEnabled.outcome
  | encInsert q => exact ((encInsert_keepsCanonical q).givenSeq q).whenEnabled.outcome
  | encGrow => exact (growIfReached_keepsCanonical .enc).whenEnabled.outcome
  | encAdvance q => exact ((encAdvance_keepsCanonical q).givenSeq q).whenEnabled.outcome
  | encFinish =>
    exact (KeepsCanonical.readEnc fun _ _ => encFinishBody_keepsCanonical.whenEnabled).whenEnabled.outcome
  | decStart low => exact (decStartHeader_keepsCanonical low).whenEnabled.outcome
  | decFirst => exact (decFirstBody_keepsCanonical readUnit_keepsCanonical).whenEnabled.outcome
  | decStep => exact (decStepBody_keepsCanonical readUnit_keepsCanonical).whenEnabled.outcome
  | decOutput => exact decOutput_keepsCanonical.whenEnabled.outcome
  | decPolicy => exact (applyPolicy_keepsCanonical .dec).whenEnabled.outcome
  | decRead => exact (decRead_keepsCanonical readUnit_keepsCanonical).whenEnabled.outcomeRet _
  | decResolve cw => exact (decResolve_keepsCanonical cw).whenEnabled.outcomeRet _
  | decInsert q => exact ((decInsert_keepsCanonical q).givenSeq q).whenEnabled.outcome
  | decGrow => exact (growIfReached_keepsCanonical .dec).whenEnabled.outcome
  | decAdvance q => exact ((decAdvance_keepsCanonical q).givenSeq q).whenEnabled.outcome
  | decFinish => exact decFinishBody_keepsCanonical.whenEnabled.outcome
  | wcInit x =>
    exact ((readCommon_keepsCanonical x).bind fun _ => writeCommon_keepsCanonical x _).whenEnabled.outcome
  | wcReached x => exact ((readCommon_keepsCanonical x).bind fun _ => .go _).whenEnabled.outcomeRet _
  | wcGrow x =>
    exact ((readCommon_keepsCanonical x).bind fun _ =>
      .ite (writeCommon_keepsCanonical x _) (.fault _)).whenEnabled.outcome
  | rpSaturated x => exact ((readCommon_keepsCanonical x).bind fun _ => .go _).whenEnabled.outcomeRet _
  | rpAccount x ubits cbits => exact (accountBits_keepsCanonical x ubits cbits).whenEnabled.outcome
  | rpEval x => exact (runEval_keepsCanonical x).whenEnabled.outcomeRet _
  | rpEvalNone x | rpEvalFullReset x | rpEvalRatioBaseline x | rpEvalRatioCompare x =>
    exact (runVariant_keepsCanonical x _ _).outcomeRet _
  | dictReset x => exact (resetDict_keepsCanonical x).whenEnabled.outcome
  | putBits v n => exact (putBits_keepsCanonical v n).outcome
  | getBits n => exact (getBits_keepsCanonical n).outcomeRet _
  | close x => exact (closeSink_keepsCanonical x).outcome
  | writeBytes q => exact (writeBytes_keepsCanonical q).outcome
  | readAllBytes => exact readAllBytes_keepsCanonical.outcomeRet _
  | longestPrefix rest => exact (longestPrefix_keepsCanonical rest).whenEnabled.outcomeRet _
  | dictInsert key code => exact (dictInsert_keepsCanonical key code).whenEnabled.outcome
  | dictSeed => exact dictSeed_keepsCanonical.whenEnabled.outcome
  | tableRead n => exact (tableRead_keepsCanonical n).whenEnabled.outcomeRet _
  | tableWrite n q => exact (tableWrite_keepsCanonical n q).whenEnabled.outcome
  | tableSeed => exact tableSeed_keepsCanonical.whenEnabled.outcome

/-- Settles O5, by the rule of each operation: what is written to a store is the seed or one entry of a canonical store. -/
theorem instructionsKeepStoresCanonical : Obligations.InstructionsKeepStoresCanonical := exec_keepsCanonical

end Sys2Proof.Machine

/-! ## Proofs: the bit order on both sides (GetBitsReadsWhatPutBitsPut) -/

namespace Sys2Proof

/-- The bits of a number, the last of them apart. -/
theorem natBits_succ_last (n v : Nat) : natBits (n + 1) v = natBits n (v / 2) ++ [v.testBit 0] := by
  induction n with
  | zero => rfl
  | succ n ih =>
    calc natBits (n + 2) v = v.testBit (n + 1) :: natBits (n + 1) v := rfl
      _ = (v / 2).testBit n :: (natBits n (v / 2) ++ [v.testBit 0]) := by rw [ih, Nat.testBit_succ]
      _ = natBits (n + 1) (v / 2) ++ [v.testBit 0] := rfl

theorem bitsToNat_concat (bs : Bits) (b : Bool) : bitsToNat (bs ++ [b]) = 2 * bitsToNat bs + b.toNat := by
  simp [bitsToNat]

/-- A bit sequence is read back from its number (rules R72, R73). -/
theorem natBits_bitsToNat (bs : Bits) : natBits bs.length (bitsToNat bs) = bs := by
  induction bs using List.reverseRecOn with
  | nil => rfl
  | append_singleton bs b ih =>
    have hhigh : (2 * bitsToNat bs + b.toNat) / 2 = bitsToNat bs := by have := Bool.toNat_le b; omega
    have hlow : (2 * bitsToNat bs + b.toNat).testBit 0 = b := by cases b <;> simp
    rw [List.length_append, List.length_singleton, bitsToNat_concat, natBits_succ_last, hhigh, hlow, ih]

/-- The first eight bits make the first byte (rule R72). -/
theorem packBytes_append {c : Bits} (h : c.length = 8) (rest : Bits) :
    packBytes (c ++ rest) = BitVec.ofNat 8 (bitsToNat c) :: packBytes rest :=
  match c, h with
  | [_, _, _, _, _, _, _, _], _ => rfl

theorem byteBits_ofNat_bitsToNat {c : Bits} (h : c.length = 8) : byteBits (BitVec.ofNat 8 (bitsToNat c)) = c := by
  have hlt : bitsToNat c < 2 ^ 8 := h ▸ bitsToNat_lt c
  calc byteBits (BitVec.ofNat 8 (bitsToNat c)) = natBits 8 (bitsToNat c) := by
        rw [byteBits, BitVec.toNat_ofNat, Nat.mod_eq_of_lt hlt]
    _ = c := h ▸ natBits_bitsToNat c

/-- Cutting whole bytes out of a bit sequence and streaming them gives the bits back (rules R72, R75). -/
theorem streamBits_packBytes {bs : Bits} (h : 8 ∣ bs.length) : streamBits (packBytes bs) = bs := by
  obtain ⟨k, hk⟩ := h
  induction k generalizing bs with
  | zero => rw [List.length_eq_zero_iff.1 hk]; rfl
  | succ k ih =>
    have hhead : (bs.take 8).length = 8 := by rw [List.length_take]; omega
    have htail : streamBits (packBytes (bs.drop 8)) = bs.drop 8 := ih (by rw [List.length_drop]; omega)
    calc streamBits (packBytes bs) = streamBits (packBytes (bs.take 8 ++ bs.drop 8)) := by rw [List.take_append_drop]
      _ = byteBits (BitVec.ofNat 8 (bitsToNat (bs.take 8))) ++ streamBits (packBytes (bs.drop 8)) := by
        rw [packBytes_append hhead]; rfl
      _ = bs.take 8 ++ bs.drop 8 := by rw [byteBits_ofNat_bitsToNat hhead, htail]
      _ = bs := List.take_append_drop 8 bs

/-- Settles O18: the packed bytes stream the bits that were put, and the `n` bits at the offset are those of the value. -/
theorem getBitsReadsWhatPutBitsPut : Obligations.GetBitsReadsWhatPutBitsPut := by
  intro before after v n hv hdvd
  have hstream := streamBits_packBytes hdvd
  have hfits : before.length + n ≤ (streamBits (packBytes (before ++ natBits n v ++ after))).length := by
    rw [hstream]; simp
  rw [Machine.peekBits_of_fits hfits, hstream, List.append_assoc, List.drop_left, List.take_left' (natBits_length n v),
    bitsToNat_natBits, Nat.mod_eq_of_lt hv]

end Sys2Proof

/-! ## Proofs: the stream primitives and Close (StreamPrimitives, CloseEndsTheStream) -/

namespace Sys2Proof

theorem eq_false_of_mem_padBits {n : Nat} {b : Bool} (h : b ∈ padBits n) : b = false := List.eq_of_mem_replicate h

theorem padBits_length_lt (n : Nat) : (padBits n).length < 8 := by
  simp only [padBits, List.length_replicate]; omega

end Sys2Proof

namespace Sys2Proof.Machine

theorem putBits_closed {s : State} {o : BitSink} {v n : Nat} (ho : s.enc.out = some o) (hc : o.closed = true)
    (hn : 1 ≤ n ∧ n ≤ 16) (hv : v < 2 ^ n) : putBits v n s = .fault .sinkClosed := by
  simp [putBits, putBitsOk, hn, hv, ho, hc]

theorem writeBytes_closed {s : State} {o : ByteSink} (q : Bytes) (ho : s.dec.out = some o) (hc : o.closed = true) :
    writeBytes q s = .fault .sinkClosed := by
  simp [writeBytes, ho, hc]

theorem closeSink_enc {s : State} {o : BitSink} (ho : s.enc.out = some o) :
    closeSink .enc s = .go () { s with enc := { s.enc with out := some o.close } } := by
  simp [closeSink, ho]

theorem closeSink_dec {s : State} {o : ByteSink} (ho : s.dec.out = some o) :
    closeSink .dec s = .go () { s with dec := { s.dec with out := some { o with closed := true } } } := by
  simp [closeSink, ho]

/-- Settles O56, each primitive by its rule on an open sink or on the Decoder's registers. -/
theorem streamPrimitives : Obligations.StreamPrimitives := by
  refine ⟨?putBits, ?getBits, ?writeBytes, fun _ => rfl⟩
  case putBits =>
    intro s o v n ho hopen h1 h16 hv
    simp only [exec, execPutBits, putBits_open ho hopen ⟨h1, h16⟩ hv, Run.outcome_go]
  case getBits =>
    intro s r n hr h1 h16
    have hget := getBits_regs hr ⟨h1, h16⟩
    constructor
    · intro v hpeek
      simp only [exec, execGetBits, hget, hpeek, Run.outcomeRet_go]
    · intro hpeek
      simp only [exec, execGetBits, hget, hpeek, Run.outcomeRet_go]
  case writeBytes =>
    intro s o q ho hopen
    simp only [exec, execWriteBytes, writeBytes_open q ho hopen, Run.outcome_go]

/-- Settles O57, each sink by what Close makes of it and what a write does to a closed one. -/
theorem closeEndsTheStream : Obligations.CloseEndsTheStream := by
  refine ⟨?closeEnc, ?closeDec, ?putBits, ?writeBytes⟩
  case closeEnc =>
    intro s o ho
    refine ⟨padBits o.bits.length, fun _ => eq_false_of_mem_padBits, padBits_length_lt _, ?_, ?_⟩
    · rw [List.length_append]; exact dvd_length_padBits _
    · simp only [exec, execClose, closeSink_enc ho, Run.outcome_go, BitSink.close]
  case closeDec =>
    intro s o ho
    simp only [exec, execClose, closeSink_dec ho, Run.outcome_go]
  case putBits =>
    intro s o v n ho hclosed h1 h16 hv
    simp only [exec, execPutBits, putBits_closed ho hclosed ⟨h1, h16⟩ hv, Run.outcome_fault]
  case writeBytes =>
    intro s o q ho hclosed
    simp only [exec, execWriteBytes, writeBytes_closed q ho hclosed, Run.outcome_fault]

end Sys2Proof.Machine

/-! ## Proofs: the store primitives and the lookup (StorePrimitives, LookupFindsTheLongestKey) -/

namespace Sys2Proof.Machine

/-- DictInsert within its contract (rule R63). -/
theorem dictInsert_new {s : State} {r : EncRegs} {key : Bytes} {code : Nat} (hr : s.enc.regs = some r)
    (hkey : key ≠ []) (hcode : code < 65536) (hcodeOf : r.dict.codeOf key = none) (hread : r.dict.read code = none)
    (hfits : seqFits s.params.seqMax key = true) :
    dictInsert key code s = .go () (s.setEnc { r with dict := r.dict.write code key }) := by
  simp [dictInsert, readEnc_some hr, hkey, Config.ceiling, Nat.not_le.2 hcode, hcodeOf, hread, holdSeq_fits hfits]

theorem dictSeed_regs {s : State} {r : EncRegs} (hr : s.enc.regs = some r) :
    dictSeed s = .go () (s.setEnc { r with dict := Store.seed }) := by
  simp only [dictSeed, readEnc_some hr, Run.bind_go]

/-- TableWrite within its contract (rule R66). -/
theorem tableWrite_fits {s : State} {r : DecRegs} {i : Nat} {q : Bytes} (hr : s.dec.regs = some r) (hi : i < 65536)
    (hq : q ≠ []) (hfits : seqFits s.params.seqMax q = true) :
    tableWrite i q s = .go () (s.setDec { r with table := r.table.write i q }) := by
  simp [tableWrite, Config.ceiling, Nat.not_le.2 hi, hq, readDec_some hr, holdSeq_fits hfits]

theorem tableSeed_regs {s : State} {r : DecRegs} (hr : s.dec.regs = some r) :
    tableSeed s = .go () (s.setDec { r with table := Store.seed, common := { r.common with count := 257 } }) := by
  simp only [tableSeed, readDec_some hr, Run.bind_go, Config.firstDyn]

theorem longestPrefix_of_match {s : State} {r : EncRegs} {rest : Bytes} {b : Bytes × Nat} (hr : s.enc.regs = some r)
    (hb : r.dict.longestMatch rest = some b) : longestPrefix rest s = .go b s := by
  simp only [longestPrefix, readEnc_some hr, Run.bind_go, hb]

/-- Settles O58: an insert and a write are one `Store.write`, read back by its laws; the seeds replace the whole store. -/
theorem storePrimitives : Obligations.StorePrimitives := by
  constructor
  · intro s r hp hr hunbounded
    have hrun := running_enc_iff.2 hp
    have hfits (q : Bytes) : seqFits s.params.seqMax q = true := hunbounded.2 ▸ seqFits_none q
    constructor
    · intro key code hkey hcode hcodeOf hread
      refine ⟨r.dict.write code key, ?_, Store.read_write_same _ _ _, fun j hj => Store.read_write_other hj _ _⟩
      simp only [exec, execDictInsert, hrun, whenEnabled_true, dictInsert_new hr hkey hcode hcodeOf hread (hfits key),
        Run.outcome_go]
    · simp only [exec, execDictSeed, hrun, whenEnabled_true, dictSeed_regs hr, Run.outcome_go]
  · intro s r hrun hr hunbounded
    have hfits (q : Bytes) : seqFits s.params.seqMax q = true := hunbounded.2 ▸ seqFits_none q
    refine ⟨?write, ?read, ?seed⟩
    case write =>
      intro i q hi hq
      refine ⟨r.table.write i q, ?_, Store.read_write_same _ _ _, fun j hj => Store.read_write_other hj _ _⟩
      simp only [exec, execTableWrite, hrun, whenEnabled_true, tableWrite_fits hr hi hq (hfits q), Run.outcome_go]
    case read =>
      intro i q hi hread
      simp only [exec, execTableRead, hrun, whenEnabled_true, tableRead_of_read hr hi hread, Run.outcomeRet_go]
    case seed => simp only [exec, execTableSeed, hrun, whenEnabled_true, tableSeed_regs hr, Run.outcome_go]

/-- Settles O46: the longest match is a listed key that starts the sequence, and no listed key that starts it is longer. -/
theorem lookupFindsTheLongestKey : Obligations.LookupFindsTheLongestKey := by
  intro s r rest key d hp hr hwf hkey hne hprefix
  have hrun := running_enc_iff.2 hp
  obtain ⟨q, c, hmatch, -⟩ := Store.longestMatch_max (Store.mem_of_read hkey) hne hprefix
  obtain ⟨hmem, hq, hqprefix⟩ := Store.longestMatch_sound hmatch
  refine ⟨q, c, Store.read_of_mem hwf hmem, hq, hqprefix, ?longest, ?longestPrefix, ?encLookup⟩
  case longest =>
    intro d' k hk hkprefix
    by_cases hk0 : k = []
    · subst hk0; exact Nat.zero_le _
    · obtain ⟨q', c', hmatch', hle⟩ := Store.longestMatch_max (Store.mem_of_read hk) hk0 hkprefix
      cases hmatch.symm.trans hmatch'
      exact hle
  case longestPrefix =>
    simp only [exec, execLongestPrefix, hrun, whenEnabled_true, longestPrefix_of_match hr hmatch, Run.outcomeRet_go]
  case encLookup =>
    rintro rfl hfits
    have hlookup : encLookup s = .go (q, c) s := encLookup_eq_go.2 ⟨rfl, hfits, r, hr, hmatch⟩
    simp only [exec, execEncLookup, hrun, whenEnabled_true, hlookup, Run.outcomeRet_go]

end Sys2Proof.Machine

/-! ## Proofs: the decoder and the encoder are inverse (DecodeOfEncodeIsIdentity, EncodeOfDecodeIsIdentity,
UnitsOfTheSpecDecode)

A unit is its kind and its value. `unitInstr` is what the decoder makes of a value and `Instr.IsUnit` what the encoder makes
of an instruction; they are the same relation, and both statements follow once bits and values are exchanged. -/

namespace Sys2Proof

/-- The instruction of a unit of value `v`, `none` where no codeword has the width. -/
def unitInstr (f : Frame) (v : Nat) : Option Instr :=
  match f with
  | .command => some (decodeCommand (BitVec.ofNat 3 v))
  | .header => some (decodeTag (BitVec.ofNat 9 v))
  | .codeword w => decodeCodeword w v

/-- The decoder takes as many bits as the kind of unit has, and reads their value (rules R73, R95). -/
theorem decode_eq_ok {f : Frame} {bs rest : Bits} {i : Instr} :
    decode f bs = .ok (i, rest) ↔ frameWidth f ≤ bs.length ∧
      unitInstr f (bitsToNat (bs.take (frameWidth f))) = some i ∧ rest = bs.drop (frameWidth f) := by
  by_cases hlen : bs.length < frameWidth f
  · simp [decode, hlen, Nat.not_le.2 hlen]
  · have hle := not_lt.1 hlen
    cases f with
    | command | header => simp [decode, hlen, hle, unitInstr, eq_comm]
    | codeword w =>
      simp only [decode, hlen, if_false, hle, true_and, unitInstr]
      cases decodeCodeword w (bitsToNat (bs.take (frameWidth (.codeword w)))) <;> simp [eq_comm]

/-- The well-formed instruction `i` is encoded as the unit of kind `f` and value `v`. -/
def Instr.IsUnit (i : Instr) (f : Frame) (v : Nat) : Prop := i.wellFormed = true ∧ encode i = unitBits f v

/-! ### Command words and mode tags -/

theorem isUnit_decodeCommand (cmd : BitVec 3) : (decodeCommand cmd).IsUnit .command cmd.toNat := by
  have hlt : cmd.toNat < 8 := cmd.isLt
  unfold decodeCommand
  split
  case h_8 =>
    have h7 : cmd.toNat = 7 := by simp only [imp_false] at *; omega
    rw [h7]; exact ⟨rfl, rfl⟩
  all_goals rename_i h; rw [h]; exact ⟨rfl, rfl⟩

theorem isUnit_decodeTag (t : BitVec 9) : (decodeTag t).IsUnit .header t.toNat := by
  unfold decodeTag
  split
  case h_4 =>
    have hillegal : t.toNat = 0 ∨ 3 < t.toNat := by simp only [imp_false] at *; omega
    exact ⟨by simpa [Instr.wellFormed, tagIsIllegal] using hillegal, rfl⟩
  all_goals rename_i h; rw [h]; exact ⟨rfl, rfl⟩

/-- An illegal tag is none of the three legal ones (rule R101). -/
theorem decodeTag_of_illegal {t : BitVec 9} (h : tagIsIllegal t = true) : decodeTag t = .tagIllegal t := by
  have hillegal : t.toNat = 0 ∨ 3 < t.toNat := by simpa [tagIsIllegal] using h
  unfold decodeTag
  split
  case h_4 => rfl
  all_goals omega

/-! ### Codewords -/

/-- The three rows of one width, in the order of rule R96. -/
def codewordRow {w : Nat} (lit : Byte → Instr) (eof : Instr) (dyn : BitVec w → Instr) (v : Nat) : Instr :=
  if v < 256 then lit (BitVec.ofNat 8 v) else if v = 256 then eof else dyn (BitVec.ofNat w v)

section
variable {w : Nat} (lit : Byte → Instr) (eof : Instr) (dyn : BitVec w → Instr)

theorem codewordRow_lit (b : Byte) : codewordRow lit eof dyn b.toNat = lit b := by
  simp [codewordRow, b.isLt]

theorem codewordRow_dyn {c : BitVec w} (h : isDyn c.toNat = true) : codewordRow lit eof dyn c.toNat = dyn c := by
  have hc : 257 ≤ c.toNat := of_decide_eq_true h
  rw [codewordRow, if_neg (by omega), if_neg (by omega), BitVec.ofNat_toNat, BitVec.setWidth_eq]

variable {lit eof dyn}

/-- Where each row of a width is the unit of its codeword, so is the row that the decoder picks. -/
theorem isUnit_codewordRow (hlit : ∀ b, (lit b).IsUnit (.codeword w) b.toNat) (heof : eof.IsUnit (.codeword w) 256)
    (hwf : ∀ c, (dyn c).wellFormed = isDyn c.toNat) (hdyn : ∀ c, encode (dyn c) = unitBits (.codeword w) c.toNat)
    {v : Nat} (hv : v < 2 ^ w) :
    (codewordRow lit eof dyn v).IsUnit (.codeword w) v := by
  unfold codewordRow
  split
  case isTrue hl =>
    have := hlit (BitVec.ofNat 8 v)
    rwa [BitVec.toNat_ofNat, Nat.mod_eq_of_lt hl] at this
  case isFalse hl =>
    split
    case isTrue he => exact he ▸ heof
    case isFalse he =>
      have hval : (BitVec.ofNat w v).toNat = v := by rw [BitVec.toNat_ofNat, Nat.mod_eq_of_lt hv]
      exact ⟨by rw [hwf, hval]; exact decide_eq_true (show 257 ≤ v by omega), by rw [hdyn, hval]⟩

end

theorem isUnit_of_decodeCodeword {w v : Nat} {i : Instr} (h : decodeCodeword w v = some i) (hv : v < 2 ^ w) :
    i.IsUnit (.codeword w) v := by
  unfold decodeCodeword at h
  split at h <;> cases h <;>
    exact isUnit_codewordRow (fun _ => ⟨rfl, rfl⟩) ⟨rfl, rfl⟩ (fun _ => rfl) (fun _ => rfl) hv

/-! ### Both directions -/

/-- What the decoder makes of a value is well formed and encoded as this value: no reserved value falls through to a
neighbour (rules R96, R101, R105). -/
theorem isUnit_of_unitInstr {f : Frame} {v : Nat} {i : Instr} (h : unitInstr f v = some i) (hv : v < 2 ^ frameWidth f) :
    i.IsUnit f v := by
  cases f with
  | command =>
    cases h
    have := isUnit_decodeCommand (BitVec.ofNat 3 v)
    rwa [BitVec.toNat_ofNat, Nat.mod_eq_of_lt (show v < 2 ^ 3 from hv)] at this
  | header =>
    cases h
    have := isUnit_decodeTag (BitVec.ofNat 9 v)
    rwa [BitVec.toNat_ofNat, Nat.mod_eq_of_lt (show v < 2 ^ 9 from hv)] at this
  | codeword w => exact isUnit_of_decodeCodeword h hv

/-- The encoding of a well-formed instruction is the bits of a value that the decoder takes for it. -/
theorem exists_unitInstr_of_encode {i : Instr} {f : Frame} {bits : Bits} (hwf : i.wellFormed = true)
    (h : encode i = some (f, bits)) :
    ∃ v, v < 2 ^ frameWidth f ∧ bits = natBits (frameWidth f) v ∧ unitInstr f v = some i := by
  have byteFits {w : Nat} (hw : 8 ≤ w) (b : Byte) : b.toNat < 2 ^ w :=
    b.isLt.trans_le (Nat.pow_le_pow_right (by decide) hw)
  cases i with
  | illegalCmd000 | compressN | compressR | compressM | expand | illegalCmd101 | illegalCmd110 | illegalCmd111
  | tagNone | tagFullReset | tagRatioMonitored =>
    cases h; exact ⟨_, by decide, rfl, rfl⟩
  | tagIllegal t =>
    cases h
    refine ⟨t.toNat, t.isLt, rfl, congrArg some ?_⟩
    rw [BitVec.ofNat_toNat, BitVec.setWidth_eq]
    exact decodeTag_of_illegal hwf
  | litW9 b | litW10 b | litW11 b | litW12 b | litW13 b | litW14 b | litW15 b | litW16 b =>
    cases h; exact ⟨b.toNat, byteFits (by decide) b, rfl, congrArg some (codewordRow_lit _ _ _ b)⟩
  | eofW9 | eofW10 | eofW11 | eofW12 | eofW13 | eofW14 | eofW15 | eofW16 =>
    cases h; exact ⟨256, by decide, rfl, rfl⟩
  | dynW9 c | dynW10 c | dynW11 c | dynW12 c | dynW13 c | dynW14 c | dynW15 c | dynW16 c =>
    cases h; exact ⟨c.toNat, c.isLt, rfl, congrArg some (codewordRow_dyn _ _ _ hwf)⟩
  | _ => cases h

/-- Settles O15: the encoding is the bits of a value, and the decoder takes this value for the instruction. -/
theorem decodeOfEncodeIsIdentity : Obligations.DecodeOfEncodeIsIdentity := by
  intro i f bits rest hwf h
  obtain ⟨v, hv, rfl, hunit⟩ := exists_unitInstr_of_encode hwf h
  have hlen := natBits_length (frameWidth f) v
  rw [decode_eq_ok, List.take_left' hlen, List.drop_left' hlen, bitsToNat_natBits, Nat.mod_eq_of_lt hv]
  exact ⟨by simp, hunit, rfl⟩

/-- Settles O16: the bits taken are those of their value, and the instruction of this value is encoded as it. -/
theorem encodeOfDecodeIsIdentity : Obligations.EncodeOfDecodeIsIdentity := by
  intro f bs rest i h
  obtain ⟨hle, hunit, hrest⟩ := decode_eq_ok.1 h
  have hlen : (bs.take (frameWidth f)).length = frameWidth f := List.length_take_of_le hle
  have hlt := bitsToNat_lt (bs.take (frameWidth f))
  have hbits := natBits_bitsToNat (bs.take (frameWidth f))
  rw [hlen] at hlt hbits
  obtain ⟨hwf, hencode⟩ := isUnit_of_unitInstr hunit hlt
  exact ⟨hwf, by rw [hencode, unitBits, hbits], hrest⟩

/-- Settles O17: the decoder evaluates each of the six bit sequences to its instruction. -/
theorem unitsOfTheSpecDecode : Obligations.UnitsOfTheSpecDecode := ⟨rfl, rfl, rfl, rfl, rfl, rfl⟩

end Sys2Proof

/-! ## Proofs: a dynamic codeword in FIRST and in LOOP (FirstDynamicIsOutOfRange, LoopReferenceStep, LoopKwkwkStep,
LoopInvalidIsOutOfRange)

A codeword comes to the Decoder as the row of its width or as the row of its class. Both are reads that give the codeword
(`Presents`), so each statement is about what DEC.FIRST or DEC.STEP does with any such read. -/

namespace Sys2Proof.Machine

/-! ### How a codeword comes to the Decoder -/

/-- Wherever the Decoder is in phase `p`, at width `w` and count `n`, the read `rd` gives the codeword `c`. -/
def Presents (rd : State → Run (Option Nat)) (c : Nat) (p : DecPhase) (w n : Nat) : Prop :=
  ∀ (s : State) (r : DecRegs), s.dec.regs = some r → s.dec.phase = p → r.common.W = w → r.common.count = n →
    rd s = .go (some c) (s.setDec (r.taken w))

theorem presentUnit_presents (c : Nat) (p : DecPhase) (w n : Nat) : Presents (presentUnit w c) c p w n := by
  intro s r hr _ hw _
  subst hw
  exact presentUnit_regs c hr

/-- The row of the class that the codeword has (rule R97). -/
theorem presentClass_presents {c w n : Nat} {p : DecPhase} {k : UnitClass} (hc : c < 2 ^ w)
    (hk : unitClass (decide (p = .first)) n c = k) : Presents (presentClass k c) c p w n := by
  intro s r hr hp hw hn
  subst hp hw hn
  simp only [presentClass, readDec_some hr, Run.bind_go, hc, hk, and_self, if_true]
  rfl

/-- A row of class DYN at width `w` is the unit of its codeword at this width (rules R96, R99). -/
theorem exec_dynUnit {c : BitVec 16} {u : Nat × Instr} (h : u ∈ dynUnits c) (hc : c.toNat < 2 ^ u.1) (s : State) :
    exec u.2 s = runCodeword u.1 c.toNat s := by
  have hval {w : Nat} (hw : c.toNat < 2 ^ w) : (c.setWidth w).toNat = c.toNat := by
    rw [BitVec.toNat_setWidth, Nat.mod_eq_of_lt hw]
  simp only [dynUnits, List.mem_cons, List.not_mem_nil, or_false] at h
  rcases h with rfl | rfl | rfl | rfl | rfl | rfl | rfl | rfl
  on_goal 8 => rfl
  all_goals exact congrArg (runCodeword _ · s) (hval hc)

/-- What every read that gives the codeword leads to is what the row of its width and the row of its class do. -/
theorem exec_dyn_of_presents {s : State} {r : DecRegs} {c : BitVec 16} {k : UnitClass}
    {out : Host.Outcome State Fault Refusal} (hc : c.toNat < 2 ^ r.common.W)
    (hk : unitClass (decide (s.dec.phase = .first)) r.common.count c.toNat = k)
    (hout : ∀ rd, Presents rd c.toNat s.dec.phase r.common.W r.common.count → (decUnit rd s).outcome = out) :
    (∀ u ∈ dynUnits c, u.1 = r.common.W → exec u.2 s = out) ∧ runClass k c.toNat s = out := by
  refine ⟨fun u hu hw => ?_, hout _ (presentClass_presents hc hk)⟩
  rw [exec_dynUnit hu (hw ▸ hc), hw]
  exact hout _ (presentUnit_presents _ _ _ _)

/-! ### The classes of a codeword above 256 (rules R97, R102) -/

section
variable {n c : Nat} (hc : 257 ≤ c)
include hc

theorem unitClass_first_of_dyn : unitClass true n c = .invalid := by
  rw [unitClass, Config.eofCode, if_neg (by omega), if_neg (by omega), if_pos rfl]

theorem unitClass_loop_of_dyn :
    unitClass false n c = if c < n then .ref else if c = n then .kwkwk else .invalid := by
  rw [unitClass, Config.eofCode, if_neg (by omega), if_neg (by omega), if_neg Bool.false_ne_true]

end

/-! ### Which operation a unit of the stream runs -/

theorem decUnit_first {s : State} (hp : s.dec.phase = .first) (rd : State → Run (Option Nat)) :
    decUnit rd s = decFirstBody rd s := by
  simp only [decUnit, hp]

theorem decUnit_loop {s : State} (hp : s.dec.phase = .loop) (rd : State → Run (Option Nat)) :
    decUnit rd s = decStepBody rd s := by
  simp only [decUnit, hp]

/-! ### Phase FIRST -/

/-- At the first position a codeword above 256 raises CodewordOutOfRange (rules R102, R171). -/
theorem decFirstBody_dyn {rd : State → Run (Option Nat)} {s t : State} {c : Nat} (hrd : rd s = .go (some c) t)
    (hc : 257 ≤ c) : decFirstBody rd s = .ended (t.raise .dec .codewordOutOfRange (some c)) := by
  simp only [decFirstBody, hrd, Run.bind_go]
  rw [if_neg (show c ≠ Config.eofCode from Nat.ne_of_gt hc), if_pos (show Config.eofCode < c from hc), raiseFault]

/-- Settles O30: whichever row presents it, DEC.FIRST raises on the codeword, and what it took is discarded. -/
theorem firstDynamicIsOutOfRange : Obligations.FirstDynamicIsOutOfRange := by
  intro s r o c ⟨hp, hr, ho⟩ hc hlt t
  refine exec_dyn_of_presents hlt ?_ fun rd hrd => ?_
  · rw [hp]; exact unitClass_first_of_dyn hc
  · rw [decUnit_first hp, decFirstBody_dyn (hrd s r hr rfl rfl rfl) hc]; rfl

/-! ### The sub-steps of DEC.STEP before the codeword is resolved -/

/-- The state after DEC.OUTPUT, where the counters are unbounded (rule R173). -/
def State.written (s : State) (r : DecRegs) (o : ByteSink) (q : Bytes) : State :=
  { s with dec := { s.dec with
    out := some { o with bytes := o.bytes ++ q }, regs := some { r with common := r.common.accounted q r.common.W } } }

theorem decOutput_ready {s : State} {r : DecRegs} {o : ByteSink} {q : Bytes} (h : LoopReady s r o q) :
    decOutput s = .go () (s.written r o q) := by
  obtain ⟨-, hr, ho, hopen, hval, ⟨hcnt, -⟩, hacc⟩ := h
  simp only [decOutput, readDec_some hr, Run.bind_go, hval, accountWidth, hacc, writeBytes_open q ho hopen]
  exact accountBits_dec _ _ hr hcnt

/-- Where the policy is quiet RP.EVAL returns false and changes nothing (rules R134, R135). -/
theorem evalPolicy_quiet (t : RatioTest) {c : Common} (h : QuietPolicy c) : evalPolicy t c = some (false, c) := by
  rcases h with hcount | hmode
  · exact evalPolicy_unsaturated t hcount
  · simp [evalPolicy, hmode, evalNone]

theorem decPolicy_quiet {s : State} {r : DecRegs} (hr : s.dec.regs = some r) (h : QuietPolicy r.common) :
    decPolicy s = .go () s := by
  rw [decPolicy, applyPolicy_dec_regs hr, evalPolicy_quiet _ h]
  exact congrArg (Run.go ()) (State.setDec_same hr)

theorem decRead_of_codeword {rd : State → Run (Option Nat)} {s t : State} {c : Nat} (hrd : rd s = .go (some c) t)
    (hc : c ≠ 256) : decRead rd s = .go c t := by
  simp [decRead, hrd, Config.eofCode, hc]

/-! ### DEC.RESOLVE -/

section
variable {s : State} {r : DecRegs} {c : Nat} (hr : s.dec.regs = some r)
include hr

theorem decResolve_assigned {q : Bytes} (hc : c < r.common.count) (hi : c < 65536) (hq : r.table.read c = some q)
    (hfits : seqFits s.params.seqMax q = true) : decResolve c s = .go q s := by
  simp [decResolve, readDec_some hr, Nat.not_lt.2 hc.le, hc.ne, tableRead_of_read hr hi hq, holdSeq_fits hfits]

theorem decResolve_kwkwk {f : Byte} {p : Bytes} (hc : c = r.common.count) (hval : r.val = some (f :: p))
    (hfits : seqFits s.params.seqMax (f :: p ++ [f]) = true) : decResolve c s = .go (f :: p ++ [f]) s := by
  have hbuilt : r.val.bind (fun v => appendFirst v v) = some (f :: p ++ [f]) := by simp [hval, appendFirst]
  simp only [decResolve, readDec_some hr, Run.bind_go, hc, lt_irrefl, if_false, if_true, hbuilt, holdSeq_fits hfits]

theorem decResolve_above (hc : r.common.count < c) :
    decResolve c s = .ended (s.raise .dec .codewordOutOfRange (some c)) := by
  simp only [decResolve, readDec_some hr, Run.bind_go, hc, if_true, raiseFault]

end

/-! ### DEC.INSERT, DEC.GROW, DEC.ADVANCE -/

section
variable {s : State} {r : DecRegs} (hr : s.dec.regs = some r)
include hr

theorem decInsert_below {v p : Bytes} {f : Byte} (hval : r.val = some v) (hroom : r.common.count < r.common.L)
    (hcode : r.common.count < 65536) (hfits : seqFits s.params.seqMax (v ++ [f]) = true) :
    decInsert (f :: p) s = .go () (s.setDec { r with
      table := r.table.write r.common.count (v ++ [f]), common := { r.common with count := r.common.count + 1 } }) := by
  have hbuilt : r.val.bind (fun v => appendFirst v (f :: p)) = some (v ++ [f]) := by simp [hval, appendFirst]
  simp only [decInsert, readDec_some hr, Run.bind_go, hroom, if_true, hbuilt,
    tableWrite_fits hr hcode (List.append_ne_nil_of_right_ne_nil v (List.cons_ne_nil f [])) hfits,
    writeCommon_dec (State.setDec_regs _ _), State.setDec_setDec]

theorem decInsert_full (q : Bytes) (h : r.common.L ≤ r.common.count) : decInsert q s = .go () s := by
  simp only [decInsert, readDec_some hr, Run.bind_go, Nat.not_lt.2 h, if_false]

theorem decAdvance_regs (q : Bytes) : decAdvance q s = .go () (s.setDec { r with val := some q }) := by
  simp only [decAdvance, readDec_some hr, Run.bind_go]

/-- Sub-steps e to g on the resolved sequence (rules R177 to R179). -/
theorem decInsert_grow_advance {v p : Bytes} {f : Byte} (hval : r.val = some v) (hmax : s.params.seqMax = none)
    (hcode : r.common.count < r.common.L → r.common.count < 65536) :
    ((decInsert (f :: p) s).bind fun _ s => (decGrow s).bind fun _ s => decAdvance (f :: p) s) =
      .go () (s.setDec (r.advanced v (f :: p) f)) := by
  have growAdvance {t : State} {u : DecRegs} (hu : t.dec.regs = some u) :
      ((decGrow t).bind fun _ s => decAdvance (f :: p) s) =
        .go () (t.setDec { u with common := u.common.decGrown, val := some (f :: p) }) := by
    simp only [decGrow, growIfReached_dec_regs hu, Run.bind_go, decAdvance_regs (State.setDec_regs _ _),
      State.setDec_setDec]
  by_cases hroom : r.common.count < r.common.L
  · have hfits : seqFits s.params.seqMax (v ++ [f]) = true := hmax ▸ seqFits_none _
    rw [decInsert_below hr hval hroom (hcode hroom) hfits, Run.bind_go, growAdvance (State.setDec_regs _ _),
      State.setDec_setDec, DecRegs.advanced, if_pos hroom]
  · rw [decInsert_full hr _ (Nat.not_lt.1 hroom), Run.bind_go, growAdvance hr, DecRegs.advanced, if_neg hroom]

end

/-! ### DEC.STEP on a codeword other than EOF -/

/-- The Decoder's registers when a DEC.STEP resolves its codeword, where the policy is quiet (rules R173, R175). -/
def DecRegs.resolving (r : DecRegs) (q : Bytes) : DecRegs :=
  { r with common := r.common.accounted q r.common.W }.taken r.common.W

section
variable {s : State} {r : DecRegs} {o : ByteSink} {q : Bytes} {c : Nat} {rd : State → Run (Option Nat)}
  (h : LoopReady s r o q) (hquiet : QuietPolicy r.common) (hrd : Presents rd c .loop r.common.W r.common.count)
  (hc : c ≠ 256)
include h hquiet hrd hc

/-- DEC.STEP up to the codeword (rules R172 to R175). -/
theorem decStepBody_of_presents : decStepBody rd s =
    (decResolve c ((s.written r o q).setDec (r.resolving q))).bind fun p s =>
      (decInsert p s).bind fun _ s => (decGrow s).bind fun _ s => decAdvance p s := by
  have hread : rd (s.written r o q) = .go (some c) ((s.written r o q).setDec (r.resolving q)) :=
    hrd _ _ rfl h.phase rfl rfl
  have hpolicy : decPolicy (s.written r o q) = .go () (s.written r o q) := decPolicy_quiet rfl hquiet
  simp only [decStepBody, decOutput_ready h, hpolicy, Run.bind_go, decRead_of_codeword hread hc]

/-- DEC.STEP on a codeword that stands for a sequence (rules R172 to R179). -/
theorem decStepBody_resolved {f : Byte} {p : Bytes} (hcode : r.common.count < r.common.L → r.common.count < 65536)
    (hresolve : decResolve c ((s.written r o q).setDec (r.resolving q)) =
      .go (f :: p) ((s.written r o q).setDec (r.resolving q))) :
    decStepBody rd s = .go () ((s.written r o q).setDec ((r.resolving q).advanced q (f :: p) f)) := by
  have hregs := State.setDec_regs (r.resolving q) (s.written r o q)
  rw [decStepBody_of_presents h hquiet hrd hc, hresolve, Run.bind_go,
    decInsert_grow_advance hregs h.val h.unbounded.2 hcode, State.setDec_setDec]

/-- DEC.STEP on a codeword above the count ends in the fault, with `D.val` written (rules R176, R204, R210). -/
theorem decStepBody_above (hcount : r.common.count < c) :
    decStepBody rd s =
      .ended (((s.written r o q).setDec (r.resolving q)).raise .dec .codewordOutOfRange (some c)) := by
  rw [decStepBody_of_presents h hquiet hrd hc,
    decResolve_above (r := r.resolving q) (State.setDec_regs _ _) hcount, Run.bind_ended]

end

/-- Settles O32: an assigned codeword has class REF, and the table resolves it. -/
theorem loopReferenceStep : Obligations.LoopReferenceStep := by
  intro s r o q p c f h hquiet hc hcount hlt hread hcode t
  refine exec_dyn_of_presents hlt ?_ fun rd hrd => ?_
  · rw [h.phase]; exact (unitClass_loop_of_dyn hc).trans (if_pos hcount)
  · rw [h.phase] at hrd
    have hfits : seqFits s.params.seqMax (f :: p) = true := h.unbounded.2 ▸ seqFits_none _
    rw [decUnit_loop h.phase, decStepBody_resolved h hquiet hrd (by omega) hcode
      (decResolve_assigned (State.setDec_regs _ _) hcount c.isLt hread hfits)]
    rfl

/-- Settles O33: the codeword at the count has class KWKWK, and `D.val` with its first byte resolves it. -/
theorem loopKwkwkStep : Obligations.LoopKwkwkStep := by
  intro s r o p c f h hquiet hc hcount hlt t
  refine exec_dyn_of_presents hlt ?_ fun rd hrd => ?_
  · rw [h.phase]
    exact (unitClass_loop_of_dyn hc).trans ((if_neg hcount.not_lt).trans (if_pos hcount))
  · rw [h.phase] at hrd
    have hfits : seqFits s.params.seqMax (f :: p ++ [f]) = true := h.unbounded.2 ▸ seqFits_none _
    rw [decUnit_loop h.phase, decStepBody_resolved h hquiet hrd (by omega) (fun _ => hcount ▸ c.isLt)
      (decResolve_kwkwk (State.setDec_regs _ _) hcount h.val hfits)]
    rfl

/-- Settles O34: a codeword above the count has class INVALID, and DEC.RESOLVE raises on it. -/
theorem loopInvalidIsOutOfRange : Obligations.LoopInvalidIsOutOfRange := by
  intro s r o q c h hquiet hc hcount hlt t
  refine exec_dyn_of_presents hlt ?_ fun rd hrd => ?_
  · rw [h.phase]
    exact (unitClass_loop_of_dyn hc).trans ((if_neg hcount.not_gt).trans (if_neg hcount.ne'))
  · rw [h.phase] at hrd
    rw [decUnit_loop h.phase, decStepBody_above h hquiet hrd (by omega) hcount]
    rfl

end Sys2Proof.Machine

/-! ## Proofs: commands and headers that raise or are not accepted (IllegalCommandsRaiseInvocationError,
CommandToRunningEngineChangesNothing, BadHeadersRaiseTheirFaults) -/

namespace Sys2Proof.Machine

/-! ### A command word, by whether its engine runs -/

theorem encCommand_of_running (m : BitVec 2) {s : State} (h : s.running .enc = true) : encCommand m s = .next s := if_pos h

theorem decCommand_of_running (low : BitVec 2) {s : State} (h : s.running .dec = true) : decCommand low s = .next s :=
  if_pos h

/-- An accepted command of the Encoder is ENC.START with its mode (rule R104). -/
theorem encCommand_of_not_running (m : BitVec 2) {s : State} (h : s.running .enc = false) :
    encCommand m s = (encStart m s).outcome ∧ exec (.encStart m) s = (encStart m s).outcome := by
  simp [encCommand, exec, execEncStart, h]

/-- An accepted command of the Decoder is DEC.START with its low bits (rule R104). -/
theorem decCommand_of_not_running (low : BitVec 2) {s : State} (h : s.running .dec = false) :
    decCommand low s = (decStart low (headerTag s) s).outcome ∧
    exec (.decStart low) s = (decStart low (headerTag s) s).outcome := by
  simp [decCommand, exec, execDecStart, h]

/-- Settles O26: `encCommand` and `decCommand` accept no command to a running engine. -/
theorem commandToRunningEngineChangesNothing : Obligations.CommandToRunningEngineChangesNothing := by
  intro s
  constructor
  · intro hrun i hi
    simp only [List.mem_cons, List.not_mem_nil, or_false] at hi
    rcases hi with rfl | rfl | rfl | rfl <;> exact encCommand_of_running _ hrun
  · intro hrun i hi
    simp only [List.mem_cons, List.not_mem_nil, or_false] at hi
    rcases hi with rfl | rfl | rfl | rfl <;> exact decCommand_of_running _ hrun

/-! ### The faults of DEC.START -/

/-- The Decoder after a fault of DEC.START (rules R209, R210): the registers at `none`, the output empty and open. -/
def Decoder.rejected (code : FaultCode) (info : Nat) : Decoder :=
  { phase := .fault, fault := code, info := some info, regs := none, out := some { bytes := [], closed := false } }

/-- DEC.START reads no input where the command is illegal (rules R105, R170). -/
theorem decStart_illegal {low : BitVec 2} (h : low ≠ 0) (tag : Option Nat) (s : State) :
    decStart low tag s = .ended { s with dec := Decoder.rejected .invocationError (4 + low.toNat) } := by
  simp only [decStart, ne_eq, h, not_false_eq_true, if_true, raiseFault]
  rfl

theorem decStart_short (s : State) :
    decStart 0 none s = .ended { s with bitSource := [], dec := Decoder.rejected .prematureEnd 0 } := rfl

theorem decStart_badTag {n : Nat} (h : modeOfNumber n = none) (s : State) :
    decStart 0 (some n) s = .ended { s with bitSource := [], dec := Decoder.rejected .badModeTag n } := by
  simp only [decStart, h, raiseFault]
  rfl

/-- Only 1, 2 and 3 name a mode (rules R9, R101). -/
theorem modeOfNumber_eq_none {n : Nat} (h : n = 0 ∨ 3 < n) : modeOfNumber n = none := by
  unfold modeOfNumber
  split
  case h_4 => rfl
  all_goals omega

/-- Settles O25: word 000 is ENC.START with no mode, and the others are DEC.START with low bits that are not 0. -/
theorem illegalCommandsRaiseInvocationError : Obligations.IllegalCommandsRaiseInvocationError := by
  constructor
  · intro s hs t
    have hrun : s.running .enc = false := decide_eq_false hs
    have hstart : (encStart 0 s).outcome = .next t := by rw [encStart_illegal rfl]; rfl
    exact hstart ▸ encCommand_of_not_running 0 hrun
  · intro s hs p hp
    have raises {low : BitVec 2} (hlow : low ≠ 0) :
        decCommand low s = .next { s with dec := Decoder.rejected .invocationError (4 + low.toNat) } ∧
        exec (.decStart low) s = .next { s with dec := Decoder.rejected .invocationError (4 + low.toNat) } := by
      have := decCommand_of_not_running low hs
      rwa [decStart_illegal hlow, Run.outcome_ended] at this
    simp only [List.mem_cons, List.not_mem_nil, or_false] at hp
    rcases hp with rfl | rfl | rfl <;> exact raises (by decide)

/-- Settles O27: EXPAND is DEC.START on no tag, or on the tag that heads the stream, as the tag's row is. -/
theorem badHeadersRaiseTheirFaults : Obligations.BadHeadersRaiseTheirFaults := by
  intro s hs
  constructor
  · intro hshort
    have hexpand := (decCommand_of_not_running 0 hs).1
    rwa [show headerTag s = none from hshort, decStart_short, Run.outcome_ended] at hexpand
  · intro t ht u
    have htag : startOnTag t.toNat s = .next u := by
      simp only [startOnTag, hs, Bool.not_false, whenEnabled_true, decStart_badTag (modeOfNumber_eq_none ht)]
      rfl
    exact ⟨htag, fun hpeek => (expand_eq_startOnTag hs hpeek).1.trans htag⟩

end Sys2Proof.Machine

/-! ## Proofs: an instruction that is not enabled (OperationsStopWhereNotEnabled) -/

namespace Sys2Proof.Machine

section
variable {α : Type} {b : Bool} (h : b = false)
include h

theorem outcome_of_not_enabled (k : Run α) : (whenEnabled b k).outcome = .fault .notEnabled := by
  rw [h, whenEnabled_false, Run.outcome_fault]

theorem outcomeRet_of_not_enabled (k : Run α) (f : α → Ret) : (whenEnabled b k).outcomeRet f = .fault .notEnabled := by
  rw [h, whenEnabled_false, Run.outcomeRet_fault]

end

/-- ENC.STEP and ENC.FINISH look at the cursor too (rules R151, R158). -/
theorem encOperation_of_not_enabled {s : State} {p : EncRegs → Bool} (h : (s.running .enc && s.enc.regs.all p) = false)
    (k : State → Run Unit) :
    (whenEnabled (s.running .enc) ((readEnc s).bind fun r s => whenEnabled (p r) (k s))).outcome = .fault .notEnabled := by
  cases hrun : s.running .enc with
  | false => exact outcome_of_not_enabled rfl _
  | true =>
    cases hr : s.enc.regs with
    | none => simp [hrun, hr] at h
    | some r =>
      have hp : p r = false := by simpa [hrun, hr] using h
      rw [whenEnabled_true, readEnc_some hr, Run.bind_go]
      exact outcome_of_not_enabled hp _

/-- A unit of the stream runs in phases FIRST and LOOP alone (rules R97, R109). -/
theorem decUnit_of_not_running {s : State} (h : s.running .dec = false) (rd : State → Run (Option Nat)) :
    (decUnit rd s).outcome = .fault .notEnabled := by
  cases hp : s.dec.phase with
  | first | loop => simp [State.running, hp] at h
  | idle | done | fault => simp only [decUnit, hp, Run.outcome_fault]

/-- Settles O60, by the kinds of condition that R109 puts on an instruction. -/
theorem operationsStopWhereNotEnabled : Obligations.OperationsStopWhereNotEnabled := by
  intro i s h
  cases i with
  | compressN | compressR | compressM | illegalCmd000 | expand | illegalCmd101 | illegalCmd110 | illegalCmd111
  | putBits | getBits | close | writeBytes | readAllBytes =>
    cases h
  | encStep | encFinish => exact encOperation_of_not_enabled h _
  | litW9 | eofW9 | dynW9 | litW10 | eofW10 | dynW10 | litW11 | eofW11 | dynW11 | litW12 | eofW12 | dynW12
  | litW13 | eofW13 | dynW13 | litW14 | eofW14 | dynW14 | litW15 | eofW15 | dynW15 | litW16 | eofW16 | dynW16
  | dynRef | dynKwkwk | dynInvalid =>
    exact decUnit_of_not_running h _
  | encLookup | longestPrefix | decRead | decResolve | tableRead | wcReached | rpSaturated | rpEval
  | rpEvalNone | rpEvalFullReset | rpEvalRatioBaseline | rpEvalRatioCompare =>
    exact outcomeRet_of_not_enabled h _ _
  | _ => exact outcome_of_not_enabled h _

end Sys2Proof.Machine

/-! ## Proofs: the Width Controller (WidthIsMonotonicBetweenResets, WidthControllerOperations)

A step keeps the width until its growth, but for a reset at saturation; the growth then takes it at most one up, and right
after a reset not at all. Each sub-step gets a rule of the form `Run.Ensures` over the shared registers alone. A sub-step
that can end the step only by a fault leaves no registers, so its rule holds for every `E`. -/

namespace Sys2Proof.Machine

/-! ### The width in a step -/

/-- The registers of a step that began with `c`, before its policy: no sub-step has written width, capacity or count. -/
structure Common.BeforePolicy (c d : Common) : Prop where
  width : d.W = c.W
  capacity : d.L = c.L
  count : d.count = c.count

/-- The registers of a step that began with `c`, before its growth: as wide as `c`, or reset at saturation with at most `n`
codewords. -/
inductive Common.BeforeGrowth (c : Common) (n : Nat) (d : Common) : Prop
  | kept (hW : d.W = c.W) (hL : d.L = c.L)
  | reset (hsat : c.count = 65536) (hW : d.W = 9) (hL : d.L = 512) (hcount : d.count ≤ n)

/-- What a step that began with `c` leaves of the width, where the growth comes `k` codewords before the capacity. -/
def Common.WidthStep (c : Common) (k : Nat) (d : Common) : Prop :=
  (c.count = 65536 ∧ d.W = 9 ∧ d.count ≤ 258) ∨ d.W = c.W ∨ (d.W = c.W + 1 ∧ d.count + k = 2 ^ c.W)

/-- RP.EVAL fires only at saturation (rule R134). -/
theorem evalPolicy_fires {t : RatioTest} {c c' : Common} (h : evalPolicy t c = some (true, c')) : c.count = 65536 := by
  by_contra hcount
  rw [evalPolicy_unsaturated t hcount] at h
  cases h

section
variable {c d : Common} {n k : Nat}

theorem Common.BeforePolicy.policy {t : RatioTest} {d' : Common} {fire : Bool} (h : c.BeforePolicy d)
    (he : evalPolicy t d = some (fire, d')) : c.BeforeGrowth 257 (d'.afterPolicy fire) := by
  cases fire with
  | false =>
    obtain ⟨hW, hL, -⟩ := evalPolicy_changes he
    exact .kept (hW.trans h.width) (hL.trans h.capacity)
  | true => exact .reset (h.count.symm.trans (evalPolicy_fires he)) rfl rfl (Nat.le_refl _)

theorem Common.BeforeGrowth.insert (h : c.BeforeGrowth n d) : c.BeforeGrowth (n + 1) { d with count := d.count + 1 } := by
  cases h with
  | kept hW hL => exact .kept hW hL
  | reset hsat hW hL hcount => exact .reset hsat hW hL (Nat.succ_le_succ hcount)

theorem Common.BeforeGrowth.mono {m : Nat} (h : c.BeforeGrowth n d) (hn : n ≤ m) : c.BeforeGrowth m d := by
  cases h with
  | kept hW hL => exact .kept hW hL
  | reset hsat hW hL hcount => exact .reset hsat hW hL (hcount.trans hn)

theorem Common.BeforeGrowth.width_bounds (h : c.BeforeGrowth n d) (hc : c.Inv) : 1 ≤ d.W ∧ d.W ≤ 16 := by
  have hwidth := hc.width
  cases h <;> omega

/-- A step that ends before its growth. -/
theorem Common.BeforeGrowth.widthStep (h : c.BeforeGrowth 258 d) : c.WidthStep k d := by
  cases h with
  | kept hW hL => exact .inr (.inl hW)
  | reset hsat hW hL hcount => exact .inl ⟨hsat, hW, hcount⟩

/-- A growth at its trigger: right after a reset the trigger is far away (rules R121, R122). -/
theorem Common.BeforeGrowth.grow {d' : Common} (h : c.BeforeGrowth 258 d) (hc : c.Inv) (hk : k ≤ 1)
    (htrigger : d.count + k = d.L) (hW' : d'.W = d.W + 1) (hcount' : d'.count = d.count) : c.WidthStep k d' := by
  cases h with
  | kept hW hL => exact .inr (.inr ⟨by rw [hW', hW], by rw [hcount', htrigger, hL, hc.capacity]⟩)
  | reset hsat hW hL hcount => omega

theorem Common.BeforeGrowth.encGrown (h : c.BeforeGrowth 258 d) (hc : c.Inv) : c.WidthStep 0 d.encGrown := by
  unfold Common.encGrown
  split
  · rename_i htrigger; exact h.grow hc (Nat.zero_le _) htrigger.1 rfl rfl
  · exact h.widthStep

theorem Common.BeforeGrowth.decGrown (h : c.BeforeGrowth 258 d) (hc : c.Inv) : c.WidthStep 1 d.decGrown := by
  unfold Common.decGrown
  split
  · rename_i htrigger; exact h.grow hc (Nat.le_refl _) htrigger.1 rfl rfl
  · exact h.widthStep

end

/-! ### ENC.STEP -/

/-- The Encoder's registers hold values, and those of the Width Controller and the Reset Policy satisfy `P`. -/
def Encoder.Has (e : Encoder) (P : Common → Prop) : Prop := ∃ r, e.regs = some r ∧ P r.common

/-- The same where the registers hold values, which they do not after a fault (rule R209). -/
def Encoder.HasIfAny (e : Encoder) (P : Common → Prop) : Prop := ∀ r, e.regs = some r → P r.common

theorem encLookup_ne_ended (s t : State) : encLookup s ≠ .ended t :=
  Run.bind_ne_ended (fun _ => readEnc_ne_ended) (fun _ _ => Run.bind_ne_ended (longestPrefix_ne_ended _ _) fun _ _ =>
    Run.bind_ne_ended (fun _ => holdSeq_ne_ended) fun _ _ => Run.go_ne_ended _ _) t

section
variable {s : State} {c : Common} {P E : Common → Prop} {q : Bytes}

theorem encLookup_keeps_common (h : s.enc.Has P) :
    (encLookup s).Ensures (·.enc.HasIfAny E) fun _ t => t.enc.Has P :=
  Run.ensures_of_go (fun _ _ hgo => (encLookup_eq_go.1 hgo).1 ▸ h) (encLookup_ne_ended s)

theorem encEmit_width {code : Nat} (h : s.enc.Has c.BeforePolicy) :
    (encEmit q code s).Ensures (·.enc.HasIfAny E) fun _ t => t.enc.Has c.BeforePolicy := by
  obtain ⟨r, hr, hbefore⟩ := h
  simp only [encEmit, readEnc_some hr, Run.bind_go]
  refine Run.Ensures.bind (Run.ensures_of_go (fun _ _ h => h) fun _ => putBits_ne_ended) fun _ t ht => ?_
  obtain ⟨o, -, -, -, -, rfl⟩ := putBits_eq_go ht
  rw [accountBits_enc_regs (r := r)]
  case h => exact hr
  split
  · exact fun _ hr' => nomatch hr'
  · exact ⟨_, rfl, hbefore.width, hbefore.capacity, hbefore.count⟩

theorem encPolicy_width (h : s.enc.Has c.BeforePolicy) :
    (encPolicy s).Ensures (·.enc.HasIfAny E) fun _ t => t.enc.Has (c.BeforeGrowth 257) := by
  obtain ⟨r, hr, hbefore⟩ := h
  rw [encPolicy, applyPolicy_enc_regs hr]
  cases he : evalPolicy s.params.ratio r.common with
  | none => trivial
  | some e => exact ⟨_, rfl, hbefore.policy he⟩

theorem encInsert_width (h : s.enc.Has (c.BeforeGrowth 257)) :
    (encInsert q s).Ensures (·.enc.HasIfAny E) fun _ t => t.enc.Has (c.BeforeGrowth 258) := by
  obtain ⟨r, hr, hbefore⟩ := h
  simp only [encInsert, readEnc_some hr, Run.bind_go]
  split
  case isFalse => exact ⟨r, hr, hbefore.mono (by decide)⟩
  case isTrue =>
    refine Run.Ensures.bind (Run.ensures_of_go (fun _ _ h => h) (dictInsert_ne_ended _ _ _)) fun _ t ht => ?_
    obtain ⟨r', -, -, -, -, -, rfl⟩ := dictInsert_eq_go ht
    rw [writeCommon_enc (State.setEnc_regs _ _)]
    exact ⟨_, rfl, hbefore.insert⟩

theorem encGrow_width (hc : c.Inv) (h : s.enc.Has (c.BeforeGrowth 258)) :
    (encGrow s).Ensures (·.enc.HasIfAny E) fun _ t => t.enc.Has (c.WidthStep 0) := by
  obtain ⟨r, hr, hbefore⟩ := h
  rw [encGrow, growIfReached_enc_regs hr]
  exact ⟨_, rfl, hbefore.encGrown hc⟩

theorem encAdvance_keeps_common (h : s.enc.Has P) :
    (encAdvance q s).Ensures (·.enc.HasIfAny P) fun _ t => t.enc.HasIfAny P := by
  obtain ⟨r, hr, hP⟩ := h
  rw [encAdvance, readEnc_some hr]
  rintro _ ⟨⟩
  exact hP

theorem encStepBody_width (hc : c.Inv) (h : s.enc.Has c.BeforePolicy) :
    (encStepBody s).Ensures (·.enc.HasIfAny (c.WidthStep 0)) fun _ t => t.enc.HasIfAny (c.WidthStep 0) :=
  (encLookup_keeps_common h).bind fun _ _ h => (encEmit_width h).bind fun _ _ h => (encPolicy_width h).bind fun _ _ h =>
    (encInsert_width h).bind fun _ _ h => (encGrow_width hc h).bind fun _ _ h => encAdvance_keeps_common h

end

/-! ### DEC.STEP -/

/-- As `Encoder.Has`, for the Decoder. -/
def Decoder.Has (d : Decoder) (P : Common → Prop) : Prop := ∃ r, d.regs = some r ∧ P r.common

/-- As `Encoder.HasIfAny`, for the Decoder. -/
def Decoder.HasIfAny (d : Decoder) (P : Common → Prop) : Prop := ∀ r, d.regs = some r → P r.common

section
variable {s : State} {c : Common} {P E : Common → Prop} {q : Bytes}

theorem raiseFault_dec_hasIfAny {α : Type} {Q : α → State → Prop} (code : FaultCode) (info : Option Nat) (s : State) :
    (raiseFault .dec code info s : Run α).Ensures (·.dec.HasIfAny E) Q := nofun

theorem raisePremature_hasIfAny {α : Type} {Q : α → State → Prop} (s : State) :
    (raisePremature s : Run α).Ensures (·.dec.HasIfAny E) Q :=
  (Run.ensures_of_go (fun _ _ _ => trivial) fun _ => readDec_ne_ended).bind fun _ _ _ => raiseFault_dec_hasIfAny _ _ _

theorem decOutput_width (h : s.dec.Has c.BeforePolicy) :
    (decOutput s).Ensures (·.dec.HasIfAny E) fun _ t => t.dec.Has c.BeforePolicy := by
  obtain ⟨r, hr, hbefore⟩ := h
  simp only [decOutput, readDec_some hr, Run.bind_go]
  split
  case h_2 => trivial
  case h_1 q w _ _ =>
    refine Run.Ensures.bind (Run.ensures_of_go (fun _ _ h => h) fun _ => writeBytes_ne_ended) fun _ t ht => ?_
    obtain ⟨o, -, -, rfl⟩ := writeBytes_eq_go ht
    rw [accountBits_dec_regs (r := r)]
    case h => exact hr
    split
    · exact raiseFault_dec_hasIfAny _ _ _
    · exact ⟨_, rfl, hbefore.width, hbefore.capacity, hbefore.count⟩

theorem decPolicy_width (h : s.dec.Has c.BeforePolicy) :
    (decPolicy s).Ensures (·.dec.HasIfAny E) fun _ t => t.dec.Has (c.BeforeGrowth 257) := by
  obtain ⟨r, hr, hbefore⟩ := h
  rw [decPolicy, applyPolicy_dec_regs hr]
  cases he : evalPolicy s.params.ratio r.common with
  | none => trivial
  | some e => exact ⟨_, rfl, hbefore.policy he⟩

theorem decFinishBody_hasIfAny (h : s.dec.Has P) :
    (decFinishBody s).Ensures (·.dec.HasIfAny P) fun _ t => t.dec.HasIfAny P := by
  obtain ⟨r, hr, hP⟩ := h
  unfold decFinishBody closeSink
  cases s.dec.out with
  | none => trivial
  | some o => rintro r' hr'; cases hr.symm.trans hr'; exact hP

/-- DEC.READ either goes on at the width it found or ends the invocation there (rule R175). -/
theorem decRead_width (hc : c.Inv) (h : s.dec.Has (c.BeforeGrowth 257)) : (decRead readUnit s).Ensures
    (·.dec.HasIfAny (c.WidthStep 1)) fun _ t => t.dec.Has (c.BeforeGrowth 257) := by
  obtain ⟨r, hr, hbefore⟩ := h
  simp only [decRead, readUnit_regs hr (hbefore.width_bounds hc)]
  cases peekBits r.src r.bitpos r.common.W with
  | none => exact raisePremature_hasIfAny s
  | some cw =>
    simp only [Run.bind_go]
    split
    · refine Run.Ensures.bind (decFinishBody_hasIfAny ⟨_, rfl, ?_⟩) fun _ _ h => h
      exact (hbefore.mono (by decide)).widthStep
    · exact ⟨_, rfl, hbefore⟩

theorem decResolve_keeps_common {cw : Nat} (h : s.dec.Has P) :
    (decResolve cw s).Ensures (·.dec.HasIfAny E) fun _ t => t.dec.Has P := by
  have ⟨r, hr, _⟩ := h
  have hold (q : Bytes) : ((holdSeq q s).bind fun _ s => Run.go q s).Ensures (·.dec.HasIfAny E) fun _ t => t.dec.Has P :=
    (holdSeq_ensures q s).bind fun _ t ht => (ht ▸ h : t.dec.Has P)
  simp only [decResolve, readDec_some hr, Run.bind_go]
  split
  · exact raiseFault_dec_hasIfAny _ _ _
  · split
    · split
      · exact hold _
      · trivial
    · exact (tableRead_ensures cw s).bind fun q t ht => ht.1 ▸ hold q

theorem decInsert_width (h : s.dec.Has (c.BeforeGrowth 257)) :
    (decInsert q s).Ensures (·.dec.HasIfAny E) fun _ t => t.dec.Has (c.BeforeGrowth 258) := by
  obtain ⟨r, hr, hbefore⟩ := h
  simp only [decInsert, readDec_some hr, Run.bind_go]
  split
  case isFalse => exact ⟨r, hr, hbefore.mono (by decide)⟩
  case isTrue =>
    split
    · refine Run.Ensures.bind (Run.ensures_of_go (fun _ _ h => h) (tableWrite_ne_ended _ _ _)) fun _ t ht => ?_
      obtain ⟨r', -, -, -, rfl⟩ := tableWrite_eq_go ht
      rw [writeCommon_dec (State.setDec_regs _ _)]
      exact ⟨_, rfl, hbefore.insert⟩
    · trivial

theorem decGrow_width (hc : c.Inv) (h : s.dec.Has (c.BeforeGrowth 258)) :
    (decGrow s).Ensures (·.dec.HasIfAny E) fun _ t => t.dec.Has (c.WidthStep 1) := by
  obtain ⟨r, hr, hbefore⟩ := h
  rw [decGrow, growIfReached_dec_regs hr]
  exact ⟨_, rfl, hbefore.decGrown hc⟩

theorem decAdvance_keeps_common (h : s.dec.Has P) :
    (decAdvance q s).Ensures (·.dec.HasIfAny P) fun _ t => t.dec.HasIfAny P := by
  obtain ⟨r, hr, hP⟩ := h
  rw [decAdvance_regs hr]
  rintro _ ⟨⟩
  exact hP

theorem decStepBody_width (hc : c.Inv) (h : s.dec.Has c.BeforePolicy) : (decStepBody readUnit s).Ensures
    (·.dec.HasIfAny (c.WidthStep 1)) fun _ t => t.dec.HasIfAny (c.WidthStep 1) :=
  (decOutput_width h).bind fun _ _ h => (decPolicy_width h).bind fun _ _ h => (decRead_width hc h).bind fun _ _ h =>
    (decResolve_keeps_common h).bind fun _ _ h => (decInsert_width h).bind fun _ _ h =>
      (decGrow_width hc h).bind fun _ _ h => decAdvance_keeps_common h

end

/-! ### Both engines -/

theorem Common.BeforePolicy.refl (c : Common) : c.BeforePolicy c := ⟨rfl, rfl, rfl⟩

theorem execEncStep_width {s t : State} {r : EncRegs} (hr : s.enc.regs = some r) (hc : r.common.Inv)
    (ht : execEncStep s = .next t) : t.enc.HasIfAny (r.common.WidthStep 0) := by
  refine Run.Ensures.outcome (E := (·.enc.HasIfAny (r.common.WidthStep 0))) (Run.Ensures.whenEnabled fun _ => ?_) ht
  rw [readEnc_some hr]
  exact Run.Ensures.whenEnabled fun _ => encStepBody_width hc ⟨r, hr, .refl _⟩

theorem execDecStep_width {s t : State} {r : DecRegs} (hr : s.dec.regs = some r) (hc : r.common.Inv)
    (ht : execDecStep s = .next t) : t.dec.HasIfAny (r.common.WidthStep 1) :=
  Run.Ensures.outcome (E := (·.dec.HasIfAny (r.common.WidthStep 1)))
    (Run.Ensures.whenEnabled fun _ => decStepBody_width hc ⟨r, hr, .refl _⟩) ht

/-- Settles O10: the sub-steps keep the width up to the growth, which adds one at its trigger. -/
theorem widthIsMonotonicBetweenResets : Obligations.WidthIsMonotonicBetweenResets :=
  ⟨fun _ _ _ u hr hc ht => execEncStep_width hr hc ht u, fun _ _ _ u hr hc ht => execDecStep_width hr hc ht u⟩

/-! ### WC.INIT, WC.REACHED, WC.GROW on their own -/

section
variable {x : Engine} {s : State} {c : Common} (hrun : s.running x = true) (hread : readCommon x s = .go c s)
include hrun hread

theorem execWcInit_running : execWcInit x s = (writeCommon x (initWidth c) s).outcome := by
  simp only [execWcInit, hrun, whenEnabled_true, hread, Run.bind_go]

theorem execWcReached_running : execWcReached x s = .next { s with ret := .flag (capacityReached x c) } := by
  simp only [execWcReached, hrun, whenEnabled_true, hread, Run.bind_go, Run.outcomeRet_go]

theorem execWcGrow_running (hW : c.W < 16) : execWcGrow x s = (writeCommon x (growWidth c) s).outcome := by
  simp only [execWcGrow, hrun, whenEnabled_true, hread, Run.bind_go, Config.wMax, hW, if_true]

end

/-- Settles O49: each operation reads the registers of its engine and writes them once or not at all. -/
theorem widthControllerOperations : Obligations.WidthControllerOperations := by
  refine ⟨fun s r hp hr => ?enc, fun s r hrun hr => ?dec⟩
  case enc =>
    have hrun := running_enc_iff.2 hp
    have hread := readCommon_enc hr
    have hwrite (c : Common) : (writeCommon .enc c s).outcome = .next (s.setEnc { r with common := c }) := by
      rw [writeCommon_enc hr, Run.outcome_go]
    exact ⟨(execWcInit_running hrun hread).trans (hwrite _), execWcReached_running hrun hread,
      fun hW => (execWcGrow_running hrun hread hW).trans (hwrite _)⟩
  case dec =>
    have hread := readCommon_dec hr
    have hwrite (c : Common) : (writeCommon .dec c s).outcome = .next (s.setDec { r with common := c }) := by
      rw [writeCommon_dec hr, Run.outcome_go]
    exact ⟨(execWcInit_running hrun hread).trans (hwrite _), execWcReached_running hrun hread,
      fun hW => (execWcGrow_running hrun hread hW).trans (hwrite _)⟩

end Sys2Proof.Machine

/-! ## Proofs: the Reset Policy (SaturationTestAndAccounting, PolicyVariants, RatioCompareCase, RatioTestIsTheQuotient,
DictResetRestoresTheSeed)

An operation of the policy does the same in either engine: it reads the shared registers and writes them back or not at
all. So each gets one rule, over an engine that runs with the registers `c` (`RunsWith`). -/

namespace Sys2Proof.Machine

/-! ### RP.EVAL on the registers -/

section
variable (t : RatioTest) {c : Common}

theorem evalPolicy_fullReset (hsat : c.count = 65536) (hmode : c.mode = .fullReset) :
    evalPolicy t c = some (true, c) := by
  simp only [evalPolicy, saturated, Config.ceiling, hsat, hmode, decide_true, if_true, evalFullReset]

theorem evalPolicy_ratioMonitored (hsat : c.count = 65536) (hmode : c.mode = .ratioMonitored) :
    evalPolicy t c = evalRatio t c := by
  simp only [evalPolicy, saturated, Config.ceiling, hsat, hmode, decide_true, if_true]

theorem evalRatio_baseline (hset : c.ratioSet = false) : evalRatio t c = some (evalBaseline c) := by
  simp only [evalRatio, hset, Bool.false_eq_true, if_false]

theorem evalRatio_compare {b : Snapshot} (hset : c.ratioSet = true) (hold : c.oldRatio = some b) :
    evalRatio t c = some (evalCompare t b c) := by
  simp only [evalRatio, hset, if_true, hold, Option.map_some]

end

/-! ### A policy operation run on its own -/

/-- Engine `x` runs in `s` with the registers `c`, and writing `d` in their place leaves the state `put d`. -/
structure RunsWith (x : Engine) (s : State) (c : Common) (put : Common → State) : Prop where
  running : s.running x = true
  read : readCommon x s = .go c s
  write : ∀ d, writeCommon x d s = .go () (put d)
  same : put c = s

theorem runsWith_enc {s : State} {r : EncRegs} (hp : s.enc.phase = .step) (hr : s.enc.regs = some r) :
    RunsWith .enc s r.common fun c => s.setEnc { r with common := c } :=
  ⟨running_enc_iff.2 hp, readCommon_enc hr, writeCommon_enc hr, State.setEnc_same hr⟩

theorem runsWith_dec {s : State} {r : DecRegs} (hrun : s.running .dec = true) (hr : s.dec.regs = some r) :
    RunsWith .dec s r.common fun c => s.setDec { r with common := c } :=
  ⟨hrun, readCommon_dec hr, writeCommon_dec hr, State.setDec_same hr⟩

/-- The state after RP.EVAL or a variant answered `e`: whether it fires, and the registers (log 6). -/
def afterEval (put : Common → State) (e : Bool × Common) : State := { put e.2 with ret := .flag e.1 }

theorem ratioExceeds_exact {old new : Snapshot} :
    ratioExceeds .exact old new = true ↔ 10 * old.U * new.C > 11 * old.C * new.U := decide_eq_true_iff

/-- The exact compare case, by the outcome of its test (rules R133, R138). -/
theorem afterEval_compare (put : Common → State) (b : Snapshot) (c : Common) :
    afterEval put (evalCompare .exact b c) =
      if 10 * b.U * c.C > 11 * b.C * c.U then
        { put { c with ratioSet := false, oldRatio := none, newRatio := none } with ret := .flag true }
      else { put { c with newRatio := some { U := c.U, C := c.C } } with ret := .flag false } := by
  by_cases htest : 10 * b.U * c.C > 11 * b.C * c.U
  · rw [if_pos htest, evalCompare, if_pos (ratioExceeds_exact.2 htest)]; rfl
  · rw [if_neg htest, evalCompare, if_neg (mt ratioExceeds_exact.1 htest)]; rfl

theorem counterOverflows_eq_false {cntW : Option Nat} {v : Nat} (h : ∀ n, cntW = some n → v < 2 ^ n) :
    counterOverflows cntW v = false := by
  cases cntW with
  | none => rfl
  | some n => exact decide_eq_false (Nat.not_le.2 (h n rfl))

namespace RunsWith

variable {x : Engine} {s : State} {c : Common} {put : Common → State} (h : RunsWith x s c put)
include h

theorem rpSaturated : execRpSaturated x s = .next { s with ret := .flag (decide (c.count = 65536)) } := by
  simp only [execRpSaturated, h.running, whenEnabled_true, h.read, Run.bind_go, Run.outcomeRet_go]
  rfl

theorem rpAccount {u b : Nat}
    (hfit : ∀ n, s.params.cntW = some n → c.U + u < 2 ^ n ∧ c.C + b < 2 ^ n) :
    execRpAccount x u b s = .next (put { c with U := c.U + u, C := c.C + b }) := by
  have hU := counterOverflows_eq_false fun n hn => (hfit n hn).1
  have hC := counterOverflows_eq_false fun n hn => (hfit n hn).2
  simp only [execRpAccount, h.running, whenEnabled_true, accountBits, h.read, Run.bind_go, hU, hC, Bool.or_self,
    Bool.false_eq_true, if_false, h.write, Run.outcome_go]

theorem rpEval {e : Bool × Common} (he : evalPolicy s.params.ratio c = some e) :
    execRpEval x s = .next (afterEval put e) := by
  simp only [execRpEval, h.running, whenEnabled_true, runEval, h.read, Run.bind_go, he, h.write, Run.outcomeRet_go,
    afterEval]

theorem runVariant_inCase {inCase : Common → Bool} {variant : State → Common → Option (Bool × Common)}
    {e : Bool × Common} (hcase : inCase c = true) (he : variant s c = some e) :
    (runVariant x inCase variant s).outcomeRet .flag = .next (afterEval put e) := by
  simp only [runVariant, h.running, whenEnabled_true, h.read, Run.bind_go, hcase, if_true, he, h.write,
    Run.outcomeRet_go, afterEval]

/-- An answer that leaves the registers alone changes nothing but the returned value. -/
theorem afterEval_same (fire : Bool) : afterEval put (fire, c) = { s with ret := .flag fire } := by
  simp only [afterEval, h.same]

theorem rpEval_unsaturated (hcount : c.count ≠ 65536) : execRpEval x s = .next { s with ret := .flag false } :=
  h.afterEval_same false ▸ h.rpEval (evalPolicy_unsaturated _ hcount)

theorem rpEval_of_none (hmode : c.mode = .none) :
    execRpEvalNone x s = .next { s with ret := .flag false } ∧
    execRpEval x s = .next { s with ret := .flag false } :=
  h.afterEval_same false ▸ ⟨h.runVariant_inCase (decide_eq_true hmode) rfl, h.rpEval (evalPolicy_quiet _ (.inr hmode))⟩

theorem rpEval_of_fullReset (hmode : c.mode = .fullReset) :
    execRpEvalFullReset x s = .next { s with ret := .flag true } ∧
    (c.count = 65536 → execRpEval x s = .next { s with ret := .flag true }) :=
  h.afterEval_same true ▸
    ⟨h.runVariant_inCase (decide_eq_true hmode) rfl, fun hsat => h.rpEval (evalPolicy_fullReset _ hsat hmode)⟩

theorem rpEval_of_baseline (hmode : c.mode = .ratioMonitored) (hset : c.ratioSet = false) :
    execRpEvalRatioBaseline x s = .next (afterEval put (evalBaseline c)) ∧
    (c.count = 65536 → execRpEval x s = .next (afterEval put (evalBaseline c))) :=
  ⟨h.runVariant_inCase (decide_eq_true ⟨hmode, hset⟩) rfl, fun hsat =>
    h.rpEval ((evalPolicy_ratioMonitored _ hsat hmode).trans (evalRatio_baseline _ hset))⟩

theorem rpEval_of_compare {b : Snapshot} (hmode : c.mode = .ratioMonitored) (hset : c.ratioSet = true)
    (hold : c.oldRatio = some b) :
    execRpEvalRatioCompare x s = .next (afterEval put (evalCompare s.params.ratio b c)) ∧
    (c.count = 65536 → execRpEval x s = .next (afterEval put (evalCompare s.params.ratio b c))) :=
  ⟨h.runVariant_inCase (decide_eq_true ⟨hmode, hset⟩) (by rw [hold, Option.map_some]), fun hsat =>
    h.rpEval ((evalPolicy_ratioMonitored _ hsat hmode).trans (evalRatio_compare _ hset hold))⟩

end RunsWith

/-- Settles O50: the test writes no register, and the counters take sums that fit. -/
theorem saturationTestAndAccounting : Obligations.SaturationTestAndAccounting :=
  ⟨fun _ _ _ _ hp hr => ⟨(runsWith_enc hp hr).rpSaturated, (runsWith_enc hp hr).rpAccount⟩,
    fun _ _ _ _ hrun hr => ⟨(runsWith_dec hrun hr).rpSaturated, (runsWith_dec hrun hr).rpAccount⟩⟩

/-- Settles O52: one rule for each mode, in either engine. -/
theorem policyVariants : Obligations.PolicyVariants := by
  refine ⟨fun s r hp hr => ?enc, fun s r hrun hr => ?dec⟩
  case enc =>
    have h := runsWith_enc hp hr
    exact ⟨h.rpEval_unsaturated, h.rpEval_of_none, h.rpEval_of_fullReset, h.rpEval_of_baseline⟩
  case dec =>
    have h := runsWith_dec hrun hr
    exact ⟨h.rpEval_unsaturated, h.rpEval_of_none, h.rpEval_of_fullReset, h.rpEval_of_baseline⟩

/-- Settles O53: the variant and RP.EVAL at saturation both answer what the exact test decides. -/
theorem ratioCompareCase : Obligations.RatioCompareCase := by
  refine ⟨fun s r b hp hr hexact hmode hset hold => ?enc, fun s r b hrun hr hexact hmode hset hold => ?dec⟩
  case enc =>
    have h := (runsWith_enc hp hr).rpEval_of_compare hmode hset hold
    rw [hexact, afterEval_compare] at h
    exact h
  case dec =>
    have h := (runsWith_dec hrun hr).rpEval_of_compare hmode hset hold
    rw [hexact, afterEval_compare] at h
    exact h

/-- Settles O54, by multiplying out the positive denominators. -/
theorem ratioTestIsTheQuotient : Obligations.RatioTestIsTheQuotient := by
  intro old new _ hoC hnU _
  have hden : (0 : ℚ) < old.C * new.U := by exact_mod_cast Nat.mul_pos hoC hnU
  calc ratioExceeds .exact old new = true
      ↔ 11 * (old.C * new.U) < 10 * (old.U * new.C) := by
        rw [ratioExceeds_exact, gt_iff_lt, Nat.mul_assoc, Nat.mul_assoc]
    _ ↔ (11 : ℚ) * (old.C * new.U) < old.U * new.C * 10 := by rw [mul_comm _ (10 : ℚ)]; exact_mod_cast Iff.rfl
    _ ↔ ((old.U : ℚ) / old.C) / ((new.U : ℚ) / new.C) > 11 / 10 := by
        rw [div_div_div_eq, gt_iff_lt, div_lt_div_iff₀ (by norm_num) hden]

/-- Settles O55: the reset writes the seed, the count and the width state, and the seed is read at every
codeword. -/
theorem dictResetRestoresTheSeed : Obligations.DictResetRestoresTheSeed := by
  refine ⟨fun s r hp hr => ?enc, fun s r hrun hr => ?dec, Store.read_seed⟩
  case enc => simp only [exec, execDictReset, running_enc_iff.2 hp, whenEnabled_true, resetDict_enc hr]; rfl
  case dec => simp only [exec, execDictReset, hrun, whenEnabled_true, resetDict_dec hr]; rfl

end Sys2Proof.Machine

/-! ## Proofs: mode FullReset at saturation (FullResetStepCarriesTheEntry)

The policy fires, and the sub-steps after it run on the seed: the entry they add is the first after the seed, far below the
trigger of a growth. -/

namespace Sys2Proof.Machine

/-- A key of more than one byte is new to the seed (rules R63, R64). -/
theorem Store.codeOf_seed_of_two_le {key : Bytes} (h : 2 ≤ key.length) : Store.seed.codeOf key = none := by
  refine Store.codeOf_eq_none.2 fun c hmem => ?_
  have hread := Store.read_of_mem Store.wf_seed hmem
  rw [Store.read_seed] at hread
  split at hread
  · cases hread; exact absurd h (Nat.not_succ_le_self 1)
  · cases hread

/-! ### The Decoder -/

theorem decPolicy_fullReset {s : State} {r : DecRegs} (hr : s.dec.regs = some r) (hsat : r.common.count = 65536)
    (hmode : r.common.mode = .fullReset) :
    decPolicy s = .go () (s.setDec { r with common := r.common.afterReset, table := Store.seed }) := by
  rw [decPolicy, applyPolicy_dec_regs hr, evalPolicy_fullReset _ hsat hmode]
  rfl

/-- The Decoder's registers after DEC.OUTPUT wrote `q` and DEC.POLICY reset the dictionary (rules R139, R173, R174). -/
def DecRegs.writtenReset (r : DecRegs) (q : Bytes) : DecRegs :=
  { r with common := (r.common.accounted q r.common.W).afterReset, table := Store.seed }

/-- The first entry after the seed leaves the width alone (rules R177, R178). -/
theorem DecRegs.advanced_writtenReset (r : DecRegs) (q p : Bytes) (b : Byte) :
    ((r.writtenReset q).taken 9).advanced q p b = { r with
      common := { (r.common.accounted q r.common.W).afterReset with count := 258 }
      table := Store.seed.write 257 (q ++ [b])
      val := some p, bitpos := r.bitpos + 9, readW := some 9 } := rfl

/-- DEC.STEP on a 9-bit literal, saturated in mode FullReset (rules R136, R139, R172 to R179). -/
theorem decStepBody_fullReset {s : State} {r : DecRegs} {o : ByteSink} {q : Bytes} (b : Byte) (h : LoopReady s r o q)
    (hsat : r.common.count = 65536) (hmode : r.common.mode = .fullReset) :
    decStepBody (presentUnit 9 b.toNat) s =
      .go () ((s.written r o q).setDec (((r.writtenReset q).taken 9).advanced q [b] b)) := by
  have hpolicy : decPolicy (s.written r o q) = .go () ((s.written r o q).setDec (r.writtenReset q)) :=
    decPolicy_fullReset (r := { r with common := r.common.accounted q r.common.W }) rfl hsat hmode
  have hread : presentUnit 9 b.toNat ((s.written r o q).setDec (r.writtenReset q)) =
      .go (some b.toNat) ((s.written r o q).setDec ((r.writtenReset q).taken 9)) :=
    presentUnit_regs (r := r.writtenReset q) b.toNat rfl
  have hlit : b.toNat < 256 := b.isLt
  have hcount : b.toNat < ((r.writtenReset q).taken 9).common.count := Nat.lt_trans hlit (by decide : 256 < 257)
  have hfits : seqFits s.params.seqMax [b] = true := h.unbounded.2 ▸ seqFits_none _
  have hregs := State.setDec_regs ((r.writtenReset q).taken 9) (s.written r o q)
  have hresolve : decResolve b.toNat ((s.written r o q).setDec ((r.writtenReset q).taken 9)) =
      .go [b] ((s.written r o q).setDec ((r.writtenReset q).taken 9)) :=
    decResolve_assigned hregs hcount (by omega) (Store.inv_seed.literal b) hfits
  simp only [decStepBody, decOutput_ready h, hpolicy, Run.bind_go, decRead_of_codeword hread hlit.ne, hresolve]
  rw [decInsert_grow_advance hregs h.val h.unbounded.2 fun _ => (by decide : 257 < 65536), State.setDec_setDec]

/-! ### The Encoder -/

/-- The state after ENC.EMIT, where the counters are unbounded (rule R153). -/
def State.emitted (s : State) (r : EncRegs) (o : BitSink) (q : Bytes) (c : Nat) : State :=
  { s with enc := { s.enc with
    out := some { o with bits := o.bits ++ natBits r.common.W c }
    regs := some { r with common := r.common.accounted q r.common.W } } }

theorem encEmit_ready {s : State} {r : EncRegs} {o : BitSink} {c : Nat} (q : Bytes) (h : EncReady s r o)
    (hW : 1 ≤ r.common.W ∧ r.common.W ≤ 16) (hc : c < 2 ^ r.common.W) :
    encEmit q c s = .go () (s.emitted r o q c) := by
  obtain ⟨-, hr, ho, hopen, ⟨hcnt, -⟩⟩ := h
  simp only [encEmit, readEnc_some hr, Run.bind_go, putBits_open ho hopen hW hc]
  exact accountBits_enc _ _ hr hcnt

theorem encPolicy_fullReset {s : State} {r : EncRegs} (hr : s.enc.regs = some r) (hsat : r.common.count = 65536)
    (hmode : r.common.mode = .fullReset) :
    encPolicy s = .go () (s.setEnc { r with common := r.common.afterReset, dict := Store.seed }) := by
  rw [encPolicy, applyPolicy_enc_regs hr, evalPolicy_fullReset _ hsat hmode]
  rfl

/-- Where a byte follows `q` in the input, the entry is one byte longer than `q` (rule R155). -/
theorem length_insertKey {r : EncRegs} {q : Bytes} (h : r.pos + q.length < r.inp.length) :
    (insertKey q r).length = q.length + 1 := by
  rw [insertKey, List.length_take, List.length_drop]
  omega

section
variable {s : State} {r : EncRegs} (hr : s.enc.regs = some r)
include hr

theorem encInsert_below {q : Bytes} (hroom : r.pos + q.length < r.inp.length ∧ r.common.count < r.common.L)
    (hcan : r.CanInsert q) (hmax : s.params.seqMax = none) :
    encInsert q s = .go () (s.setEnc { r with
      dict := r.dict.write r.common.count ((r.inp.drop r.pos).take (q.length + 1))
      common := { r.common with count := r.common.count + 1 } }) := by
  obtain ⟨hcode, hread, hcodeOf⟩ := hcan hroom
  have hkey : insertKey q r ≠ [] := List.ne_nil_of_length_eq_add_one (length_insertKey hroom.1)
  have hfits : seqFits s.params.seqMax (insertKey q r) = true := hmax ▸ seqFits_none _
  simp only [encInsert, readEnc_some hr, Run.bind_go, if_pos hroom, dictInsert_new hr hkey hcode hcodeOf hread hfits,
    writeCommon_enc (State.setEnc_regs _ _), State.setEnc_setEnc]
  rfl

theorem encInsert_nothing {q : Bytes} (h : ¬ (r.pos + q.length < r.inp.length ∧ r.common.count < r.common.L)) :
    encInsert q s = .go () s := by
  simp only [encInsert, readEnc_some hr, Run.bind_go, if_neg h]

theorem encAdvance_regs (q : Bytes) : encAdvance q s = .go () (s.setEnc { r with pos := r.pos + q.length }) := by
  simp only [encAdvance, readEnc_some hr, Run.bind_go]

/-- Sub-steps 4 to 6 on the sequence found (rules R155 to R157). -/
theorem encInsert_grow_advance {q : Bytes} (hcan : r.CanInsert q) (hmax : s.params.seqMax = none) :
    ((encInsert q s).bind fun _ s => (encGrow s).bind fun _ s => encAdvance q s) =
      .go () (s.setEnc (r.advanced q)) := by
  have growAdvance {t : State} {u : EncRegs} (hu : t.enc.regs = some u) :
      ((encGrow t).bind fun _ s => encAdvance q s) =
        .go () (t.setEnc { u with common := u.common.encGrown, pos := u.pos + q.length }) := by
    simp only [encGrow, growIfReached_enc_regs hu, Run.bind_go, encAdvance_regs (State.setEnc_regs _ _),
      State.setEnc_setEnc]
  by_cases hroom : r.pos + q.length < r.inp.length ∧ r.common.count < r.common.L
  · rw [encInsert_below hr hroom hcan hmax, Run.bind_go, growAdvance (State.setEnc_regs _ _), State.setEnc_setEnc,
      EncRegs.advanced, if_pos hroom]
  · rw [encInsert_nothing hr hroom, Run.bind_go, growAdvance hr, EncRegs.advanced, if_neg hroom]

end

/-- The Encoder's registers after ENC.POLICY reset the dictionary (rules R139, R153, R154). -/
def EncRegs.emittedReset (r : EncRegs) (q : Bytes) : EncRegs :=
  { r with common := (r.common.accounted q r.common.W).afterReset, dict := Store.seed }

/-- After a reset any entry of two bytes or more can be inserted (rules R63, R155). -/
theorem EncRegs.canInsert_emittedReset (r : EncRegs) {q : Bytes} (hq : q ≠ []) : (r.emittedReset q).CanInsert q := by
  rintro ⟨hnext : r.pos + q.length < r.inp.length, -⟩
  have hpos := List.length_pos_iff.2 hq
  have hkey : 2 ≤ (insertKey q r).length := by rw [length_insertKey hnext]; omega
  exact ⟨(by decide : 257 < 65536), Store.read_seed 257, Store.codeOf_seed_of_two_le hkey⟩

/-- The first entry after the seed leaves the width alone (rules R155, R156). -/
theorem EncRegs.advanced_emittedReset (r : EncRegs) (q : Bytes) :
    (r.emittedReset q).advanced q =
      if r.pos + q.length < r.inp.length then
        { r with
          common := { (r.common.accounted q r.common.W).afterReset with count := 258 }
          dict := Store.seed.write 257 ((r.inp.drop r.pos).take (q.length + 1))
          pos := r.pos + q.length }
      else { r with
        common := (r.common.accounted q r.common.W).afterReset, dict := Store.seed, pos := r.pos + q.length } := by
  by_cases hnext : r.pos + q.length < r.inp.length
  · rw [if_pos hnext]
    exact if_pos ⟨hnext, (by decide : 257 < 512)⟩
  · rw [if_neg hnext]
    exact if_neg fun hroom => hnext hroom.1

/-- ENC.STEP saturated in mode FullReset (rules R136, R139, R151 to R157). -/
theorem encStepBody_fullReset {s : State} {r : EncRegs} {o : BitSink} {q : Bytes} {c : Nat} (h : EncReady s r o)
    (hsat : r.common.count = 65536) (hmode : r.common.mode = .fullReset)
    (hmatch : r.dict.longestMatch (r.inp.drop r.pos) = some (q, c)) (hW : 1 ≤ r.common.W ∧ r.common.W ≤ 16)
    (hc : c < 2 ^ r.common.W) :
    encStepBody s = .go () ((s.emitted r o q c).setEnc ((r.emittedReset q).advanced q)) := by
  have hq : q ≠ [] := (Store.longestMatch_sound hmatch).2.1
  have hfits : seqFits s.params.seqMax q = true := h.unbounded.2 ▸ seqFits_none _
  have hlookup : encLookup s = .go (q, c) s := encLookup_eq_go.2 ⟨rfl, hfits, r, h.regs, hmatch⟩
  have hpolicy : encPolicy (s.emitted r o q c) = .go () ((s.emitted r o q c).setEnc (r.emittedReset q)) :=
    encPolicy_fullReset (r := { r with common := r.common.accounted q r.common.W }) rfl hsat hmode
  have hregs := State.setEnc_regs (r.emittedReset q) (s.emitted r o q c)
  simp only [encStepBody, hlookup, Run.bind_go, encEmit_ready q h hW hc, hpolicy]
  rw [encInsert_grow_advance hregs (r.canInsert_emittedReset hq) h.unbounded.2, State.setEnc_setEnc]

/-- Settles O37: after the reset the remaining sub-steps add the first entry of the seed dictionary. -/
theorem fullResetStepCarriesTheEntry : Obligations.FullResetStepCarriesTheEntry := by
  refine ⟨fun s r o q b h hmode hsat => ?dec, fun s r o q c h hpos hmode hsat hmatch h1 h16 hc => ?enc⟩
  case dec =>
    rw [← DecRegs.advanced_writtenReset]
    simp only [exec, execLitW9, runCodeword, decUnit_loop h.phase, decStepBody_fullReset b h hsat hmode, Run.outcome_go]
    rfl
  case enc =>
    rw [← EncRegs.advanced_emittedReset]
    simp only [exec, execEncStep, running_enc_iff.2 h.phase, readEnc_some h.regs, Run.bind_go, decide_eq_true hpos,
      whenEnabled_true, encStepBody_fullReset h hsat hmode hmatch ⟨h1, h16⟩ hc, Run.outcome_go]
    rfl

end Sys2Proof.Machine

/-! ## Proofs: ENC.STEP and its sub-steps, ENC.FINISH (EncStepEmitsTheLongestPrefix, EncFinishWritesEofAndPads,
EncInsertGrowAdvance, EncEmitPutsAndAccounts) -/

namespace Sys2Proof.Machine

section
variable {s : State} {r : EncRegs} (hp : s.enc.phase = .step) (hr : s.enc.regs = some r)
include hp hr

/-- ENC.STEP is enabled while input remains (rules R21, R151). -/
theorem execEncStep_of_input_left (hpos : r.pos < r.inp.length) : execEncStep s = (encStepBody s).outcome := by
  simp only [execEncStep, running_enc_iff.2 hp, whenEnabled_true, readEnc_some hr, Run.bind_go, decide_eq_true hpos]

/-- ENC.FINISH is enabled when no input remains (rules R21, R158). -/
theorem execEncFinish_of_no_input_left (hpos : r.pos = r.inp.length) :
    execEncFinish s = (encFinishBody s).outcome := by
  simp only [execEncFinish, running_enc_iff.2 hp, whenEnabled_true, readEnc_some hr, Run.bind_go, decide_eq_true hpos]

end

/-- Where the policy is quiet ENC.POLICY does nothing (rules R134, R135, R154). -/
theorem encPolicy_quiet {s : State} {r : EncRegs} (hr : s.enc.regs = some r) (h : QuietPolicy r.common) :
    encPolicy s = .go () s := by
  rw [encPolicy, applyPolicy_enc_regs hr, evalPolicy_quiet _ h]
  exact congrArg (Run.go ()) (State.setEnc_same hr)

/-- ENC.STEP where the policy is quiet (rules R151 to R157). -/
theorem encStepBody_quiet {s : State} {r : EncRegs} {o : BitSink} {q : Bytes} {c : Nat} (h : EncReady s r o)
    (hquiet : QuietPolicy r.common) (hmatch : r.dict.longestMatch (r.inp.drop r.pos) = some (q, c))
    (hW : 1 ≤ r.common.W ∧ r.common.W ≤ 16) (hc : c < 2 ^ r.common.W) (hcan : r.CanInsert q) :
    encStepBody s = .go () ((s.emitted r o q c).setEnc
      ({ r with common := r.common.accounted q r.common.W }.advanced q)) := by
  have hfits : seqFits s.params.seqMax q = true := h.unbounded.2 ▸ seqFits_none _
  have hlookup : encLookup s = .go (q, c) s := encLookup_eq_go.2 ⟨rfl, hfits, r, h.regs, hmatch⟩
  have hpolicy : encPolicy (s.emitted r o q c) = .go () (s.emitted r o q c) := encPolicy_quiet rfl hquiet
  simp only [encStepBody, hlookup, Run.bind_go, encEmit_ready q h hW hc, hpolicy]
  exact encInsert_grow_advance rfl hcan h.unbounded.2

/-- ENC.FINISH on an open sink (rules R74, R93, R158). -/
theorem encFinishBody_open {s : State} {r : EncRegs} {o : BitSink} (hr : s.enc.regs = some r) (ho : s.enc.out = some o)
    (hopen : o.closed = false) (hW : 9 ≤ r.common.W ∧ r.common.W ≤ 16) :
    encFinishBody s = .go () { s with enc := { s.enc with
      phase := .done, out := some (BitSink.close { o with bits := o.bits ++ natBits r.common.W 256 }) } } := by
  have heof : 256 < 2 ^ r.common.W :=
    calc 256 < 2 ^ 9 := by decide
      _ ≤ 2 ^ r.common.W := Nat.pow_le_pow_right (by decide) hW.1
  simp only [encFinishBody, readEnc_some hr, Run.bind_go]
  rw [Config.eofCode, putBits_open ho hopen ⟨by omega, hW.2⟩ heof, Run.bind_go, closeSink_enc rfl]
  rfl

/-- Settles O44: the quiet policy leaves the six sub-steps to their rules. -/
theorem encStepEmitsTheLongestPrefix : Obligations.EncStepEmitsTheLongestPrefix := by
  intro s r o q c h hpos hquiet hmatch h1 h16 hc hcan
  rw [exec, execEncStep_of_input_left h.phase h.regs hpos, encStepBody_quiet h hquiet hmatch ⟨h1, h16⟩ hc hcan]
  rfl

/-- Settles O45, with the pad that Close appends. -/
theorem encFinishWritesEofAndPads : Obligations.EncFinishWritesEofAndPads := by
  intro s r o h hpos h9 h16 bits
  refine ⟨padBits bits.length, fun _ => eq_false_of_mem_padBits, padBits_length_lt _, ?_, ?_⟩
  · rw [List.length_append]; exact dvd_length_padBits _
  · rw [exec, execEncFinish_of_no_input_left h.phase h.regs hpos, encFinishBody_open h.regs h.out h.isOpen ⟨h9, h16⟩]
    rfl

/-- Settles O47: the operand is within an unbounded `SEQ_MAX`, and the sub-step emits. -/
theorem encEmitPutsAndAccounts : Obligations.EncEmitPutsAndAccounts := by
  intro s r o q c h h1 h16 hc
  have hfits : seqFits s.params.seqMax q = true := h.unbounded.2 ▸ seqFits_none _
  simp only [exec, execEncEmit, running_enc_iff.2 h.phase, whenEnabled_true, givenSeq_fits hfits,
    encEmit_ready q h ⟨h1, h16⟩ hc, Run.outcome_go]
  rfl

/-- Settles O48, each sub-step by its rule on the registers. -/
theorem encInsertGrowAdvance : Obligations.EncInsertGrowAdvance := by
  intro s r q hp hr ⟨_, hmax⟩
  have hrun := running_enc_iff.2 hp
  have hfits : seqFits s.params.seqMax q = true := hmax ▸ seqFits_none _
  refine ⟨fun hnext hroom hcan => ?insert, fun h => ?nothing, ?grow, ?advance⟩
  case insert =>
    simp only [exec, execEncInsert, hrun, whenEnabled_true, givenSeq_fits hfits,
      encInsert_below hr ⟨hnext, hroom⟩ hcan hmax, Run.outcome_go]
  case nothing =>
    have hnone : ¬ (r.pos + q.length < r.inp.length ∧ r.common.count < r.common.L) := by omega
    simp only [exec, execEncInsert, hrun, whenEnabled_true, givenSeq_fits hfits, encInsert_nothing hr hnone,
      Run.outcome_go]
  case grow => simp only [exec, execEncGrow, hrun, whenEnabled_true, encGrow, growIfReached_enc_regs hr, Run.outcome_go]
  case advance =>
    simp only [exec, execEncAdvance, hrun, whenEnabled_true, givenSeq_fits hfits, encAdvance_regs hr, Run.outcome_go]

end Sys2Proof.Machine

/-! ## Proofs: from a state that meets the invariant no step stops (NoStepStopsUnderInvariant)

The dictionary holds every literal, so a longest match exists; its codeword fits the width, since the count is within the
capacity; the match with one more byte is a new key, since the match was longest. The table holds every codeword that
DEC.RESOLVE reads, and the phases of a step hold an open sink. -/

namespace Sys2Proof.Machine

/-! ### What the invariant gives the operations -/

/-- A codeword that stands for a sequence is below the count (rule R48). -/
theorem Store.Inv.code_lt {t : Store} {n c : Nat} {q : Bytes} (h : t.Inv n) (hn : 257 ≤ n) (hread : t.read c = some q) :
    c < n := by
  have hassigned := (h.assigned c).1 (hread ▸ Option.some_ne_none q)
  omega

/-- A codeword below the count, other than 256, stands for a sequence (rule R48). -/
theorem Store.Inv.read_of_lt {t : Store} {n c : Nat} (h : t.Inv n) (hc : c < n) (heof : c ≠ 256) :
    ∃ q, t.read c = some q :=
  Option.ne_none_iff_exists'.1 ((h.assigned c).2 (by omega))

/-- The codeword at the count stands for no sequence yet (rule R48). -/
theorem Store.Inv.read_next {t : Store} {n : Nat} (h : t.Inv n) (hn : 257 ≤ n) : t.read n = none := by
  by_contra hne
  have hassigned := (h.assigned n).1 hne
  omega

/-- The literals make a match for every sequence that is not empty (rules R62, R160). -/
theorem Store.Inv.exists_longestMatch {t : Store} {n : Nat} {rest : Bytes} (h : t.Inv n) (hrest : rest ≠ []) :
    ∃ q c, t.longestMatch rest = some (q, c) := by
  obtain ⟨b, tail, rfl⟩ := List.exists_cons_of_ne_nil hrest
  obtain ⟨q, c, hmatch, -⟩ := Store.longestMatch_max (Store.mem_of_read (h.literal b)) (List.cons_ne_nil _ _)
    (List.prefix_append [b] tail)
  exact ⟨q, c, hmatch⟩

/-- The longest match with one more byte is no key (rules R62, R63). -/
theorem Store.codeOf_longer_than_match {t : Store} {rest q : Bytes} {c : Nat} (h : t.longestMatch rest = some (q, c))
    (hlen : q.length < rest.length) : t.codeOf (rest.take (q.length + 1)) = none := by
  have hkey : (rest.take (q.length + 1)).length = q.length + 1 := by rw [List.length_take]; omega
  refine Store.codeOf_eq_none.2 fun d hmem => ?_
  obtain ⟨q', c', hmatch, hle⟩ :=
    Store.longestMatch_max hmem (List.ne_nil_of_length_eq_add_one hkey) (List.take_prefix _ _)
  cases h.symm.trans hmatch
  omega

/-- RP.EVAL answers: where it compares, the baseline is there (rules R134 to R138). -/
theorem Common.Inv.evalPolicy_answers {c : Common} (h : c.Inv) (t : RatioTest) :
    ∃ fire d, evalPolicy t c = some (fire, d) := by
  by_cases hsat : c.count = 65536
  case neg => exact ⟨_, _, evalPolicy_unsaturated t hsat⟩
  case pos =>
    cases hmode : c.mode with
    | none => exact ⟨_, _, evalPolicy_quiet t (.inr hmode)⟩
    | fullReset => exact ⟨_, _, evalPolicy_fullReset t hsat hmode⟩
    | ratioMonitored =>
      rw [evalPolicy_ratioMonitored t hsat hmode]
      cases hset : c.ratioSet with
      | false => exact ⟨_, _, evalRatio_baseline t hset⟩
      | true =>
        obtain ⟨b, hb⟩ := Option.ne_none_iff_exists'.1 (h.baseline hset).2.2
        exact ⟨_, _, evalRatio_compare t hset hb⟩

/-- In the middle of a step a new key can be inserted (rules R63, R155). -/
theorem EncRegs.Mid.canInsert {r : EncRegs} {q : Bytes} {k bits : Nat} (h : r.Mid q k bits)
    (hnew : r.pos + q.length < r.inp.length → r.dict.codeOf (insertKey q r) = none) : r.CanInsert q := by
  rintro ⟨hnext, hroom⟩
  exact ⟨hroom.trans_le h.common.capacity_le, h.dict.read_next h.common.seeded, hnew hnext⟩

/-! ### Operations that answer a next state -/

/-- The operation does not stop the model: it goes on or ends the step. -/
def Run.Answers {α : Type} (m : Run α) : Prop := ∃ t, m.outcome = .next t

section
variable {α β : Type} {m : Run α} {k : α → State → Run β}

theorem Run.answers_of_go {a : α} {t : State} (h : m = .go a t) : m.Answers := ⟨t, by rw [h, Run.outcome_go]⟩

theorem Run.answers_of_ended {t : State} (h : m = .ended t) : m.Answers := ⟨t, by rw [h, Run.outcome_ended]⟩

/-- A sequence answers where its first part does, and its second part does after each way the first goes on. -/
theorem Run.Answers.bind (hm : m.Answers) (hk : ∀ a t, m = .go a t → (k a t).Answers) : (m.bind k).Answers := by
  obtain ⟨t, ht⟩ := hm
  rcases Run.outcome_eq_next.1 ht with ⟨a, rfl⟩ | rfl
  · exact hk a t rfl
  · exact Run.answers_of_ended rfl

theorem Run.Ensures.of_go {E : State → Prop} {P : α → State → Prop} {a : α} {t : State} (h : m.Ensures E P)
    (hgo : m = .go a t) : P a t := by
  subst hgo; exact h

end

/-! ### The Encoder -/

/-- ENC.EMIT on an open sink, whatever the size of the counters (rules R131, R153, R205). -/
theorem encEmit_answers {s : State} {r : EncRegs} {o : BitSink} {c : Nat} (q : Bytes) (hr : s.enc.regs = some r)
    (ho : s.enc.out = some o) (hopen : o.closed = false) (hW : 1 ≤ r.common.W ∧ r.common.W ≤ 16)
    (hc : c < 2 ^ r.common.W) :
    (∃ t, encEmit q c s = .ended t) ∨ encEmit q c s = .go () (s.emitted r o q c) := by
  simp only [encEmit, readEnc_some hr, Run.bind_go, putBits_open ho hopen hW hc]
  rw [accountBits_enc_regs (r := r)]
  case h => exact hr
  split
  · exact .inl ⟨_, rfl⟩
  · exact .inr rfl

/-- What is left of an ENC.STEP that found and accounted `q` (rules R154 to R157). -/
theorem encPolicy_insert_grow_advance_answers {s : State} {r : EncRegs} {q : Bytes} {c bits : Nat}
    (hr : s.enc.regs = some r) (hmid : r.Mid q 1 bits) (hmatch : r.dict.longestMatch (r.inp.drop r.pos) = some (q, c))
    (hmax : s.params.seqMax = none) :
    ((encPolicy s).bind fun _ s => (encInsert q s).bind fun _ s => (encGrow s).bind fun _ s =>
      encAdvance q s).Answers := by
  have hq := List.length_pos_iff.2 (Store.longestMatch_sound hmatch).2.1
  obtain ⟨fire, c', heval⟩ := hmid.common.evalPolicy_answers s.params.ratio
  have hnew (hnext : r.pos + q.length < r.inp.length) :
      (if fire then Store.seed else r.dict).codeOf (insertKey q r) = none := by
    cases fire with
    | true => exact Store.codeOf_seed_of_two_le (by rw [length_insertKey hnext]; omega)
    | false => exact Store.codeOf_longer_than_match hmatch (by rw [List.length_drop]; omega)
  simp only [encPolicy, applyPolicy_enc_regs hr, heval, Run.bind_go]
  exact Run.answers_of_go (encInsert_grow_advance (State.setEnc_regs _ _) ((hmid.policy heval).canInsert hnew) hmax)

section
variable {s : State} {r : EncRegs} (h : s.enc.Mid [] 1) (hr : s.enc.regs = some r)
include h hr

/-- ENC.STEP finds a match, whose codeword fits the width (rules R160, R163). -/
theorem encStepBody_answers (hmax : s.params.seqMax = none) (hpos : r.pos < r.inp.length) : (encStepBody s).Answers := by
  obtain ⟨-, -, r', o, hr', ho, hopen, hmid⟩ := h
  cases hr.symm.trans hr'
  have hwidth := hmid.common.width
  have hrest : r.inp.drop r.pos ≠ [] := by rwa [ne_eq, List.drop_eq_nil_iff, not_le]
  obtain ⟨q, c, hmatch⟩ := hmid.dict.exists_longestMatch hrest
  obtain ⟨hmem, -, hprefix⟩ := Store.longestMatch_sound hmatch
  have hlen : q.length ≤ r.inp.length - r.pos := List.length_drop ▸ hprefix.length_le
  have hlookup : encLookup s = .go (q, c) s := encLookup_eq_go.2 ⟨rfl, hmax ▸ seqFits_none q, r, hr, hmatch⟩
  have hcode : c < 2 ^ r.common.W :=
    calc c < r.common.count := hmid.dict.code_lt hmid.common.seeded (Store.read_of_mem hmid.dict.canonical hmem)
      _ ≤ r.common.L := hmid.common.bounded
      _ = 2 ^ r.common.W := hmid.common.capacity
  rw [encStepBody, hlookup, Run.bind_go]
  rcases encEmit_answers q hr ho hopen ⟨by omega, hwidth.2⟩ hcode with ⟨t, hemit⟩ | hemit
  · rw [hemit]; exact Run.answers_of_ended rfl
  · rw [hemit]
    exact encPolicy_insert_grow_advance_answers rfl (hmid.emit (by omega)) hmatch hmax

/-- ENC.FINISH finds an open sink and a width that holds 256 (rules R158, R46). -/
theorem encFinishBody_answers : (encFinishBody s).Answers := by
  obtain ⟨-, -, r', o, hr', ho, hopen, hmid⟩ := h
  cases hr.symm.trans hr'
  exact Run.answers_of_go (encFinishBody_open hr ho hopen hmid.common.width)

end

/-- A command to the Encoder is taken in every state (rules R104, R109, R150). -/
theorem encCommand_answers (m : BitVec 2) (s : State) : ∃ t, encCommand m s = .next t := by
  cases hrun : s.running .enc with
  | true => exact ⟨s, encCommand_of_running m hrun⟩
  | false =>
    rw [(encCommand_of_not_running m hrun).1]
    cases hmode : modeOfNumber m.toNat with
    | none => exact Run.answers_of_ended (encStart_illegal hmode s)
    | some mode => exact Run.answers_of_go (encStart_legal hmode s)

/-! ### The Decoder -/

section
variable {s : State}

/-- Reading a unit at a width of the block (rule R73). -/
theorem readUnit_answers {r : DecRegs} (hr : s.dec.regs = some r) (hW : 1 ≤ r.common.W ∧ r.common.W ≤ 16) :
    (readUnit s).Answers := by
  rw [readUnit_regs hr hW]
  cases peekBits r.src r.bitpos r.common.W with
  | none => exact Run.answers_of_go rfl
  | some v => exact Run.answers_of_go rfl

theorem raisePremature_answers {α : Type} {r : DecRegs} (hr : s.dec.regs = some r) :
    (raisePremature s : Run α).Answers := by
  rw [raisePremature, readDec_some hr]
  exact Run.answers_of_ended rfl

theorem decFinishBody_answers {o : ByteSink} (ho : s.dec.out = some o) : (decFinishBody s).Answers := by
  rw [decFinishBody, closeSink_dec ho]
  exact Run.answers_of_go rfl

/-- DEC.FIRST finds every literal in the seed table (rules R171, R182). -/
theorem decFirstBody_answers (hp : s.dec.phase = .first) (h : s.dec.Inv) (hmax : s.params.seqMax = none) :
    (decFirstBody readUnit s).Answers := by
  simp only [Decoder.Inv, hp] at h
  obtain ⟨-, r, hr, ho, hinv, -, -, -⟩ := h
  have hwidth := hinv.common.width
  simp only [decFirstBody, readUnit_regs hr ⟨by omega, hwidth.2⟩]
  cases peekBits r.src r.bitpos r.common.W with
  | none => exact raisePremature_answers hr
  | some cw =>
    simp only [Run.bind_go]
    split
    · exact decFinishBody_answers ho
    · split
      · exact Run.answers_of_ended rfl
      · rename_i hne hle
        have heof : cw ≠ 256 ∧ ¬ 256 < cw := ⟨hne, hle⟩
        have hseeded := hinv.common.seeded
        obtain ⟨q, hq⟩ := hinv.table.read_of_lt (c := cw) (by omega) heof.1
        have hfits : seqFits s.params.seqMax q = true := hmax ▸ seqFits_none q
        simp only [tableRead_of_read (State.setDec_regs (consumeUnit r.common.W r) s) (by omega) hq, Run.bind_go,
          holdSeq_fits (s := s.setDec (consumeUnit r.common.W r)) hfits, readDec_setDec]
        exact Run.answers_of_go rfl

/-- The width that DEC.OUTPUT accounts is there, whichever it is (rules R12, R173). -/
theorem DecRegs.HoldsVal.accountWidth {r : DecRegs} (h : r.HoldsVal) (p : Params) :
    ∃ w, Machine.accountWidth p r = some w := by
  obtain ⟨-, w, hw, -⟩ := h
  unfold Machine.accountWidth
  cases p.decAccountWidth with
  | current => exact ⟨_, rfl⟩
  | asRead => exact ⟨w, hw⟩

theorem decOutput_answers (h : s.dec.Mid 2) : (decOutput s).Answers := by
  obtain ⟨-, -, r, o, hr, ho, hopen, -, hholds⟩ := h
  obtain ⟨w, hw⟩ := hholds.accountWidth s.params
  obtain ⟨⟨q, hq, -⟩, -⟩ := hholds
  simp only [decOutput, readDec_some hr, Run.bind_go, hq, hw, writeBytes_open q ho hopen]
  rw [accountBits_dec_regs (r := r)]
  case h => exact hr
  split
  · exact Run.answers_of_ended rfl
  · exact Run.answers_of_go rfl

theorem decPolicy_answers (h : s.dec.Mid 2) : (decPolicy s).Answers := by
  obtain ⟨-, -, r, _, hr, -, -, hmid, -⟩ := h
  obtain ⟨fire, c, heval⟩ := hmid.common.evalPolicy_answers s.params.ratio
  rw [decPolicy, applyPolicy_dec_regs hr, heval]
  exact Run.answers_of_go rfl

theorem decRead_answers (h : s.dec.Mid 2) : (decRead readUnit s).Answers := by
  obtain ⟨-, -, r, o, hr, ho, -, hmid, -⟩ := h
  have hwidth := hmid.common.width
  simp only [decRead, readUnit_regs hr ⟨by omega, hwidth.2⟩]
  cases peekBits r.src r.bitpos r.common.W with
  | none => exact raisePremature_answers hr
  | some cw =>
    simp only [Run.bind_go]
    split
    · exact Run.Answers.bind (decFinishBody_answers ho) fun _ t _ => Run.answers_of_ended (t := t) rfl
    · exact Run.answers_of_go rfl

/-- DEC.READ goes on with no EOF codeword (rule R175). -/
theorem decRead_ne_eof {rd : State → Run (Option Nat)} {t : State} {cw : Nat} (h : decRead rd s = .go cw t) :
    cw ≠ 256 := by
  obtain ⟨v, u, -, h⟩ := Run.bind_eq_go.1 h
  cases v with
  | none =>
    obtain ⟨r, u', -, h⟩ := Run.bind_eq_go.1 h
    cases h
  | some c =>
    dsimp only at h
    split at h
    · obtain ⟨_, _, -, h⟩ := Run.bind_eq_go.1 h
      cases h
    · rename_i hne; cases h; exact hne

/-- DEC.RESOLVE on a codeword other than EOF: above the count it raises, and what it reads is there (rules R176, R182). -/
theorem decResolve_answers {cw : Nat} (h : s.dec.Mid 2) (hmax : s.params.seqMax = none) (hcw : cw ≠ 256) :
    (decResolve cw s).Answers := by
  obtain ⟨-, -, r, _, hr, -, -, hmid, ⟨q, hval, hq⟩, -⟩ := h
  have hfits (q : Bytes) : seqFits s.params.seqMax q = true := hmax ▸ seqFits_none q
  rcases lt_trichotomy cw r.common.count with hlt | heq | hgt
  · obtain ⟨p, hp⟩ := hmid.table.read_of_lt hlt hcw
    have hcode : cw < 65536 := hlt.trans_le (hmid.common.bounded.trans hmid.common.capacity_le)
    exact Run.answers_of_go (decResolve_assigned hr hlt hcode hp (hfits p))
  · obtain ⟨f, p, rfl⟩ := List.exists_cons_of_ne_nil hq
    exact Run.answers_of_go (decResolve_kwkwk hr heq hval (hfits _))
  · exact Run.answers_of_ended (decResolve_above hr hgt)

/-- Sub-steps e to g on a resolved sequence (rules R177 to R179). -/
theorem decInsert_grow_advance_answers {p : Bytes} (h : s.dec.Mid 2) (hmax : s.params.seqMax = none) (hp : p ≠ []) :
    ((decInsert p s).bind fun _ s => (decGrow s).bind fun _ s => decAdvance p s).Answers := by
  obtain ⟨-, -, r, _, hr, -, -, hmid, ⟨q, hval, -⟩, -⟩ := h
  obtain ⟨f, p, rfl⟩ := List.exists_cons_of_ne_nil hp
  exact Run.answers_of_go (decInsert_grow_advance hr hval hmax fun hroom => hroom.trans_le hmid.common.capacity_le)

/-- DEC.STEP, sub-step by sub-step: each keeps what the next needs (rules R172, R182). -/
theorem decStepBody_answers (h : s.dec.Mid 2) (hmax : s.params.seqMax = none) : (decStepBody readUnit s).Answers := by
  refine (decOutput_answers h).bind fun _ s₁ h₁ => ?_
  have hmid₁ := (decOutput_ensures h).of_go h₁
  refine (decPolicy_answers hmid₁).bind fun _ s₂ h₂ => ?_
  have hmid₂ := (decPolicy_ensures hmid₁).of_go h₂
  refine (decRead_answers hmid₂).bind fun cw s₃ h₃ => ?_
  have hmid₃ := (decRead_ensures hmid₂).of_go h₃
  have hmax₃ : s₃.params.seqMax = none := by
    rw [(decRead_onEngine readUnit_onEngine).go_params h₃, (applyPolicy_onEngine .dec).go_params h₂,
      decOutput_onEngine.go_params h₁, hmax]
  refine (decResolve_answers hmid₃ hmax₃ (decRead_ne_eof h₃)).bind fun p s₄ h₄ => ?_
  obtain ⟨hp, hmid₄⟩ := (decResolve_ensures hmid₃).of_go h₄
  exact decInsert_grow_advance_answers hmid₄ (((decResolve_onEngine cw).go_params h₄).symm ▸ hmax₃) hp

end

/-- A command to the Decoder is taken in every state (rules R104, R109, R170). -/
theorem decCommand_answers (low : BitVec 2) (s : State) : ∃ t, decCommand low s = .next t := by
  cases hrun : s.running .dec with
  | true => exact ⟨s, decCommand_of_running low hrun⟩
  | false =>
    rw [(decCommand_of_not_running low hrun).1]
    by_cases hlow : low = 0
    case neg => exact Run.answers_of_ended (decStart_illegal hlow _ s)
    case pos =>
      subst hlow
      cases headerTag s with
      | none => exact Run.answers_of_ended (decStart_short s)
      | some n =>
        cases hmode : modeOfNumber n with
        | none => exact Run.answers_of_ended (decStart_badTag hmode s)
        | some mode => exact Run.answers_of_go (decStart_legal hmode s)

/-! ### The step -/

/-- What an engine does in its move (rules R109, R217, R219). -/
theorem Moves.safe {s u : State} {x : Engine} (hm : Moves s x u) (h : u.Inv) (hmax : u.params.seqMax = none) :
    s.Safe := by
  obtain ⟨henc, hdec⟩ := h
  cases hrun : u.running x with
  | false => exact ⟨u, step_of_moves_not_running hm hrun⟩
  | true =>
    cases x with
    | enc =>
      have hp := running_enc_iff.1 hrun
      have hmid := (Encoder.inv_iff_mid hp).1 henc
      have ⟨_, _, r, o, hr, _, _, hregs⟩ := hmid
      have hcursor : r.pos ≤ r.inp.length := hregs.cursor
      rcases hcursor.lt_or_eq with hpos | hpos
      · rw [State.Safe, step_of_moves hm (engineInstr_enc_of_input_left hp hr hpos), exec,
          execEncStep_of_input_left hp hr hpos]
        exact encStepBody_answers hmid hr hmax hpos
      · rw [State.Safe, step_of_moves hm (engineInstr_enc_of_no_input_left hp hr hpos.ge), exec,
          execEncFinish_of_no_input_left hp hr hpos]
        exact encFinishBody_answers hmid hr
    | dec =>
      rcases running_dec_iff.1 hrun with hp | hp
      · rw [State.Safe, step_of_moves_first hm hp, exec_firstInstr hp, exec, execDecFirst, hp]
        exact decFirstBody_answers hp hdec hmax
      · rw [State.Safe, step_of_moves_loop hm hp, exec_loopInstr hp, exec, execDecStep, hp]
        exact decStepBody_answers ((Decoder.inv_iff_mid hp).1 hdec) hmax

/-- Settles O4: a command is always taken, and an engine that moves does so by an operation that answers. -/
theorem noStepStopsUnderInvariant : Obligations.NoStepStopsUnderInvariant := by
  intro s h hmax
  cases hh : s.host with
  | nil => exact Moves.safe (.inr ⟨hh, rfl, rfl⟩) h hmax
  | cons e rest =>
    cases e with
    | command cmd input =>
      rw [State.Safe, step_of_command hh rfl, exec_commandInstr]
      rcases exec_decodeCommand cmd with ⟨-, m, hexec⟩ | ⟨-, low, hexec⟩
      · rw [hexec]; exact encCommand_answers m _
      · rw [hexec]; exact decCommand_answers low _
    | turn x => exact Moves.safe (.inl ⟨rest, hh, rfl⟩) h hmax

end Sys2Proof.Machine

/-! ## Proofs: ENC.POLICY and DEC.POLICY (PolicyResetsAtSaturation) -/

namespace Sys2Proof.Machine

/-- A state is known from the state with the returned value written, and the value it had before (log 6). -/
theorem State.eq_of_withRet {u v : State} {a b : Ret} (h : { u with ret := a } = { v with ret := b })
    (hret : u.ret = v.ret) : u = v ∧ a = b := by
  cases u; cases v; cases hret; cases h
  exact ⟨rfl, rfl⟩

/-- The policy is RP.EVAL, and DICT.RESET after it where it returned true (rules R154, R174). -/
theorem RunsWith.applyPolicy_of_rpEval {x : Engine} {s u : State} {c : Common} {put : Common → State} {fire : Bool}
    (h : RunsWith x s c put) (hput : ∀ d, (put d).ret = s.ret ∧ (put d).running x = s.running x)
    (heval : execRpEval x s = .next { u with ret := .flag fire }) (hret : u.ret = s.ret) :
    (applyPolicy x s).outcome = if fire then execDictReset x u else .next u := by
  cases he : evalPolicy s.params.ratio c with
  | none => simp [execRpEval, h.running, runEval, h.read, he] at heval
  | some e =>
    obtain ⟨fired, d⟩ := e
    rw [h.rpEval he, afterEval] at heval
    obtain ⟨rfl, hfire⟩ := State.eq_of_withRet (Host.Outcome.next.inj heval) ((hput d).1.trans hret.symm)
    cases hfire
    have hrun : (put d).running x = true := (hput d).2.trans h.running
    simp only [applyPolicy, runEval, h.read, Run.bind_go, he, h.write]
    cases fired with
    | false => rfl
    | true => simp only [if_true, execDictReset, hrun, whenEnabled_true]

/-- Settles O39: the rules of the quiet policy and of mode FullReset, and the policy as RP.EVAL and DICT.RESET. -/
theorem policyResetsAtSaturation : Obligations.PolicyResetsAtSaturation := by
  refine ⟨fun s r hp hr => ?dec, fun s r hp hr => ?enc⟩
  case dec =>
    have hexec : exec .decPolicy s = (decPolicy s).outcome := by
      simp only [exec, execDecPolicy, hp, decide_true, whenEnabled_true]
    rw [hexec]
    refine ⟨fun hquiet => by rw [decPolicy_quiet hr hquiet, Run.outcome_go],
      fun hsat hmode => by rw [decPolicy_fullReset hr hsat hmode, Run.outcome_go], fun u fire heval hret => ?_⟩
    exact (runsWith_dec (running_dec_iff.2 (.inr hp)) hr).applyPolicy_of_rpEval (fun _ => ⟨rfl, rfl⟩) heval hret
  case enc =>
    have hexec : exec .encPolicy s = (encPolicy s).outcome := by
      simp only [exec, execEncPolicy, running_enc_iff.2 hp, whenEnabled_true]
    rw [hexec]
    refine ⟨fun hquiet => by rw [encPolicy_quiet hr hquiet, Run.outcome_go],
      fun hsat hmode => by rw [encPolicy_fullReset hr hsat hmode, Run.outcome_go], fun u fire heval hret => ?_⟩
    exact (runsWith_enc hp hr).applyPolicy_of_rpEval (fun _ => ⟨rfl, rfl⟩) heval hret

end Sys2Proof.Machine

/-! ## Proofs: ENC.STEP and DEC.STEP are their sub-steps (StepsAreTheirSubSteps)

A sub-step that ends the step leaves an engine that does not run, in which the next sub-step is not enabled; so where the
sub-steps run one after the other as instructions, each of them goes on. None of them writes `ret`. -/

namespace Sys2Proof.Machine

/-- Where the operation goes on it leaves `ret` as it was; where it ends the step, engine `x` no longer runs (rules R45,
R109). -/
def SubStep {α : Type} (x : Engine) (k : State → Run α) : Prop :=
  ∀ s, (k s).Ensures (fun t => t.running x = false) fun _ t => t.ret = s.ret

/-! ### Composition -/

section
variable {α β : Type} {x : Engine}

theorem SubStep.bind {m : State → Run α} {k : α → State → Run β} (hm : SubStep x m) (hk : ∀ a, SubStep x (k a)) :
    SubStep x fun s => (m s).bind (k · ·) := fun s =>
  (hm s).bind fun a t ht => ht ▸ hk a t

theorem SubStep.ite {p : Prop} [Decidable p] {k l : State → Run α} (hk : SubStep x k) (hl : SubStep x l) :
    SubStep x fun s => if p then k s else l s := by
  by_cases h : p
  · simpa only [h, if_true] using hk
  · simpa only [h, if_false] using hl

theorem SubStep.go (a : α) : SubStep x fun s => Run.go a s := fun _ => rfl

theorem SubStep.fault (e : Fault) : SubStep x fun _ => (Run.fault e : Run α) := fun _ => trivial

theorem SubStep.raise (code : FaultCode) (info : Option Nat) : SubStep x (raiseFault x code info : State → Run α) :=
  fun _ => by cases x <;> rfl

theorem SubStep.goes_on {k : State → Run Unit} (hk : SubStep x k) {s t : State} (h : (k s).outcome = .next t)
    (hrun : t.running x = true) : k s = .go () t := by
  rcases Run.outcome_eq_next.1 h with ⟨_, hgo⟩ | hended
  · exact hgo
  · have hstopped := hk s
    rw [hended] at hstopped
    cases hrun.symm.trans hstopped

theorem SubStep.goes_on_ret {k : State → Run α} {f : α → Ret} (hk : SubStep x k) {s t : State} {v : Ret}
    (h : (k s).outcomeRet f = .next { t with ret := v }) (hrun : t.running x = true) (hret : t.ret = s.ret) :
    ∃ a, k s = .go a t ∧ v = f a := by
  have hk := hk s
  rcases Run.outcomeRet_eq_next.1 h with ⟨a, u, hgo, hu⟩ | hended
  · rw [hgo] at hk
    obtain ⟨rfl, hv⟩ := State.eq_of_withRet hu (hret.trans hk.symm)
    exact ⟨a, hgo, hv⟩
  · rw [hended] at hk
    have hstopped : t.running x = false := by cases x <;> exact hk
    cases hrun.symm.trans hstopped

end

/-! ### The shared operations -/

section
variable (x y : Engine)

theorem readEnc_subStep : SubStep x readEnc := fun s =>
  Run.ensures_of_go (fun _ _ h => by rw [(readEnc_eq_go.1 h).2]) fun _ => readEnc_ne_ended

theorem readDec_subStep : SubStep x readDec := fun s =>
  Run.ensures_of_go (fun _ _ h => by rw [(readDec_eq_go.1 h).2]) fun _ => readDec_ne_ended

theorem setEnc_subStep {α : Type} (a : α) (r : EncRegs) : SubStep x fun s => Run.go a (s.setEnc r) := fun _ => rfl

theorem setDec_subStep {α : Type} (a : α) (r : DecRegs) : SubStep x fun s => Run.go a (s.setDec r) := fun _ => rfl

theorem readCommon_subStep : SubStep x (readCommon y) := by
  cases y with
  | enc => exact (readEnc_subStep x).bind fun _ => SubStep.go _
  | dec => exact (readDec_subStep x).bind fun _ => SubStep.go _

theorem writeCommon_subStep (c : Common) : SubStep x (writeCommon y c) := by
  cases y with
  | enc => exact (readEnc_subStep x).bind fun _ => setEnc_subStep x _ _
  | dec => exact (readDec_subStep x).bind fun _ => setDec_subStep x _ _

theorem holdSeq_subStep (q : Bytes) : SubStep x (holdSeq q) := fun s =>
  Run.ensures_of_go (fun _ _ h => by rw [(holdSeq_eq_go.1 h).2]) fun _ => holdSeq_ne_ended

theorem accountBits_subStep (u c : Nat) : SubStep x (accountBits x u c) :=
  (readCommon_subStep x x).bind fun d s =>
    SubStep.ite (p := (counterOverflows s.params.cntW (d.U + u) || counterOverflows s.params.cntW (d.C + c)) = true)
      (SubStep.raise _ _) (writeCommon_subStep x x _) s

theorem growIfReached_subStep : SubStep x (growIfReached x) :=
  (readCommon_subStep x x).bind fun _ => SubStep.ite (writeCommon_subStep x x _) (SubStep.go _)

theorem runEval_subStep : SubStep x (runEval x) := by
  refine (readCommon_subStep x x).bind fun c s => ?_
  cases evalPolicy s.params.ratio c with
  | none => trivial
  | some e => exact ((writeCommon_subStep x x e.2).bind fun _ => SubStep.go e.1) s

theorem resetDict_subStep : SubStep x (resetDict x) := by
  have hwrite : SubStep x fun s => (readCommon x s).bind fun c s =>
      writeCommon x (initWidth { c with count := Config.firstDyn }) s :=
    (readCommon_subStep x x).bind fun _ => writeCommon_subStep x x _
  cases x with
  | enc => exact ((readEnc_subStep _).bind fun _ => setEnc_subStep _ _ _).bind fun _ => hwrite
  | dec => exact ((readDec_subStep _).bind fun _ => setDec_subStep _ _ _).bind fun _ => hwrite

theorem applyPolicy_subStep : SubStep x (applyPolicy x) :=
  (runEval_subStep x).bind fun _ => SubStep.ite (resetDict_subStep x) (SubStep.go _)

end

/-! ### The Encoder's sub-steps -/

theorem putBits_subStep (x : Engine) (v n : Nat) : SubStep x (putBits v n) := fun s =>
  Run.ensures_of_go (fun _ _ h => by obtain ⟨o, -, -, -, -, rfl⟩ := putBits_eq_go h; rfl) fun _ => putBits_ne_ended

theorem encEmit_subStep (q : Bytes) (c : Nat) : SubStep .enc (encEmit q c) :=
  (readEnc_subStep _).bind fun _ => (putBits_subStep _ _ _).bind fun _ => accountBits_subStep .enc _ _

theorem encInsert_subStep (q : Bytes) : SubStep .enc (encInsert q) :=
  (readEnc_subStep _).bind fun _ => SubStep.ite
    (SubStep.bind (fun s => Run.ensures_of_go
      (fun _ _ h => by obtain ⟨r, -, -, -, -, -, rfl⟩ := dictInsert_eq_go h; rfl) (dictInsert_ne_ended _ _ s))
      fun _ => writeCommon_subStep _ _ _)
    (SubStep.go _)

theorem encLookup_subStep (x : Engine) : SubStep x encLookup := fun s =>
  Run.ensures_of_go (fun _ _ h => by rw [(encLookup_eq_go.1 h).1]) (encLookup_ne_ended s)

/-! ### The Decoder's sub-steps -/

theorem writeBytes_subStep (x : Engine) (q : Bytes) : SubStep x (writeBytes q) := fun s =>
  Run.ensures_of_go (fun _ _ h => by obtain ⟨o, -, -, rfl⟩ := writeBytes_eq_go h; rfl) fun _ => writeBytes_ne_ended

theorem decOutput_subStep : SubStep .dec decOutput := by
  refine (readDec_subStep _).bind fun r s => ?_
  split
  · exact ((writeBytes_subStep _ _).bind fun _ => accountBits_subStep .dec _ _) s
  · trivial

theorem getBits_subStep (x : Engine) (n : Nat) : SubStep x (getBits n) :=
  SubStep.ite ((readDec_subStep x).bind fun r => by
    cases peekBits r.src r.bitpos n with
    | none => exact SubStep.go _
    | some v => exact setDec_subStep x _ _) (SubStep.fault _)

theorem readUnit_subStep (x : Engine) : SubStep x readUnit :=
  (readDec_subStep x).bind fun _ => (getBits_subStep x _).bind fun v => by
    cases v with
    | none => exact SubStep.go _
    | some c => exact setDec_subStep x _ _

/-- After DEC.FINISH the Decoder does not run (rules R33, R180). -/
theorem decFinishBody_stops {E : State → Prop} (s : State) :
    (decFinishBody s).Ensures E fun _ t => t.running .dec = false := by
  cases ho : s.dec.out with
  | none => simp only [decFinishBody, closeSink, ho, Run.bind_fault]; trivial
  | some o => simp only [decFinishBody, closeSink_dec ho, Run.bind_go]; rfl

theorem decRead_subStep : SubStep .dec (decRead readUnit) :=
  (readUnit_subStep _).bind fun v => by
    cases v with
    | none => exact (readDec_subStep _).bind fun _ => SubStep.raise _ _
    | some cw => exact SubStep.ite (fun s => (decFinishBody_stops s).bind fun _ _ h => h) (SubStep.go _)

theorem tableRead_subStep (x : Engine) (i : Nat) : SubStep x (tableRead i) := fun s =>
  Run.ensures_of_go (fun _ _ h => by rw [(tableRead_eq_go h).1]) (tableRead_ne_ended _ _)

theorem decResolve_subStep (cw : Nat) : SubStep .dec (decResolve cw) := by
  have hold (q : Bytes) : SubStep .dec fun s => (holdSeq q s).bind fun _ s => Run.go q s :=
    (holdSeq_subStep _ q).bind fun _ => SubStep.go _
  refine (readDec_subStep _).bind fun r => SubStep.ite (SubStep.raise _ _)
    (SubStep.ite ?_ ((tableRead_subStep _ cw).bind hold))
  cases r.val.bind fun q => appendFirst q q with
  | none => exact SubStep.fault _
  | some q => exact hold q

theorem decInsert_subStep (q : Bytes) : SubStep .dec (decInsert q) := by
  refine (readDec_subStep _).bind fun r => SubStep.ite ?_ (SubStep.go _)
  cases r.val.bind fun p => appendFirst p q with
  | none => exact SubStep.fault _
  | some e =>
    exact SubStep.bind (fun s => Run.ensures_of_go
      (fun _ _ h => by obtain ⟨r, -, -, -, rfl⟩ := tableWrite_eq_go h; rfl) (tableWrite_ne_ended _ _ s))
      fun _ => writeCommon_subStep _ _ _

/-! ### Sub-steps run as instructions -/

section
variable {α : Type} {b : Bool} {m : Run α} {t : State}

theorem outcome_of_whenEnabled (h : (whenEnabled b m).outcome = .next t) : b = true ∧ m.outcome = .next t := by
  cases b with
  | false => cases h
  | true => exact ⟨rfl, h⟩

theorem outcomeRet_of_whenEnabled {f : α → Ret} (h : (whenEnabled b m).outcomeRet f = .next t) :
    b = true ∧ m.outcomeRet f = .next t := by
  cases b with
  | false => cases h
  | true => exact ⟨rfl, h⟩

theorem outcome_of_givenSeq {q : Bytes} {k : State → Run α} {s : State} (h : (givenSeq q k s).outcome = .next t) :
    (k s).outcome = .next t := by
  unfold givenSeq holdSeq at h
  split at h
  · exact h
  · cases h

end

theorem running_dec_of_loop {s : State} (h : decide (s.dec.phase = .loop) = true) : s.running .dec = true :=
  running_dec_iff.2 (.inr (of_decide_eq_true h))

/-- Settles O22: every sub-step but the last goes on, since the next one is enabled, and the last answers what the step
does. -/
theorem stepsAreTheirSubSteps : Obligations.StepsAreTheirSubSteps := by
  constructor
  · intro s s2 s3 s4 s5 s6 r q c hr hpos hlookup hemit hpolicy hinsert hgrow hadvance
    obtain ⟨hrun, lookup⟩ := outcomeRet_of_whenEnabled hlookup
    obtain ⟨-, emit⟩ := outcome_of_whenEnabled hemit
    obtain ⟨hrun2, policy⟩ := outcome_of_whenEnabled hpolicy
    obtain ⟨hrun3, insert⟩ := outcome_of_whenEnabled hinsert
    obtain ⟨hrun4, grow⟩ := outcome_of_whenEnabled hgrow
    obtain ⟨hrun5, advance⟩ := outcome_of_whenEnabled hadvance
    obtain ⟨found, golookup, hfound⟩ := (encLookup_subStep .enc).goes_on_ret lookup hrun rfl
    cases hfound
    have goemit := (encEmit_subStep _ _).goes_on (outcome_of_givenSeq emit) hrun2
    have gopolicy : encPolicy s2 = .go () s3 := (applyPolicy_subStep .enc).goes_on policy hrun3
    have goinsert := (encInsert_subStep _).goes_on (outcome_of_givenSeq insert) hrun4
    have gogrow : encGrow s4 = .go () s5 := (growIfReached_subStep .enc).goes_on grow hrun5
    simp only [exec, execEncStep_of_input_left (running_enc_iff.1 hrun) hr hpos, encStepBody, golookup, goemit, gopolicy,
      goinsert, gogrow, Run.bind_go, outcome_of_givenSeq advance]
  · intro s s1 s2 s3 s4 s5 s6 cw q houtput hpolicy hread hret hresolve hinsert hgrow hadvance
    obtain ⟨hloop, output⟩ := outcome_of_whenEnabled houtput
    obtain ⟨hloop1, policy⟩ := outcome_of_whenEnabled hpolicy
    obtain ⟨hloop2, read⟩ := outcomeRet_of_whenEnabled hread
    obtain ⟨hloop3, resolve⟩ := outcomeRet_of_whenEnabled hresolve
    obtain ⟨-, insert⟩ := outcome_of_whenEnabled hinsert
    obtain ⟨hloop4, grow⟩ := outcome_of_whenEnabled hgrow
    obtain ⟨hloop5, advance⟩ := outcome_of_whenEnabled hadvance
    have gooutput := decOutput_subStep.goes_on output (running_dec_of_loop hloop1)
    have gopolicy : decPolicy s1 = .go () s2 := (applyPolicy_subStep .dec).goes_on policy (running_dec_of_loop hloop2)
    have hret1 : s1.ret = s.ret := (decOutput_subStep s).of_go gooutput
    have hret2 : s2.ret = s1.ret := (applyPolicy_subStep .dec s1).of_go gopolicy
    obtain ⟨_, goread, hcw⟩ :=
      decRead_subStep.goes_on_ret read (running_dec_of_loop hloop3) (by rw [hret, hret2, hret1])
    cases hcw
    obtain ⟨_, goresolve, hq⟩ := (decResolve_subStep cw).goes_on_ret resolve (running_dec_of_loop hloop3) rfl
    cases hq
    have goinsert := (decInsert_subStep q).goes_on (outcome_of_givenSeq insert) (running_dec_of_loop hloop4)
    have gogrow : decGrow s4 = .go () s5 := (growIfReached_subStep .dec).goes_on grow (running_dec_of_loop hloop5)
    simp only [exec, execDecStep, hloop, whenEnabled_true, decStepBody, gooutput, gopolicy, goread, goresolve, goinsert,
      gogrow, Run.bind_go, outcome_of_givenSeq advance]

end Sys2Proof.Machine

/-! ## Proofs: every step makes progress (EveryStepMakesProgress)

ENC.STEP advances by the match it found, which is not empty; DEC.FIRST and DEC.STEP take one unit, at a width of at
least 9. The other sub-steps leave the stream and the cursor alone, or raise a fault. -/

namespace Sys2Proof.Machine

section
variable {α : Type} {E : State → Prop} {P Q : α → State → Prop} {m : Run α}

/-- An operation ends the step in a state that meets `E`, or goes on with what `P` says. -/
theorem Run.Ensures.of_outcome {t : State} (hm : m.Ensures E P) (h : m.outcome = .next t) : E t ∨ ∃ a, P a t := by
  rcases Run.outcome_eq_next.1 h with ⟨a, rfl⟩ | rfl
  · exact .inr ⟨a, hm⟩
  · exact .inl hm

theorem Run.Ensures.mono (hm : m.Ensures E P) (h : ∀ a t, m = .go a t → P a t → Q a t) : m.Ensures E Q := by
  cases m with
  | go a t => exact h a t rfl hm
  | ended t => exact hm
  | fault f => trivial
  | refused r => trivial

end

/-! ### The Encoder -/

/-- The Encoder's registers hold values, with this input and the cursor there. -/
def Encoder.ReadsAt (e : Encoder) (inp : Bytes) (pos : Nat) : Prop := ∃ r, e.regs = some r ∧ r.inp = inp ∧ r.pos = pos

section
variable {s : State} {inp : Bytes} {pos : Nat} {q : Bytes}

theorem encLookup_finds (h : s.enc.ReadsAt inp pos) : (encLookup s).Ensures (·.enc.regs = none) fun found t =>
    t.enc.ReadsAt inp pos ∧ found.1 ≠ [] ∧ found.1 <+: inp.drop pos := by
  refine Run.ensures_of_go (fun found t hgo => ?_) (encLookup_ne_ended s)
  obtain ⟨rfl, hne, r, hr, hprefix⟩ := (encLookup_ensures s).of_go hgo
  obtain ⟨r', hr', rfl, rfl⟩ := h
  cases hr.symm.trans hr'
  exact ⟨⟨r, hr, rfl, rfl⟩, hne, hprefix⟩

theorem encEmit_keeps_cursor {c : Nat} (h : s.enc.ReadsAt inp pos) :
    (encEmit q c s).Ensures (·.enc.regs = none) fun _ t => t.enc.ReadsAt inp pos := by
  obtain ⟨r, hr, hread⟩ := h
  simp only [encEmit, readEnc_some hr, Run.bind_go]
  refine Run.Ensures.bind (Run.ensures_of_go (fun _ _ h => h) fun _ => putBits_ne_ended) fun _ t ht => ?_
  obtain ⟨o, -, -, -, -, rfl⟩ := putBits_eq_go ht
  rw [accountBits_enc_regs (r := r)]
  case h => exact hr
  split
  · rfl
  · exact ⟨_, rfl, hread⟩

theorem encPolicy_keeps_cursor (h : s.enc.ReadsAt inp pos) :
    (encPolicy s).Ensures (·.enc.regs = none) fun _ t => t.enc.ReadsAt inp pos := by
  obtain ⟨r, hr, hread⟩ := h
  rw [encPolicy, applyPolicy_enc_regs hr]
  cases evalPolicy s.params.ratio r.common with
  | none => trivial
  | some e => exact ⟨_, rfl, hread⟩

theorem encInsert_keeps_cursor (h : s.enc.ReadsAt inp pos) :
    (encInsert q s).Ensures (·.enc.regs = none) fun _ t => t.enc.ReadsAt inp pos := by
  obtain ⟨r, hr, hread⟩ := h
  simp only [encInsert, readEnc_some hr, Run.bind_go]
  split
  case isFalse => exact ⟨r, hr, hread⟩
  case isTrue =>
    refine Run.Ensures.bind (Run.ensures_of_go (fun _ _ h => h) (dictInsert_ne_ended _ _ _)) fun _ t ht => ?_
    obtain ⟨r', hr', -, -, -, -, rfl⟩ := dictInsert_eq_go ht
    cases hr.symm.trans hr'
    rw [writeCommon_enc (State.setEnc_regs _ _)]
    exact ⟨_, rfl, hread⟩

theorem encGrow_keeps_cursor (h : s.enc.ReadsAt inp pos) :
    (encGrow s).Ensures (·.enc.regs = none) fun _ t => t.enc.ReadsAt inp pos := by
  obtain ⟨r, hr, hread⟩ := h
  rw [encGrow, growIfReached_enc_regs hr]
  exact ⟨_, rfl, hread⟩

theorem encAdvance_moves_cursor (h : s.enc.ReadsAt inp pos) :
    (encAdvance q s).Ensures (·.enc.regs = none) fun _ t => t.enc.ReadsAt inp (pos + q.length) := by
  obtain ⟨r, hr, rfl, rfl⟩ := h
  rw [encAdvance_regs hr]
  exact ⟨_, rfl, rfl, rfl⟩

/-- ENC.STEP moves the cursor past a non-empty start of the input left (rules R151, R161). -/
theorem encStepBody_moves_cursor (h : s.enc.ReadsAt inp pos) : (encStepBody s).Ensures (·.enc.regs = none) fun _ t =>
    ∃ q, q ≠ [] ∧ q <+: inp.drop pos ∧ t.enc.ReadsAt inp (pos + q.length) :=
  (encLookup_finds h).bind fun _ _ ⟨h, hne, hprefix⟩ => (encEmit_keeps_cursor h).bind fun _ _ h =>
    (encPolicy_keeps_cursor h).bind fun _ _ h => (encInsert_keeps_cursor h).bind fun _ _ h =>
      (encGrow_keeps_cursor h).bind fun _ _ h => (encAdvance_moves_cursor h).mono fun _ _ _ h => ⟨_, hne, hprefix, h⟩

end

/-- ENC.STEP answers only where it is enabled, and then what its sub-steps answer (rules R109, R151). -/
theorem execEncStep_eq_next {s t : State} {r : EncRegs} (hr : s.enc.regs = some r) (ht : execEncStep s = .next t) :
    (encStepBody s).outcome = .next t := by
  obtain ⟨-, hbody⟩ := outcome_of_whenEnabled ht
  rw [readEnc_some hr, Run.bind_go] at hbody
  exact (outcome_of_whenEnabled hbody).2

theorem execEncStep_moves_cursor {s t : State} {r u : EncRegs} (hr : s.enc.regs = some r) (ht : execEncStep s = .next t)
    (hu : t.enc.regs = some u) : r.pos < u.pos ∧ u.pos ≤ u.inp.length ∧ u.inp = r.inp := by
  rcases (encStepBody_moves_cursor ⟨r, hr, rfl, rfl⟩).of_outcome (execEncStep_eq_next hr ht) with
    hnone | ⟨-, q, hne, hprefix, u', hu', hinp, hpos⟩
  · cases hnone.symm.trans hu
  · cases hu.symm.trans hu'
    have hlen : q.length ≤ r.inp.length - r.pos := List.length_drop ▸ hprefix.length_le
    have hq := List.length_pos_iff.2 hne
    rw [hpos, hinp]
    exact ⟨by omega, by omega, rfl⟩

/-! ### The Decoder -/

/-- The Decoder's registers hold values that satisfy `P`. -/
def Decoder.HoldsRegs (d : Decoder) (P : DecRegs → Prop) : Prop := ∃ r, d.regs = some r ∧ P r

/-- The registers `u` of a step that began with `r`, before it reads: nothing is taken from the stream, and the width is
one of the block. -/
structure DecRegs.BeforeRead (r u : DecRegs) : Prop where
  src : u.src = r.src
  bitpos : u.bitpos = r.bitpos
  common : u.common.Inv

/-- The registers `u` of a step that began with `r`, after it took a unit of the stream (rules R43, R183). -/
structure DecRegs.AfterRead (r u : DecRegs) : Prop where
  src : u.src = r.src
  taken : r.bitpos + 9 ≤ u.bitpos
  within : u.bitpos ≤ (streamBits u.src).length

section
variable {s : State} {r : DecRegs} {q : Bytes}

theorem decOutput_beforeRead (h : s.dec.HoldsRegs r.BeforeRead) :
    (decOutput s).Ensures (·.running .dec = false) fun _ t => t.dec.HoldsRegs r.BeforeRead := by
  obtain ⟨v, hv, hsrc, hpos, hcommon⟩ := h
  simp only [decOutput, readDec_some hv, Run.bind_go]
  split
  case h_2 => trivial
  case h_1 =>
    refine Run.Ensures.bind (Run.ensures_of_go (fun _ _ h => h) fun _ => writeBytes_ne_ended) fun _ t ht => ?_
    obtain ⟨o, -, -, rfl⟩ := writeBytes_eq_go ht
    rw [accountBits_dec_regs (r := v)]
    case h => exact hv
    split
    · rfl
    · exact ⟨_, rfl, hsrc, hpos, hcommon.counters _ _⟩

theorem decPolicy_beforeRead (h : s.dec.HoldsRegs r.BeforeRead) :
    (decPolicy s).Ensures (·.running .dec = false) fun _ t => t.dec.HoldsRegs r.BeforeRead := by
  obtain ⟨v, hv, hsrc, hpos, hcommon⟩ := h
  rw [decPolicy, applyPolicy_dec_regs hv]
  cases heval : evalPolicy s.params.ratio v.common with
  | none => trivial
  | some e => exact ⟨_, rfl, hsrc, hpos, hcommon.policy heval⟩

/-- A unit read is taken whole, at a width of at least 9 (rules R46, R73). -/
theorem readUnit_afterRead (h : s.dec.HoldsRegs r.BeforeRead) : (readUnit s).Ensures (·.running .dec = false) fun v t =>
    v ≠ none → t.dec.HoldsRegs r.AfterRead := by
  obtain ⟨v, hv, hsrc, hpos, hcommon⟩ := h
  have hwidth := hcommon.width
  rw [readUnit_regs hv ⟨by omega, hwidth.2⟩]
  cases hpeek : peekBits v.src v.bitpos v.common.W with
  | none => exact fun hne => absurd rfl hne
  | some c =>
    exact fun _ => ⟨_, rfl, hsrc, show r.bitpos + 9 ≤ v.bitpos + v.common.W by omega, peekBits_eq_some hpeek⟩

theorem raisePremature_stops {α : Type} {Q : α → State → Prop} (s : State) :
    (raisePremature s : Run α).Ensures (·.running .dec = false) Q :=
  (Run.ensures_of_go (fun _ _ _ => trivial) fun _ => readDec_ne_ended).bind fun _ _ _ => rfl

theorem decRead_afterRead (h : s.dec.HoldsRegs r.BeforeRead) :
    (decRead readUnit s).Ensures (·.running .dec = false) fun _ t => t.dec.HoldsRegs r.AfterRead := by
  refine (readUnit_afterRead h).bind fun v t h => ?_
  cases v with
  | none => exact raisePremature_stops t
  | some cw =>
    dsimp only
    split
    · exact (decFinishBody_stops t).bind fun _ _ hstopped => hstopped
    · exact h (Option.some_ne_none cw)

/-- Where DEC.RESOLVE goes on it changes nothing (rule R176). -/
theorem decResolve_go_same {cw : Nat} {t : State} (h : decResolve cw s = .go q t) : t = s := by
  have hold {p : Bytes} (h : ((holdSeq p s).bind fun _ s => Run.go p s) = .go q t) : t = s := by
    obtain ⟨_, u, hheld, hgo⟩ := Run.bind_eq_go.1 h
    cases hgo
    exact (holdSeq_eq_go.1 hheld).2
  obtain ⟨v, u, hread, hcases⟩ := Run.bind_eq_go.1 h
  obtain ⟨-, rfl⟩ := readDec_eq_go.1 hread
  split at hcases
  · cases hcases
  · split at hcases
    · split at hcases
      · exact hold hcases
      · cases hcases
    · obtain ⟨p, u', hread', hheld⟩ := Run.bind_eq_go.1 hcases
      obtain ⟨rfl, -⟩ := tableRead_eq_go hread'
      exact hold hheld

theorem decResolve_afterRead {cw : Nat} (h : s.dec.HoldsRegs r.AfterRead) :
    (decResolve cw s).Ensures (·.running .dec = false) fun _ t => t.dec.HoldsRegs r.AfterRead :=
  Run.Ensures.mono (decResolve_subStep cw s) fun _ _ hgo _ => decResolve_go_same hgo ▸ h

theorem decInsert_afterRead (h : s.dec.HoldsRegs r.AfterRead) :
    (decInsert q s).Ensures (·.running .dec = false) fun _ t => t.dec.HoldsRegs r.AfterRead := by
  obtain ⟨v, hv, hafter⟩ := h
  simp only [decInsert, readDec_some hv, Run.bind_go]
  split
  case isFalse => exact ⟨v, hv, hafter⟩
  case isTrue =>
    split
    · refine Run.Ensures.bind (Run.ensures_of_go (fun _ _ h => h) (tableWrite_ne_ended _ _ _)) fun _ t ht => ?_
      obtain ⟨v', hv', -, -, rfl⟩ := tableWrite_eq_go ht
      cases hv.symm.trans hv'
      rw [writeCommon_dec (State.setDec_regs _ _)]
      exact ⟨_, rfl, hafter.src, hafter.taken, hafter.within⟩
    · trivial

theorem decGrow_afterRead (h : s.dec.HoldsRegs r.AfterRead) :
    (decGrow s).Ensures (·.running .dec = false) fun _ t => t.dec.HoldsRegs r.AfterRead := by
  obtain ⟨v, hv, hafter⟩ := h
  rw [decGrow, growIfReached_dec_regs hv]
  exact ⟨_, rfl, hafter.src, hafter.taken, hafter.within⟩

theorem decAdvance_afterRead (h : s.dec.HoldsRegs r.AfterRead) :
    (decAdvance q s).Ensures (·.running .dec = false) fun _ t => t.dec.HoldsRegs r.AfterRead := by
  obtain ⟨v, hv, hafter⟩ := h
  rw [decAdvance_regs hv]
  exact ⟨_, rfl, hafter.src, hafter.taken, hafter.within⟩

theorem decStepBody_afterRead (h : s.dec.HoldsRegs r.BeforeRead) :
    (decStepBody readUnit s).Ensures (·.running .dec = false) fun _ t => t.dec.HoldsRegs r.AfterRead :=
  (decOutput_beforeRead h).bind fun _ _ h => (decPolicy_beforeRead h).bind fun _ _ h =>
    (decRead_afterRead h).bind fun _ _ h => (decResolve_afterRead h).bind fun _ _ h =>
      (decInsert_afterRead h).bind fun _ _ h => (decGrow_afterRead h).bind fun _ _ h => decAdvance_afterRead h

/-- DEC.FIRST takes a unit or leaves a Decoder that does not run (rule R171). -/
theorem decFirstBody_afterRead (h : s.dec.HoldsRegs r.BeforeRead) :
    (decFirstBody readUnit s).Ensures (·.running .dec = false) fun _ t =>
      t.running .dec = true → t.dec.HoldsRegs r.AfterRead := by
  refine (readUnit_afterRead h).bind fun v t h => ?_
  cases v with
  | none => exact raisePremature_stops t
  | some cw =>
    obtain ⟨u, hu, hafter⟩ := h (Option.some_ne_none cw)
    dsimp only
    split
    · exact (decFinishBody_stops t).mono fun _ t' _ hstopped hrun => by cases hrun.symm.trans hstopped
    · split
      · rfl
      · refine (tableRead_ensures cw t).bind fun q t' ⟨ht', _⟩ => ?_
        subst ht'
        refine (holdSeq_ensures q t').bind fun _ t'' ht'' => ?_
        subst ht''
        rw [readDec_some hu]
        exact fun _ => ⟨_, rfl, hafter.src, hafter.taken, hafter.within⟩

end

theorem DecRegs.BeforeRead.refl {r : DecRegs} (h : r.common.Inv) : r.BeforeRead r := ⟨rfl, rfl, h⟩

/-- DEC.FIRST or DEC.STEP that leaves the Decoder running took a unit (rule R183). -/
theorem exec_afterRead {i : Instr} {s t : State} {r : DecRegs} (hi : i = .decFirst ∨ i = .decStep)
    (hr : s.dec.regs = some r) (hinv : r.common.Inv) (ht : exec i s = .next t) (hrun : t.running .dec = true) :
    t.dec.HoldsRegs r.AfterRead := by
  have hbefore : s.dec.HoldsRegs r.BeforeRead := ⟨r, hr, .refl hinv⟩
  rcases hi with rfl | rfl
  · rcases (decFirstBody_afterRead hbefore).of_outcome (outcome_of_whenEnabled ht).2 with hstopped | ⟨-, hafter⟩
    · cases hrun.symm.trans hstopped
    · exact hafter hrun
  · rcases (decStepBody_afterRead hbefore).of_outcome (outcome_of_whenEnabled ht).2 with hstopped | ⟨-, hafter⟩
    · cases hrun.symm.trans hstopped
    · exact hafter

/-- Settles O11: the Encoder advances by the match found, the Decoder by the unit taken. -/
theorem everyStepMakesProgress : Obligations.EveryStepMakesProgress := by
  refine ⟨fun s t r u hr ht hu => execEncStep_moves_cursor hr ht hu, fun s t r u i hr hinv hi ht hloop hu => ?_⟩
  obtain ⟨u', hu', hafter⟩ := exec_afterRead hi hr hinv ht (running_dec_iff.2 (.inr hloop))
  cases hu.symm.trans hu'
  exact ⟨hafter.taken, hafter.within, hafter.src⟩

end Sys2Proof.Machine

/-! ## Proofs: the Decoder's operations and their units (DecoderOperationsRunTheirUnit, ExpandRunsItsTag)

A step decodes the unit it runs, so these are the lemmas about what a step runs, read from the operation to its unit. -/

namespace Sys2Proof.Machine

/-- Settles O20: an accepted EXPAND decodes the tag that heads its stream, and DEC.START 0 is the EXPAND. -/
theorem expandRunsItsTag : Obligations.ExpandRunsItsTag := by
  intro s i tail hrun hd
  have hexpand : exec i s = exec .expand s := by
    have h := exec_commandInstr 4 s
    rwa [commandInstr_expand_of_tag hrun hd] at h
  obtain ⟨hcommand, hstart⟩ := decCommand_of_not_running 0 hrun
  exact ⟨hexpand.symm, hstart.trans (hcommand.symm.trans hexpand.symm)⟩

/-- Settles O21: the unit that DEC.FIRST or DEC.STEP reads is the next instruction of its phase. -/
theorem decoderOperationsRunTheirUnit : Obligations.DecoderOperationsRunTheirUnit := by
  refine ⟨fun s r i tail hp hr hd => ?first, fun s v r i tail hp hv hr hd => ?loop⟩
  case first => rw [← exec_firstInstr hp, nextUnit_of_decode_ok hr hd, Option.getD_some]
  case loop => rw [← exec_loopInstr hp, nextLoopUnit_of_go hv, nextUnit_of_decode_ok hr hd, Option.getD_some]

end Sys2Proof.Machine

/-! ## Proofs: a literal and EOF in FIRST and in LOOP, DEC.STEP on its stream (FirstLiteralBecomesVal, FirstEofFinishes,
LoopLiteralStep, LoopEofFinishes, DecStepReadsItsStream)

As for the dynamic codewords: what DEC.FIRST or DEC.STEP does with a read is said once, whether the read is a row of the
width in force or the stream. -/

namespace Sys2Proof.Machine

/-! ### The rows of a width, and the codeword on the stream -/

/-- An EOF row of width `w` is the unit of value 256 at this width (rules R93, R99). -/
theorem exec_eofUnit {u : Nat × Instr} (h : u ∈ eofUnits) (s : State) : exec u.2 s = runCodeword u.1 256 s := by
  simp only [eofUnits, List.mem_cons, List.not_mem_nil, or_false] at h
  rcases h with rfl | rfl | rfl | rfl | rfl | rfl | rfl | rfl <;> rfl

theorem runCodeword_first {s : State} (hp : s.dec.phase = .first) (w c : Nat) :
    runCodeword w c s = (decFirstBody (presentUnit w c) s).outcome := by
  rw [runCodeword, decUnit_first hp]

theorem runCodeword_loop {s : State} (hp : s.dec.phase = .loop) (w c : Nat) :
    runCodeword w c s = (decStepBody (presentUnit w c) s).outcome := by
  rw [runCodeword, decUnit_loop hp]

/-- An operation run on its own in the phase that enables it (rule R109). -/
theorem whenEnabled_phase {α : Type} {s : State} {p : DecPhase} (h : s.dec.phase = p) (k : Run α) :
    whenEnabled (decide (s.dec.phase = p)) k = k :=
  if_pos (decide_eq_true h)

theorem exec_decFirst {s : State} (hp : s.dec.phase = .first) : exec .decFirst s = (decFirstBody readUnit s).outcome :=
  congrArg Run.outcome (whenEnabled_phase hp _)

theorem exec_decStep {s : State} (hp : s.dec.phase = .loop) : exec .decStep s = (decStepBody readUnit s).outcome :=
  congrArg Run.outcome (whenEnabled_phase hp _)

section
variable {s : State} {r : DecRegs} (hr : s.dec.regs = some r) (hW : 1 ≤ r.common.W ∧ r.common.W ≤ 16)
include hr

theorem raisePremature_regs {α : Type} :
    (raisePremature s : Run α) = .ended (s.raise .dec .prematureEnd (some r.bitpos)) := by
  rw [raisePremature, readDec_some hr, Run.bind_go, raiseFault]

include hW

/-- The codeword `c` at `D.bitpos` is read whole (rules R73, R175). -/
theorem readUnit_of_peek {c : Nat} (hpeek : peekBits r.src r.bitpos r.common.W = some c) :
    readUnit s = .go (some c) (s.setDec (r.taken r.common.W)) := by
  rw [readUnit_regs hr hW, hpeek]; rfl

/-- Where fewer bits are left than the width, nothing is read (rule R73). -/
theorem readUnit_of_no_peek (hpeek : peekBits r.src r.bitpos r.common.W = none) : readUnit s = .go none s := by
  rw [readUnit_regs hr hW, hpeek]

end

/-! ### DEC.FINISH and DEC.READ -/

theorem decFinishBody_out {s : State} {o : ByteSink} (ho : s.dec.out = some o) :
    decFinishBody s = .go () { s with dec := { s.dec with phase := .done, out := some { o with closed := true } } } := by
  rw [decFinishBody, closeSink_dec ho, Run.bind_go]

section
variable {rd : State → Run (Option Nat)} {s t : State}

/-- DEC.READ of EOF runs DEC.FINISH and ends the step (rules R175, R180). -/
theorem decRead_eof {o : ByteSink} (hrd : rd s = .go (some 256) t) (ho : t.dec.out = some o) :
    decRead rd s =
      .ended { t with dec := { t.dec with phase := .done, out := some { o with closed := true } } } := by
  simp only [decRead, hrd, Run.bind_go, Config.eofCode, if_true, decFinishBody_out ho]

theorem decRead_short {r : DecRegs} (hrd : rd s = .go none t) (hr : t.dec.regs = some r) :
    decRead rd s = .ended (t.raise .dec .prematureEnd (some r.bitpos)) := by
  simp only [decRead, hrd, Run.bind_go, raisePremature_regs hr]

/-! ### Phase FIRST -/

/-- At the first position a literal becomes `D.val`, and phase LOOP begins (rule R171). -/
theorem decFirstBody_literal {r : DecRegs} {b : Byte} {q : Bytes} (hrd : rd s = .go (some b.toNat) t)
    (hr : t.dec.regs = some r) (hread : r.table.read b.toNat = some q) (hfits : seqFits t.params.seqMax q = true) :
    decFirstBody rd s =
      .go () { t with dec := { t.dec with phase := .loop, regs := some { r with val := some q } } } := by
  have hb : b.toNat < 256 := b.isLt
  simp only [decFirstBody, hrd, Run.bind_go, Config.eofCode, hb.ne, Nat.not_lt.2 hb.le, if_false,
    tableRead_of_read hr (by omega) hread, holdSeq_fits hfits, readDec_some hr]
  rfl

theorem decFirstBody_eof (hrd : rd s = .go (some 256) t) : decFirstBody rd s = decFinishBody t := by
  simp only [decFirstBody, hrd, Run.bind_go, Config.eofCode, if_true]

theorem decFirstBody_short (hrd : rd s = .go none t) : decFirstBody rd s = raisePremature t := by
  simp only [decFirstBody, hrd, Run.bind_go]

end

/-- Settles O28: a row and the stream give the same read of the literal, and a short stream gives none. -/
theorem firstLiteralBecomesVal : Obligations.FirstLiteralBecomesVal := by
  intro s r o ⟨hp, hr, ho⟩
  refine ⟨fun b q hread hfits => ?literal, fun h1 h16 hpeek => ?short⟩
  case literal =>
    intro t
    have becomes {rd : State → Run (Option Nat)} (hrd : rd s = .go (some b.toNat) (s.setDec (r.taken r.common.W))) :
        (decFirstBody rd s).outcome = .next t := by
      rw [decFirstBody_literal hrd (State.setDec_regs _ _) hread hfits]; rfl
    refine ⟨fun u hu hw => ?_, fun h1 h16 hpeek => ?_⟩
    · rw [exec_litUnit hu, hw, runCodeword_first hp]
      exact becomes (presentUnit_regs b.toNat hr)
    · rw [exec_decFirst hp]
      exact becomes (readUnit_of_peek hr ⟨h1, h16⟩ hpeek)
  case short =>
    rw [exec_decFirst hp, decFirstBody_short (readUnit_of_no_peek hr ⟨h1, h16⟩ hpeek), raisePremature_regs hr, ← ho]
    rfl

/-- Settles O29: DEC.FIRST on EOF is DEC.FINISH after the unit was taken. -/
theorem firstEofFinishes : Obligations.FirstEofFinishes := by
  intro s r o ⟨hp, hr, ho⟩ u hu hw
  rw [exec_eofUnit hu, hw, runCodeword_first hp, decFirstBody_eof (presentUnit_regs 256 hr),
    decFinishBody_out ((State.setDec_out _ _).trans ho)]
  rfl

/-! ### Phase LOOP -/

section
variable {s : State} {r : DecRegs} {o : ByteSink} {q : Bytes} {rd : State → Run (Option Nat)}
  (h : LoopReady s r o q) (hquiet : QuietPolicy r.common)
include h hquiet

/-- Where the policy is quiet, the sub-steps before DEC.READ leave `D.val` written and accounted (rules R173, R174). -/
theorem decOutput_policy_quiet : ((decOutput s).bind fun _ => decPolicy) = .go () (s.written r o q) := by
  rw [decOutput_ready h, Run.bind_go]
  exact decPolicy_quiet rfl hquiet

/-- A DEC.STEP ends where its DEC.READ does, with `D.val` written and accounted (rules R172 to R175). -/
theorem decStepBody_read_ended {t : State} (hread : decRead rd (s.written r o q) = .ended t) :
    decStepBody rd s = .ended t := by
  have hpolicy : decPolicy (s.written r o q) = .go () (s.written r o q) := decPolicy_quiet rfl hquiet
  simp only [decStepBody, decOutput_ready h, hpolicy, hread, Run.bind_go, Run.bind_ended]

/-- DEC.STEP on an assigned codeword that a row presents (rules R172 to R179). -/
theorem decStepBody_assigned {c : Nat} {f : Byte} {p : Bytes} (hrd : Presents rd c .loop r.common.W r.common.count)
    (hc : c ≠ 256) (hcount : c < r.common.count) (hi : c < 65536) (hread : r.table.read c = some (f :: p))
    (hcode : r.common.count < r.common.L → r.common.count < 65536) :
    decStepBody rd s = .go () ((s.written r o q).setDec ((r.resolving q).advanced q (f :: p) f)) := by
  have hfits : seqFits s.params.seqMax (f :: p) = true := h.unbounded.2 ▸ seqFits_none _
  exact decStepBody_resolved h hquiet hrd hc hcode (decResolve_assigned (State.setDec_regs _ _) hcount hi hread hfits)

end

/-- Settles O31: a literal is a codeword that the table resolves, presented by its row. -/
theorem loopLiteralStep : Obligations.LoopLiteralStep := by
  intro s r o q p b f h hquiet hread hcount hcode u hu hw
  have hb : b.toNat < 256 := b.isLt
  rw [exec_litUnit hu, hw, runCodeword_loop h.phase, decStepBody_assigned h hquiet (presentUnit_presents _ _ _ _)
    hb.ne hcount (by omega) hread hcode]
  rfl

/-- Settles O35: DEC.READ ends the step on EOF, after the output and the quiet policy. -/
theorem loopEofFinishes : Obligations.LoopEofFinishes := by
  intro s r o q h hquiet u hu hw
  have hrd := presentUnit_presents 256 .loop r.common.W r.common.count (s.written r o q) _ rfl h.phase rfl rfl
  rw [exec_eofUnit hu, hw, runCodeword_loop h.phase, decStepBody_read_ended h hquiet (decRead_eof hrd rfl)]
  rfl

/-- Settles O36: the codeword on the stream is read as its row presents it, and a short stream ends DEC.READ in the
fault. -/
theorem decStepReadsItsStream : Obligations.DecStepReadsItsStream := by
  intro s r o q h hquiet h1 h16
  have hregs : (s.written r o q).dec.regs = some { r with common := r.common.accounted q r.common.W } := rfl
  refine ⟨fun c f p hpeek hc hcount hread hi hcode => ?assigned, fun hpeek => ?short⟩
  case assigned =>
    have hrow : decStepBody readUnit s = decStepBody (presentUnit r.common.W c) s := decStepBody_congr fun u hu => by
      cases (decOutput_policy_quiet h hquiet).symm.trans hu
      exact (readUnit_of_peek hregs ⟨h1, h16⟩ hpeek).trans (presentUnit_regs c hregs).symm
    rw [exec_decStep h.phase, hrow,
      decStepBody_assigned h hquiet (presentUnit_presents _ _ _ _) hc hcount hi hread hcode]
    rfl
  case short =>
    rw [exec_decStep h.phase,
      decStepBody_read_ended h hquiet (decRead_short (readUnit_of_no_peek hregs ⟨h1, h16⟩ hpeek) hregs)]
    rfl

end Sys2Proof.Machine

/-! ## Proofs: the sub-steps of DEC.STEP on their own, DEC.FINISH (DecOutputWritesAndAccounts, DecReadTakesOneCodeword,
DecResolveGivesTheSequence, DecInsertGrowAdvance, DecFinishClosesTheSink) -/

namespace Sys2Proof.Machine

/-- DEC.OUTPUT at the width it accounts, whichever that is, where the counters are unbounded (rule R173). -/
theorem decOutput_accounts {s : State} {r : DecRegs} {o : ByteSink} {q : Bytes} {w : Nat} (hr : s.dec.regs = some r)
    (ho : s.dec.out = some o) (hopen : o.closed = false) (hval : r.val = some q)
    (hwidth : accountWidth s.params r = some w) (hcnt : s.params.cntW = none) :
    decOutput s = .go () { s with dec := { s.dec with
      out := some { o with bytes := o.bytes ++ q }, regs := some { r with common := r.common.accounted q w } } } := by
  have hout : decOutput s = accountBits .dec (8 * q.length) w
      { s with dec := { s.dec with out := some { o with bytes := o.bytes ++ q } } } := by
    simp only [decOutput, readDec_some hr, Run.bind_go, hval, hwidth, writeBytes_open q ho hopen]
  exact hout.trans (accountBits_dec _ _ hr hcnt)

/-- Settles O38, by the width that each value of `DEC_ACCOUNT_WIDTH` accounts. -/
theorem decOutputWritesAndAccounts : Obligations.DecOutputWritesAndAccounts := by
  have alone {s : State} (hp : s.dec.phase = .loop) : exec .decOutput s = (decOutput s).outcome :=
    congrArg Run.outcome (whenEnabled_phase hp _)
  refine ⟨fun s r o q h => ?current, fun s r o q w hp hr ho hopen hval ⟨hcnt, _⟩ hacc hreadW => ?asRead⟩
  case current =>
    rw [alone h.phase, decOutput_ready h]
    rfl
  case asRead =>
    have hwidth : accountWidth s.params r = some w := by simp only [accountWidth, hacc, hreadW]
    rw [alone hp, decOutput_accounts hr ho hopen hval hwidth hcnt, Run.outcome_go]

/-- Settles O40, by what the read gives: a codeword, EOF or nothing. -/
theorem decReadTakesOneCodeword : Obligations.DecReadTakesOneCodeword := by
  intro s r o hp hr ho h1 h16
  have alone : exec .decRead s = (decRead readUnit s).outcomeRet fun c => .number (some c) := by
    simp only [exec, execDecRead, whenEnabled_phase hp]
  rw [alone]
  refine ⟨fun c hpeek hc => ?codeword, fun hpeek => ?eof, fun hpeek => ?short⟩
  case codeword => rw [decRead_of_codeword (readUnit_of_peek hr ⟨h1, h16⟩ hpeek) hc, Run.outcomeRet_go]
  case eof =>
    rw [decRead_eof (readUnit_of_peek hr ⟨h1, h16⟩ hpeek) ho, Run.outcomeRet_ended]
    rfl
  case short =>
    rw [decRead_short (readUnit_of_no_peek hr ⟨h1, h16⟩ hpeek) hr, Run.outcomeRet_ended]
    rfl

/-- Settles O41, by the place of the codeword: below the count, at it, above it. -/
theorem decResolveGivesTheSequence : Obligations.DecResolveGivesTheSequence := by
  intro s r cw hp hr ⟨_, hmax⟩
  have alone : exec (.decResolve cw) s = (decResolve cw s).outcomeRet .seq := by
    simp only [exec, execDecResolve, whenEnabled_phase hp]
  have fits (q : Bytes) : seqFits s.params.seqMax q = true := hmax ▸ seqFits_none q
  rw [alone]
  refine ⟨fun q hcw hi hread => ?below, fun f p hcw hval => ?atCount, fun hcw => ?above⟩
  case below => rw [decResolve_assigned hr hcw hi hread (fits _), Run.outcomeRet_go]
  case atCount => rw [decResolve_kwkwk hr hcw hval (fits _), Run.outcomeRet_go]
  case above =>
    rw [decResolve_above hr hcw, Run.outcomeRet_ended]
    rfl

/-- Settles O42, each sub-step by its rule on the registers. -/
theorem decInsertGrowAdvance : Obligations.DecInsertGrowAdvance := by
  intro s r hp hr ⟨_, hmax⟩
  have fits (q : Bytes) : seqFits s.params.seqMax q = true := hmax ▸ seqFits_none q
  have alone (q : Bytes) (k : State → Run Unit) :
      (whenEnabled (decide (s.dec.phase = .loop)) (givenSeq q k s)).outcome = (k s).outcome := by
    rw [whenEnabled_phase hp, givenSeq_fits (fits q)]
  refine ⟨fun v p f hval => ⟨fun hroom hcode => ?insert, fun hfull => ?full⟩, ?grow, fun q => ?advance⟩
  case insert =>
    exact (alone _ (decInsert (f :: p))).trans (congrArg Run.outcome (decInsert_below hr hval hroom hcode (fits _)))
  case full => exact (alone _ (decInsert (f :: p))).trans (congrArg Run.outcome (decInsert_full hr _ hfull))
  case grow => simp only [exec, execDecGrow, whenEnabled_phase hp, decGrow, growIfReached_dec_regs hr, Run.outcome_go]
  case advance => exact (alone q (decAdvance q)).trans (congrArg Run.outcome (decAdvance_regs hr q))

/-- Settles O43: DEC.FINISH is enabled where the Decoder runs, and Close marks its sink. -/
theorem decFinishClosesTheSink : Obligations.DecFinishClosesTheSink := by
  intro s o hrun ho
  simp only [exec, execDecFinish, hrun, whenEnabled_true, decFinishBody_out ho, Run.outcome_go]

end Sys2Proof.Machine

/-! ## Proofs: how phase FAULT is entered and left (FaultIsLeftOnlyByStart, FaultEntryDiscardsRegisters,
FaultKeepsOutputOfTheStep, CounterOverflowIsRaised)

In phase FAULT only a command and a stream operation are enabled, and of these only a START writes the phase. The way into
it is a raise: most operations write registers alone and end a step in FAULT only by a raise on the state they began with
(`WritesRegs`); the few that write an output or a phase themselves still leave nothing in the registers where they end in
FAULT (`FaultsDiscard`). -/

namespace Sys2Proof.Machine

/-- A sum that does not fit either counter raises on the state as it was, before a counter is written (rule R205). -/
theorem RunsWith.rpAccount_overflow {x : Engine} {s : State} {c : Common} {put : Common → State} {n u b : Nat}
    (h : RunsWith x s c put) (hn : s.params.cntW = some n) (hbig : 2 ^ n ≤ c.U + u ∨ 2 ^ n ≤ c.C + b) :
    execRpAccount x u b s = .next (s.raise x .counterOverflow none) := by
  have hover : (counterOverflows s.params.cntW (c.U + u) || counterOverflows s.params.cntW (c.C + b)) = true := by
    simpa [counterOverflows, hn] using hbig
  simp only [execRpAccount, h.running, whenEnabled_true, accountBits, h.read, Run.bind_go, hover, if_true, raiseFault,
    Run.outcome_ended]

/-- Settles O51, by the one rule for either engine. -/
theorem counterOverflowIsRaised : Obligations.CounterOverflowIsRaised := fun _ _ _ _ hn =>
  ⟨fun _ hp hr => (runsWith_enc hp hr).rpAccount_overflow hn, fun _ hrun hr => (runsWith_dec hrun hr).rpAccount_overflow hn⟩

/-! ### Operations that write registers only -/

/-- Engine `x` is in phase FAULT (rules R21, R33). -/
def State.InFault (x : Engine) (s : State) : Prop :=
  match x with
  | .enc => s.enc.phase = .fault
  | .dec => s.dec.phase = .fault

/-- The state with the registers of engine `x` at `none`; a raise does not depend on more (rule R209). -/
def State.dropRegs (x : Engine) (s : State) : State :=
  match x with
  | .enc => { s with enc := { s.enc with regs := none } }
  | .dec => { s with dec := { s.dec with regs := none } }

/-- If engine `x` is in FAULT in `t`, a fault was raised on `s` (rule R209). -/
def FaultRaised (x : Engine) (s t : State) : Prop :=
  t.InFault x → ∃ code info, code ≠ FaultCode.none ∧ t = s.raise x code info

/-- Where the operation goes on it has written no more than the registers of engine `x`; where it ends the step in FAULT,
it raised a fault on the state it began with, whose registers do not matter. -/
def WritesRegs {α : Type} (x : Engine) (k : State → Run α) : Prop :=
  ∀ s, (k s).Ensures (FaultRaised x (s.dropRegs x)) fun _ t => t.dropRegs x = s.dropRegs x

theorem Run.Ensures.imp {α : Type} {E E' : State → Prop} {P Q : α → State → Prop} {m : Run α} (hm : m.Ensures E P)
    (hE : ∀ t, E t → E' t) (hP : ∀ a t, P a t → Q a t) : m.Ensures E' Q := by
  cases m with
  | go a t => exact hP a t hm
  | ended t => exact hE t hm
  | fault f => trivial
  | refused r => trivial

namespace WritesRegs

variable {α β : Type} {x : Engine}

theorem bind {m : State → Run α} {k : α → State → Run β} (hm : WritesRegs x m) (hk : ∀ a, WritesRegs x (k a)) :
    WritesRegs x fun s => (m s).bind (k · ·) := fun s =>
  (hm s).bind fun a t ht => ht ▸ hk a t

theorem ite {p : State → Prop} [∀ s, Decidable (p s)] {k l : State → Run α} (hk : WritesRegs x k)
    (hl : WritesRegs x l) : WritesRegs x fun s => if p s then k s else l s := by
  intro s
  dsimp only
  split
  · exact hk s
  · exact hl s

/-- An operation that only reads. -/
theorem of_same {k : State → Run α} (hgo : ∀ {s a t}, k s = .go a t → t = s) (hended : ∀ s t, k s ≠ .ended t) :
    WritesRegs x k := fun s =>
  Run.ensures_of_go (fun _ _ h => by rw [hgo h]) (hended s)

theorem go (a : α) : WritesRegs x fun s => Run.go a s := fun _ => rfl

theorem fault (e : Fault) : WritesRegs x fun _ => (Run.fault e : Run α) := fun _ => trivial

theorem setEnc (a : α) (r : EncRegs) : WritesRegs .enc fun s => Run.go a (s.setEnc r) := fun _ => rfl

theorem setDec (a : α) (r : DecRegs) : WritesRegs .dec fun s => Run.go a (s.setDec r) := fun _ => rfl

theorem raiseFault {code : FaultCode} (hcode : code ≠ .none) (info : Option Nat) :
    WritesRegs x (raiseFault x code info : State → Run α) := fun _ _ => ⟨code, info, hcode, by cases x <;> rfl⟩

theorem whenEnabled {b : State → Bool} {k : State → Run α} (hk : WritesRegs x k) :
    WritesRegs x fun s => whenEnabled (b s) (k s) := fun s => Run.Ensures.whenEnabled fun _ => hk s

/-- The output stays through registers written and through a raise (rules R209, R210). -/
theorem keeps_out {k : State → Run α} (hk : WritesRegs .dec k) {s : State} {out : Option ByteSink} (ho : s.dec.out = out) :
    (k s).Ensures (fun t => t.dec.phase = .fault → t.dec.out = out) fun _ t => t.dec.out = out :=
  (hk s).imp (fun _ hraised hfault => by obtain ⟨_, _, -, rfl⟩ := hraised hfault; exact ho)
    fun _ _ ht => (congrArg (·.dec.out) ht).trans ho

end WritesRegs

/-! ### The operations that both engines share -/

section
variable (x : Engine)

theorem readEnc_writesRegs : WritesRegs x readEnc := .of_same (fun h => (readEnc_eq_go.1 h).2) fun _ _ => readEnc_ne_ended

theorem readDec_writesRegs : WritesRegs x readDec := .of_same (fun h => (readDec_eq_go.1 h).2) fun _ _ => readDec_ne_ended

theorem holdSeq_writesRegs (q : Bytes) : WritesRegs x (holdSeq q) :=
  .of_same (fun h => (holdSeq_eq_go.1 h).2) fun _ _ => holdSeq_ne_ended

theorem WritesRegs.givenSeq {α : Type} {x : Engine} {k : State → Run α} (q : Bytes) (hk : WritesRegs x k) :
    WritesRegs x (givenSeq q k) :=
  (holdSeq_writesRegs x q).bind fun _ => hk

theorem readCommon_writesRegs : WritesRegs x (readCommon x) := by
  cases x with
  | enc => exact (readEnc_writesRegs _).bind fun _ => .go _
  | dec => exact (readDec_writesRegs _).bind fun _ => .go _

theorem writeCommon_writesRegs (c : Common) : WritesRegs x (writeCommon x c) := by
  cases x with
  | enc => exact (readEnc_writesRegs _).bind fun _ => .setEnc _ _
  | dec => exact (readDec_writesRegs _).bind fun _ => .setDec _ _

theorem accountBits_writesRegs (u c : Nat) : WritesRegs x (accountBits x u c) :=
  (readCommon_writesRegs x).bind fun _ => .ite (.raiseFault (by decide) _) (writeCommon_writesRegs x _)

theorem growIfReached_writesRegs : WritesRegs x (growIfReached x) :=
  (readCommon_writesRegs x).bind fun _ => .ite (writeCommon_writesRegs x _) (.go _)

/-- How RP.EVAL and its variants end: the policy registers written and the condition returned. -/
theorem writeEval_writesRegs (e : Bool × Common) :
    WritesRegs x fun s => (writeCommon x e.2 s).bind fun _ s => .go e.1 s :=
  (writeCommon_writesRegs x e.2).bind fun _ => .go _

theorem runEval_writesRegs : WritesRegs x (runEval x) :=
  (readCommon_writesRegs x).bind fun c s => by
    cases evalPolicy s.params.ratio c with
    | none => trivial
    | some e => exact writeEval_writesRegs x e s

theorem runVariant_writesRegs (inCase : Common → Bool) (variant : State → Common → Option (Bool × Common)) :
    WritesRegs x (runVariant x inCase variant) :=
  WritesRegs.whenEnabled <| (readCommon_writesRegs x).bind fun c => .ite
    (fun s => by
      cases variant s c with
      | none => trivial
      | some e => exact writeEval_writesRegs x e s)
    (.fault _)

theorem dictSeed_writesRegs : WritesRegs .enc dictSeed := (readEnc_writesRegs _).bind fun _ => .setEnc _ _

theorem tableSeed_writesRegs : WritesRegs .dec tableSeed := (readDec_writesRegs _).bind fun _ => .setDec _ _

theorem resetDict_writesRegs : WritesRegs x (resetDict x) := by
  have hwrite : WritesRegs x fun s => (readCommon x s).bind fun c s =>
      writeCommon x (initWidth { c with count := Config.firstDyn }) s :=
    (readCommon_writesRegs x).bind fun _ => writeCommon_writesRegs x _
  cases x with
  | enc => exact dictSeed_writesRegs.bind fun _ => hwrite
  | dec => exact tableSeed_writesRegs.bind fun _ => hwrite

theorem applyPolicy_writesRegs : WritesRegs x (applyPolicy x) :=
  (runEval_writesRegs x).bind fun _ => .ite (resetDict_writesRegs x) (.go _)

end

/-! ### The Encoder's registers -/

theorem longestPrefix_writesRegs (rest : Bytes) : WritesRegs .enc (longestPrefix rest) :=
  .of_same (fun h => (longestPrefix_eq_go h).1) (longestPrefix_ne_ended rest)

theorem encLookup_writesRegs : WritesRegs .enc encLookup := .of_same (fun h => (encLookup_eq_go.1 h).1) encLookup_ne_ended

theorem dictInsert_writesRegs (key : Bytes) (code : Nat) : WritesRegs .enc (dictInsert key code) :=
  (readEnc_writesRegs _).bind fun _ => .ite (.fault _) ((holdSeq_writesRegs _ _).bind fun _ => .setEnc _ _)

theorem encInsert_writesRegs (q : Bytes) : WritesRegs .enc (encInsert q) :=
  (readEnc_writesRegs _).bind fun _ =>
    .ite ((dictInsert_writesRegs _ _).bind fun _ => writeCommon_writesRegs .enc _) (.go _)

theorem encAdvance_writesRegs (q : Bytes) : WritesRegs .enc (encAdvance q) :=
  (readEnc_writesRegs _).bind fun _ => .setEnc _ _

/-! ### The Decoder's registers -/

theorem tableRead_writesRegs (i : Nat) : WritesRegs .dec (tableRead i) :=
  .of_same (fun h => (tableRead_eq_go h).1) (tableRead_ne_ended i)

theorem tableWrite_writesRegs (i : Nat) (q : Bytes) : WritesRegs .dec (tableWrite i q) :=
  .ite (.fault _) ((readDec_writesRegs _).bind fun _ => (holdSeq_writesRegs _ _).bind fun _ => .setDec _ _)

theorem getBits_writesRegs (n : Nat) : WritesRegs .dec (getBits n) :=
  .ite ((readDec_writesRegs _).bind fun r => by
    cases peekBits r.src r.bitpos n with
    | none => exact .go _
    | some v => exact .setDec _ _) (.fault _)

theorem readUnit_writesRegs : WritesRegs .dec readUnit :=
  (readDec_writesRegs _).bind fun _ => (getBits_writesRegs _).bind fun v => by
    cases v with
    | none => exact .go _
    | some c => exact .setDec _ _

theorem presentUnit_writesRegs (w c : Nat) : WritesRegs .dec (presentUnit w c) :=
  (readDec_writesRegs _).bind fun _ => .ite (.setDec _ _) (.fault _)

theorem presentClass_writesRegs (k : UnitClass) (c : Nat) : WritesRegs .dec (presentClass k c) :=
  (readDec_writesRegs _).bind fun _ => .ite (.setDec _ _) (.fault _)

theorem raisePremature_writesRegs {α : Type} : WritesRegs .dec (raisePremature : State → Run α) :=
  (readDec_writesRegs _).bind fun _ => .raiseFault (by decide) _

theorem decResolve_writesRegs (cw : Nat) : WritesRegs .dec (decResolve cw) := by
  have hold (q : Bytes) : WritesRegs .dec fun s => (holdSeq q s).bind fun _ s => Run.go q s :=
    (holdSeq_writesRegs _ q).bind fun _ => .go _
  refine (readDec_writesRegs _).bind fun r =>
    .ite (.raiseFault (by decide) _) (.ite ?_ ((tableRead_writesRegs cw).bind hold))
  cases r.val.bind fun q => appendFirst q q with
  | none => exact .fault _
  | some q => exact hold q

theorem decInsert_writesRegs (q : Bytes) : WritesRegs .dec (decInsert q) := by
  refine (readDec_writesRegs _).bind fun r => .ite ?_ (.go _)
  cases r.val.bind fun p => appendFirst p q with
  | none => exact .fault _
  | some e => exact (tableWrite_writesRegs _ _).bind fun _ => writeCommon_writesRegs .dec _

theorem decAdvance_writesRegs (q : Bytes) : WritesRegs .dec (decAdvance q) :=
  (readDec_writesRegs _).bind fun _ => .setDec _ _

/-- DEC.FINISH closes the sink, but leaves no fault (rule R180). -/
theorem decFinishBody_done {E : State → Prop} (s : State) :
    (decFinishBody s).Ensures E fun _ t => t.dec.phase = .done := by
  cases ho : s.dec.out with
  | none => simp only [decFinishBody, closeSink, ho, Run.bind_fault]; trivial
  | some o => rw [decFinishBody_out ho]; rfl

section
variable {rd : State → Run (Option Nat)} (hrd : WritesRegs .dec rd)
include hrd

theorem decRead_writesRegs : WritesRegs .dec (decRead rd) :=
  hrd.bind fun v => by
    cases v with
    | none => exact raisePremature_writesRegs
    | some cw =>
      exact .ite (fun s => (decFinishBody_done s).bind fun _ _ hdone hfault => by cases hdone.symm.trans hfault) (.go _)

/-- After DEC.OUTPUT, DEC.STEP writes registers only (rule R172). -/
theorem decStep_afterOutput_writesRegs : WritesRegs .dec fun s => (decPolicy s).bind fun _ s =>
    (decRead rd s).bind fun cw s => (decResolve cw s).bind fun q s => (decInsert q s).bind fun _ s =>
      (decGrow s).bind fun _ s => decAdvance q s :=
  (applyPolicy_writesRegs .dec).bind fun _ => (decRead_writesRegs hrd).bind fun _ => (decResolve_writesRegs _).bind fun _ =>
    (decInsert_writesRegs _).bind fun _ => (growIfReached_writesRegs .dec).bind fun _ => decAdvance_writesRegs _

end

/-! ### The output of a DEC.STEP that ends in FAULT -/

/-- DEC.OUTPUT writes `D.val`, whether or not it then raises (rules R173, R205). -/
theorem decOutput_writes_val {s : State} {r : DecRegs} {o : ByteSink} {q : Bytes} (hr : s.dec.regs = some r)
    (ho : s.dec.out = some o) (hval : r.val = some q) :
    (decOutput s).Ensures (fun t => t.dec.phase = .fault → t.dec.out = some { bytes := o.bytes ++ q, closed := false })
      fun _ t => t.dec.out = some { bytes := o.bytes ++ q, closed := false } := by
  simp only [decOutput, readDec_some hr, Run.bind_go, hval]
  cases accountWidth s.params r with
  | none => trivial
  | some w =>
    refine Run.Ensures.bind (Run.ensures_of_go (fun _ _ h => h) fun _ => writeBytes_ne_ended) fun _ t ht => ?_
    obtain ⟨o', ho', hopen, rfl⟩ := writeBytes_eq_go ht
    cases ho.symm.trans ho'
    exact (accountBits_writesRegs .dec _ _).keeps_out (by rw [hopen])

/-- Settles O12: DEC.OUTPUT writes `D.val`, and the other sub-steps write registers only. -/
theorem faultKeepsOutputOfTheStep : Obligations.FaultKeepsOutputOfTheStep := by
  intro s t r o q hr ho hval ht
  refine Run.Ensures.outcome (m := decStepBody readUnit s)
    (E := fun t => t.dec.phase = .fault → t.dec.out = some { bytes := o.bytes ++ q, closed := false }) ?_
    (outcome_of_whenEnabled ht).2
  refine (decOutput_writes_val hr ho hval).bind fun _ u hu => ?_
  exact ((decStep_afterOutput_writesRegs readUnit_writesRegs).keeps_out hu).imp (fun _ h => h) fun _ _ h _ => h

/-! ### Operations that leave nothing in the registers where they end in FAULT -/

/-- The registers of engine `x` hold `none`, and its fault code is one of R200 other than 0 (rules R50, R209). -/
def State.Discarded (x : Engine) (s : State) : Prop :=
  match x with
  | .enc => s.enc.regs = none ∧ s.enc.fault.code ≠ 0
  | .dec => s.dec.regs = none ∧ s.dec.fault.code ≠ 0

theorem FaultCode.code_ne_zero {code : FaultCode} (h : code ≠ .none) : code.code ≠ 0 := by
  cases code with
  | none => exact absurd rfl h
  | invocationError | prematureEnd | badModeTag | codewordOutOfRange | counterOverflow => exact Nat.succ_ne_zero _

theorem State.raise_discarded {code : FaultCode} (h : code ≠ .none) (x : Engine) (info : Option Nat) (s : State) :
    (s.raise x code info).Discarded x := by
  cases x <;> exact ⟨rfl, FaultCode.code_ne_zero h⟩

/-- From a state in which engine `x` is not in FAULT the operation goes on in such a state, or ends the step there or with
the registers discarded. -/
def FaultsDiscard {α : Type} (x : Engine) (k : State → Run α) : Prop :=
  ∀ s, ¬ s.InFault x → (k s).Ensures (fun t => t.InFault x → t.Discarded x) fun _ t => ¬ t.InFault x

/-- An instruction's meaning `f` takes engine `x` into FAULT only with the registers discarded. -/
def OutcomeFaultsDiscard (x : Engine) (f : State → Host.Outcome State Fault Refusal) : Prop :=
  ∀ s t, ¬ s.InFault x → f s = .next t → t.InFault x → t.Discarded x

theorem State.inFault_dropRegs {x : Engine} {s : State} : (s.dropRegs x).InFault x ↔ s.InFault x := by cases x <;> exact Iff.rfl

theorem WritesRegs.faultsDiscard {α : Type} {x : Engine} {k : State → Run α} (hk : WritesRegs x k) : FaultsDiscard x k :=
  fun s hs => (hk s).imp
    (fun _ hraised hfault => by obtain ⟨code, info, hcode, rfl⟩ := hraised hfault; exact State.raise_discarded hcode x info _)
    fun _ _ ht => by rwa [← State.inFault_dropRegs, ht, State.inFault_dropRegs]

namespace FaultsDiscard

variable {α β : Type} {x : Engine}

theorem bind {m : State → Run α} {k : α → State → Run β} (hm : FaultsDiscard x m) (hk : ∀ a, FaultsDiscard x (k a)) :
    FaultsDiscard x fun s => (m s).bind (k · ·) := fun s hs =>
  (hm s hs).bind hk

theorem whenEnabled {b : State → Bool} {k : State → Run α} (hk : FaultsDiscard x k) :
    FaultsDiscard x fun s => whenEnabled (b s) (k s) := fun s hs => Run.Ensures.whenEnabled fun _ => hk s hs

theorem outcome {k : State → Run α} (hk : FaultsDiscard x k) : OutcomeFaultsDiscard x fun s => (k s).outcome :=
  fun s _ hs ht => Run.Ensures.outcome (E := fun t => t.InFault x → t.Discarded x)
    ((hk s hs).imp (fun _ h => h) fun _ _ h hfault => absurd hfault h) ht

end FaultsDiscard

theorem WritesRegs.outcome {α : Type} {x : Engine} {k : State → Run α} (hk : WritesRegs x k) :
    OutcomeFaultsDiscard x fun s => (k s).outcome := hk.faultsDiscard.outcome

theorem WritesRegs.outcomeRet {α : Type} {x : Engine} {k : State → Run α} (hk : WritesRegs x k) (f : α → Ret) :
    OutcomeFaultsDiscard x fun s => (k s).outcomeRet f := by
  intro s t hs ht
  have hk := hk.faultsDiscard s hs
  rcases Run.outcomeRet_eq_next.1 ht with ⟨a, u, hgo, rfl⟩ | hended
  · rw [hgo] at hk
    cases x <;> exact fun hfault => absurd hfault hk
  · rw [hended] at hk
    exact hk

/-! ### The Encoder's outputs and phases -/

theorem closeSink_keeps_phases {E : State → Prop} (x : Engine) (s : State) :
    (closeSink x s).Ensures E fun _ t => t.enc.phase = s.enc.phase ∧ t.dec.phase = s.dec.phase := by
  cases x with
  | enc =>
    cases ho : s.enc.out with
    | none => simp only [closeSink, ho]; trivial
    | some o => rw [closeSink_enc ho]; exact ⟨rfl, rfl⟩
  | dec =>
    cases ho : s.dec.out with
    | none => simp only [closeSink, ho]; trivial
    | some o => rw [closeSink_dec ho]; exact ⟨rfl, rfl⟩

theorem closeSink_faultsDiscard (x : Engine) : FaultsDiscard x (closeSink x) := fun s hs =>
  (closeSink_keeps_phases x s).imp (fun _ h => h) fun _ _ ⟨henc, hdec⟩ => by
    cases x with
    | enc => exact fun hfault => hs (henc.symm.trans hfault)
    | dec => exact fun hfault => hs (hdec.symm.trans hfault)

theorem putBits_faultsDiscard (v n : Nat) : FaultsDiscard .enc (putBits v n) := fun _ hs =>
  Run.ensures_of_go (fun _ _ h => by obtain ⟨o, -, -, -, -, rfl⟩ := putBits_eq_go h; exact hs) fun _ => putBits_ne_ended

theorem encEmit_faultsDiscard (q : Bytes) (c : Nat) : FaultsDiscard .enc (encEmit q c) :=
  (readEnc_writesRegs _).faultsDiscard.bind fun _ => (putBits_faultsDiscard _ _).bind fun _ =>
    (accountBits_writesRegs .enc _ _).faultsDiscard

theorem encStepBody_faultsDiscard : FaultsDiscard .enc encStepBody :=
  encLookup_writesRegs.faultsDiscard.bind fun _ => (encEmit_faultsDiscard _ _).bind fun _ =>
    WritesRegs.faultsDiscard <| (applyPolicy_writesRegs .enc).bind fun _ => (encInsert_writesRegs _).bind fun _ =>
      (growIfReached_writesRegs .enc).bind fun _ => encAdvance_writesRegs _

theorem encFinishBody_faultsDiscard : FaultsDiscard .enc encFinishBody :=
  (readEnc_writesRegs _).faultsDiscard.bind fun _ => (putBits_faultsDiscard _ _).bind fun _ =>
    (closeSink_faultsDiscard .enc).bind fun _ _ _ => nofun

theorem encStart_faultsDiscard (m : BitVec 2) : FaultsDiscard .enc (encStart m) := by
  intro s _
  cases hm : modeOfNumber m.toNat with
  | none => rw [encStart_illegal hm]; exact fun _ => State.raise_discarded (by decide) .enc _ _
  | some mode => rw [encStart_legal hm]; exact nofun

theorem encCommand_faultsDiscard (m : BitVec 2) : OutcomeFaultsDiscard .enc (encCommand m) := by
  intro s t hs ht
  unfold encCommand at ht
  split at ht
  · cases ht; exact fun hfault => absurd hfault hs
  · exact (encStart_faultsDiscard m).outcome s t hs ht

/-! ### The Decoder's outputs and phases -/

theorem writeBytes_faultsDiscard (q : Bytes) : FaultsDiscard .dec (writeBytes q) := fun _ hs =>
  Run.ensures_of_go (fun _ _ h => by obtain ⟨o, -, -, rfl⟩ := writeBytes_eq_go h; exact hs) fun _ => writeBytes_ne_ended

theorem decOutput_faultsDiscard : FaultsDiscard .dec decOutput :=
  (readDec_writesRegs _).faultsDiscard.bind fun r s hs => by
    split
    · exact ((writeBytes_faultsDiscard _).bind fun _ => (accountBits_writesRegs .dec _ _).faultsDiscard) s hs
    · trivial

theorem decFinishBody_faultsDiscard : FaultsDiscard .dec decFinishBody := fun s _ =>
  (decFinishBody_done s).imp (fun _ h => h) fun _ _ hdone hfault => by cases hdone.symm.trans hfault

theorem decStart_faultsDiscard (low : BitVec 2) (tag : Option Nat) : FaultsDiscard .dec (decStart low tag) := by
  intro s _
  by_cases hlow : low = 0
  case neg => rw [decStart_illegal hlow]; exact fun _ => ⟨rfl, Nat.succ_ne_zero _⟩
  subst hlow
  cases tag with
  | none => exact fun _ => ⟨rfl, Nat.succ_ne_zero _⟩
  | some n =>
    cases hn : modeOfNumber n with
    | none => rw [decStart_badTag hn]; exact fun _ => ⟨rfl, Nat.succ_ne_zero _⟩
    | some mode => rw [decStart_legal hn]; exact nofun

theorem decStartHeader_faultsDiscard (low : BitVec 2) : FaultsDiscard .dec fun s => decStart low (headerTag s) s :=
  fun s => decStart_faultsDiscard low (headerTag s) s

theorem decCommand_faultsDiscard (low : BitVec 2) : OutcomeFaultsDiscard .dec (decCommand low) := by
  intro s t hs ht
  unfold decCommand at ht
  split at ht
  · cases ht; exact fun hfault => absurd hfault hs
  · exact (decStartHeader_faultsDiscard low).outcome s t hs ht

theorem startOnTag_faultsDiscard (t : Nat) : OutcomeFaultsDiscard .dec (startOnTag t) :=
  (decStart_faultsDiscard 0 (some t)).whenEnabled.outcome

section
variable {rd : State → Run (Option Nat)} (hrd : WritesRegs .dec rd)
include hrd

theorem decFirstBody_faultsDiscard : FaultsDiscard .dec (decFirstBody rd) := by
  refine hrd.faultsDiscard.bind fun v s hs => ?_
  cases v with
  | none => exact raisePremature_writesRegs.faultsDiscard s hs
  | some cw =>
    dsimp only
    split
    · exact decFinishBody_faultsDiscard s hs
    · split
      · exact fun _ => State.raise_discarded (by decide) .dec _ _
      · refine ((tableRead_writesRegs cw).faultsDiscard.bind fun q => (holdSeq_writesRegs _ q).faultsDiscard.bind fun _ =>
          (readDec_writesRegs _).faultsDiscard.bind fun _ _ _ => ?_) s hs
        exact nofun

theorem decStepBody_faultsDiscard : FaultsDiscard .dec (decStepBody rd) :=
  decOutput_faultsDiscard.bind fun _ => (decStep_afterOutput_writesRegs hrd).faultsDiscard

theorem decUnit_faultsDiscard : OutcomeFaultsDiscard .dec fun s => (decUnit rd s).outcome :=
  FaultsDiscard.outcome fun s hs => by
    cases hp : s.dec.phase with
    | first => rw [decUnit_first hp]; exact decFirstBody_faultsDiscard hrd s hs
    | loop => rw [decUnit_loop hp]; exact decStepBody_faultsDiscard hrd s hs
    | idle | done | fault => simp only [decUnit, hp]; trivial

end

/-! ### Every instruction -/

theorem exec_faultsDiscard (i : Instr) : OutcomeFaultsDiscard (engineOf i) (exec i) := by
  cases i with
  | compressN | compressR | compressM | illegalCmd000 => exact encCommand_faultsDiscard _
  | expand | illegalCmd101 | illegalCmd110 | illegalCmd111 => exact decCommand_faultsDiscard _
  | tagNone | tagFullReset | tagRatioMonitored | tagIllegal => exact startOnTag_faultsDiscard _
  | litW9 | eofW9 | dynW9 | litW10 | eofW10 | dynW10 | litW11 | eofW11 | dynW11 | litW12 | eofW12 | dynW12
  | litW13 | eofW13 | dynW13 | litW14 | eofW14 | dynW14 | litW15 | eofW15 | dynW15 | litW16 | eofW16 | dynW16 =>
    exact decUnit_faultsDiscard (presentUnit_writesRegs _ _)
  | dynRef | dynKwkwk | dynInvalid => exact decUnit_faultsDiscard (presentClass_writesRegs _ _)
  | encStart m => exact (encStart_faultsDiscard m).whenEnabled.outcome
  | encStep =>
    exact ((readEnc_writesRegs _).faultsDiscard.bind fun _ => encStepBody_faultsDiscard.whenEnabled).whenEnabled.outcome
  | encLookup => exact encLookup_writesRegs.whenEnabled.outcomeRet _
  | encEmit q c =>
    exact ((holdSeq_writesRegs _ q).faultsDiscard.bind fun _ => encEmit_faultsDiscard q c).whenEnabled.outcome
  | encPolicy => exact (applyPolicy_writesRegs .enc).whenEnabled.outcome
  | encInsert q => exact ((encInsert_writesRegs q).givenSeq q).whenEnabled.outcome
  | encGrow => exact (growIfReached_writesRegs .enc).whenEnabled.outcome
  | encAdvance q => exact ((encAdvance_writesRegs q).givenSeq q).whenEnabled.outcome
  | encFinish =>
    exact ((readEnc_writesRegs _).faultsDiscard.bind fun _ => encFinishBody_faultsDiscard.whenEnabled).whenEnabled.outcome
  | decStart low => exact (decStartHeader_faultsDiscard low).whenEnabled.outcome
  | decFirst => exact (decFirstBody_faultsDiscard readUnit_writesRegs).whenEnabled.outcome
  | decStep => exact (decStepBody_faultsDiscard readUnit_writesRegs).whenEnabled.outcome
  | decOutput => exact decOutput_faultsDiscard.whenEnabled.outcome
  | decPolicy => exact (applyPolicy_writesRegs .dec).whenEnabled.outcome
  | decRead => exact (decRead_writesRegs readUnit_writesRegs).whenEnabled.outcomeRet _
  | decResolve cw => exact (decResolve_writesRegs cw).whenEnabled.outcomeRet _
  | decInsert q => exact ((decInsert_writesRegs q).givenSeq q).whenEnabled.outcome
  | decGrow => exact (growIfReached_writesRegs .dec).whenEnabled.outcome
  | decAdvance q => exact ((decAdvance_writesRegs q).givenSeq q).whenEnabled.outcome
  | decFinish => exact decFinishBody_faultsDiscard.whenEnabled.outcome
  | putBits v n => exact (putBits_faultsDiscard v n).outcome
  | getBits n => exact (getBits_writesRegs n).outcomeRet _
  | writeBytes q => exact (writeBytes_faultsDiscard q).outcome
  | readAllBytes => intro s t hs ht hfault; cases ht; exact absurd hfault hs
  | longestPrefix rest => exact (longestPrefix_writesRegs rest).whenEnabled.outcomeRet _
  | dictInsert key code => exact (dictInsert_writesRegs key code).whenEnabled.outcome
  | dictSeed => exact dictSeed_writesRegs.whenEnabled.outcome
  | tableRead n => exact (tableRead_writesRegs n).whenEnabled.outcomeRet _
  | tableWrite n q => exact (tableWrite_writesRegs n q).whenEnabled.outcome
  | tableSeed => exact tableSeed_writesRegs.whenEnabled.outcome
  | wcInit x =>
    cases x <;> exact ((readCommon_writesRegs _).bind fun _ => writeCommon_writesRegs _ _).whenEnabled.outcome
  | wcReached x | rpSaturated x =>
    cases x <;> exact ((readCommon_writesRegs _).bind fun _ => .go _).whenEnabled.outcomeRet _
  | wcGrow x =>
    cases x <;> exact ((readCommon_writesRegs _).bind fun _ =>
      .ite (writeCommon_writesRegs _ _) (.fault _)).whenEnabled.outcome
  | rpAccount x u c => cases x <;> exact (accountBits_writesRegs _ u c).whenEnabled.outcome
  | rpEval x => cases x <;> exact (runEval_writesRegs _).whenEnabled.outcomeRet _
  | rpEvalNone x | rpEvalFullReset x | rpEvalRatioBaseline x | rpEvalRatioCompare x =>
    cases x <;> exact (runVariant_writesRegs _ _ _).outcomeRet _
  | dictReset x => cases x <;> exact (resetDict_writesRegs _).whenEnabled.outcome
  | close x => cases x <;> exact (closeSink_faultsDiscard _).outcome

/-- Settles O9: an instruction enters FAULT by a raise in its own engine, and leaves the other engine as it was. -/
theorem faultEntryDiscardsRegisters : Obligations.FaultEntryDiscardsRegisters := by
  intro i s t h
  have hown := exec_faultsDiscard i s t
  cases hi : i.onEncoder with
  | true =>
    have hdec : t.dec = s.dec := congrArg Prod.fst (exec_decSide hi h)
    simp only [engineOf, hi, if_true] at hown
    exact ⟨fun hs ht => hown hs h ht, fun hs ht => absurd (hdec ▸ ht) hs⟩
  | false =>
    have henc : t.enc = s.enc := congrArg Prod.fst (exec_encSide hi h)
    simp only [engineOf, hi, Bool.false_eq_true, if_false] at hown
    exact ⟨fun hs ht => absurd (henc ▸ ht) hs, fun hs ht => hown hs h ht⟩

/-! ### The way out of FAULT -/

/-- What answers a next state was enabled (rule R109). -/
theorem enabled_of_exec {i : Instr} {s t : State} (h : exec i s = .next t) : enabled i s = true := by
  by_contra hnot
  rw [operationsStopWhereNotEnabled i s (by simpa using hnot)] at h
  cases h

/-- The stream operations, which rule R83 enables in every phase. -/
inductive StreamOp : Instr → Prop
  | putBits (v n : Nat) : StreamOp (.putBits v n)
  | getBits (n : Nat) : StreamOp (.getBits n)
  | close (x : Engine) : StreamOp (.close x)
  | writeBytes (q : Bytes) : StreamOp (.writeBytes q)
  | readAllBytes : StreamOp .readAllBytes

theorem getBits_ne_ended (n : Nat) (s t : State) : getBits n s ≠ .ended t := by
  unfold getBits
  split
  · exact Run.bind_ne_ended (fun _ => readDec_ne_ended) (fun r _ _ => by
      cases peekBits r.src r.bitpos n with
      | none => exact Run.go_ne_ended _ _ _
      | some v => exact Run.go_ne_ended _ _ _) t
  · exact Run.fault_ne_ended _ _

/-- A stream operation is no part of a step: it writes no phase (rules R72 to R76). -/
theorem StreamOp.keeps_phases {i : Instr} {s t : State} (hi : StreamOp i) (h : exec i s = .next t) :
    t.enc.phase = s.enc.phase ∧ t.dec.phase = s.dec.phase := by
  cases hi with
  | putBits v n =>
    obtain ⟨_, hgo⟩ | hended := Run.outcome_eq_next.1 h
    · obtain ⟨o, -, -, -, -, rfl⟩ := putBits_eq_go hgo; exact ⟨rfl, rfl⟩
    · exact absurd hended putBits_ne_ended
  | getBits n =>
    obtain ⟨_, u, hgo, rfl⟩ | hended := Run.outcomeRet_eq_next.1 h
    · have hu := (getBits_writesRegs n s).of_go hgo
      exact ⟨congrArg (·.enc.phase) hu, congrArg (·.dec.phase) hu⟩
    · exact absurd hended (getBits_ne_ended n s t)
  | close x =>
    exact Run.Ensures.outcome (E := fun t => t.enc.phase = s.enc.phase ∧ t.dec.phase = s.dec.phase)
      (closeSink_keeps_phases x s) h
  | writeBytes q =>
    obtain ⟨_, hgo⟩ | hended := Run.outcome_eq_next.1 h
    · obtain ⟨o, -, -, rfl⟩ := writeBytes_eq_go hgo; exact ⟨rfl, rfl⟩
    · exact absurd hended writeBytes_ne_ended
  | readAllBytes => cases h; exact ⟨rfl, rfl⟩

/-- Command word 000 is accepted in FAULT and raises again (rule R105). -/
theorem encCommand_illegal_faults {s t : State} (hrun : s.running .enc = false) (h : encCommand 0 s = .next t) :
    t.enc.phase = .fault := by
  rw [(encCommand_of_not_running 0 hrun).1, encStart_illegal rfl] at h
  cases h
  rfl

/-- Command words 101, 110 and 111 are accepted in FAULT and raise again (rule R105). -/
theorem decCommand_illegal_faults {low : BitVec 2} (hlow : low ≠ 0) {s t : State} (hrun : s.running .dec = false)
    (h : decCommand low s = .next t) : t.dec.phase = .fault := by
  rw [(decCommand_of_not_running low hrun).1, decStart_illegal hlow] at h
  cases h
  rfl

/-- In FAULT the Encoder takes commands and stream operations only; of these the STARTs alone write its phase. -/
theorem enc_start_of_leaves_fault {i : Instr} {s t : State} (hi : i.onEncoder = true) (h : exec i s = .next t)
    (hs : s.enc.phase = .fault) (ht : t.enc.phase ≠ .fault) :
    i ∈ [.compressN, .compressR, .compressM] ∨ ∃ m, i = .encStart m := by
  have hrun : s.running .enc = false := by simp [State.running, hs]
  have hen := enabled_of_exec h
  have stream (hop : StreamOp i) : False := ht ((hop.keeps_phases h).1.trans hs)
  cases i with
  | compressN | compressR | compressM => exact .inl (by simp)
  | encStart m => exact .inr ⟨m, rfl⟩
  | illegalCmd000 => exact absurd (encCommand_illegal_faults hrun h) ht
  | putBits v n => exact (stream (.putBits v n)).elim
  | readAllBytes => exact (stream .readAllBytes).elim
  | close x => exact (stream (.close x)).elim
  | wcInit x | wcReached x | wcGrow x | rpSaturated x | rpAccount x | rpEval x | rpEvalNone x | rpEvalFullReset x
  | rpEvalRatioBaseline x | rpEvalRatioCompare x | dictReset x =>
    cases x with
    | enc => cases hrun.symm.trans hen
    | dec => cases hi
  | _ => simp [Instr.onEncoder, enabled, hrun] at hi hen

/-- In FAULT the Decoder takes commands, tags and stream operations only; of these the STARTs alone write its phase. -/
theorem dec_start_of_leaves_fault {i : Instr} {s t : State} (hi : i.onEncoder = false) (h : exec i s = .next t)
    (hs : s.dec.phase = .fault) (ht : t.dec.phase ≠ .fault) :
    i ∈ [.expand, .tagNone, .tagFullReset, .tagRatioMonitored] ∨ (∃ m, i = .tagIllegal m) ∨ ∃ l, i = .decStart l := by
  have hrun : s.running .dec = false := by simp [State.running, hs]
  have hen := enabled_of_exec h
  have stream (hop : StreamOp i) : False := ht ((hop.keeps_phases h).2.trans hs)
  cases i with
  | expand | tagNone | tagFullReset | tagRatioMonitored => exact .inl (by simp)
  | tagIllegal m => exact .inr (.inl ⟨m, rfl⟩)
  | decStart l => exact .inr (.inr ⟨l, rfl⟩)
  | illegalCmd101 | illegalCmd110 | illegalCmd111 => exact absurd (decCommand_illegal_faults (by decide) hrun h) ht
  | getBits n => exact (stream (.getBits n)).elim
  | writeBytes q => exact (stream (.writeBytes q)).elim
  | close x => exact (stream (.close x)).elim
  | wcInit x | wcReached x | wcGrow x | rpSaturated x | rpAccount x | rpEval x | rpEvalNone x | rpEvalFullReset x
  | rpEvalRatioBaseline x | rpEvalRatioCompare x | dictReset x =>
    cases x with
    | enc => cases hi
    | dec => cases hrun.symm.trans hen
  | _ => simp [Instr.onEncoder, enabled, hrun, hs] at hi hen

/-- Settles O8: an instruction that takes an engine out of FAULT is one of its own, and one that FAULT enables. -/
theorem faultIsLeftOnlyByStart : Obligations.FaultIsLeftOnlyByStart := by
  intro i s t h
  cases hi : i.onEncoder with
  | true =>
    have hdec : t.dec = s.dec := congrArg Prod.fst (exec_decSide hi h)
    exact ⟨enc_start_of_leaves_fault hi h, fun hs ht => absurd (hdec ▸ hs) ht⟩
  | false =>
    have henc : t.enc = s.enc := congrArg Prod.fst (exec_encSide hi h)
    exact ⟨fun hs ht => absurd (henc ▸ hs) ht, dec_start_of_leaves_fault hi h⟩

end Sys2Proof.Machine

/-! ## Proofs: the round trip (RoundTripIsLossless)

The Decoder runs one codeword behind the Encoder (rule R49). The induction is over the Encoder's steps: from the state in
which the Encoder is about to write the codeword of `q`, it runs to phase DONE, and every Decoder that has just read this
codeword and holds the Encoder's dictionary runs to the end of the stream that the Encoder will have written. -/

namespace Sys2Proof.Machine

/-! ### Runs -/

/-- Some number of steps leads from `s` to `t`. -/
def Reaches (s t : State) : Prop := ∃ k, core.run k s = .next t

theorem Reaches.refl (s : State) : Reaches s s := ⟨0, rfl⟩

theorem Reaches.of_step {s t u : State} (hstep : step s = .next t) (h : Reaches t u) : Reaches s u := by
  obtain ⟨k, hk⟩ := h
  have hcore : core.step s = .next t := hstep
  exact ⟨k + 1, by simpa only [Host.Core.run, hcore] using hk⟩

/-! ### The policy outside mode RatioMonitored -/

/-- The policy resets the dictionary: mode FullReset at saturation (rule R136). -/
def Common.fires (c : Common) : Bool := decide (c.count = 65536 ∧ c.mode = .fullReset)

/-- In modes None and FullReset RP.EVAL writes nothing (rules R134 to R136). -/
theorem evalPolicy_of_ne_ratioMonitored (t : RatioTest) {c : Common} (h : c.mode ≠ .ratioMonitored) :
    evalPolicy t c = some (c.fires, c) := by
  by_cases hsat : c.count = 65536
  case neg => rw [evalPolicy_unsaturated t hsat, Common.fires, decide_eq_false fun hf => hsat hf.1]
  case pos =>
    cases hmode : c.mode with
    | none => simp [evalPolicy_quiet t (.inr hmode), Common.fires, hmode]
    | fullReset => rw [evalPolicy_fullReset t hsat hmode, Common.fires, decide_eq_true ⟨hsat, hmode⟩]
    | ratioMonitored => exact absurd hmode h

/-- The Encoder's registers after ENC.POLICY in modes None and FullReset (rules R139, R154). -/
def EncRegs.policed (r : EncRegs) : EncRegs :=
  { r with common := r.common.afterPolicy r.common.fires, dict := if r.common.fires then Store.seed else r.dict }

/-- The Decoder's registers after DEC.POLICY in modes None and FullReset (rules R139, R174). -/
def DecRegs.policed (d : DecRegs) : DecRegs :=
  { d with common := d.common.afterPolicy d.common.fires, table := if d.common.fires then Store.seed else d.table }

theorem encPolicy_policed {s : State} {r : EncRegs} (hr : s.enc.regs = some r)
    (hmode : r.common.mode ≠ .ratioMonitored) :
    encPolicy s = .go () (s.setEnc r.policed) := by
  rw [encPolicy, applyPolicy_enc_regs hr, evalPolicy_of_ne_ratioMonitored _ hmode]
  rfl

theorem decPolicy_policed {s : State} {d : DecRegs} (hd : s.dec.regs = some d)
    (hmode : d.common.mode ≠ .ratioMonitored) :
    decPolicy s = .go () (s.setDec d.policed) := by
  rw [decPolicy, applyPolicy_dec_regs hd, evalPolicy_of_ne_ratioMonitored _ hmode]
  rfl

/-- The Encoder's registers in the step that covers `q`, between ENC.POLICY and ENC.INSERT: `E@k` of rule R49. -/
def EncRegs.covering (r : EncRegs) (q : Bytes) : EncRegs :=
  { r with common := r.common.accounted q r.common.W }.policed

/-- The Encoder's registers after the ENC.STEP that covers `q`, in modes None and FullReset (rule R151). -/
def EncRegs.next (r : EncRegs) (q : Bytes) : EncRegs := (r.covering q).advanced q

/-- The Decoder's registers in the step that writes `q`, between DEC.POLICY and DEC.READ: `D@k` of rule R49. -/
def DecRegs.covering (d : DecRegs) (q : Bytes) : DecRegs :=
  { d with common := d.common.accounted q d.common.W }.policed

/-! ### The Encoder's registers over a step -/

@[simp] theorem Common.encGrown_mode (c : Common) : c.encGrown.mode = c.mode := by unfold Common.encGrown; split <;> rfl
@[simp] theorem Common.decGrown_mode (c : Common) : c.decGrown.mode = c.mode := by unfold Common.decGrown; split <;> rfl
@[simp] theorem Common.afterPolicy_mode (fire : Bool) (c : Common) : (c.afterPolicy fire).mode = c.mode := by
  cases fire <;> rfl

section
variable (e : EncRegs) (q : Bytes)

@[simp] theorem EncRegs.advanced_inp : (e.advanced q).inp = e.inp := by unfold EncRegs.advanced; split <;> rfl
@[simp] theorem EncRegs.advanced_pos : (e.advanced q).pos = e.pos + q.length := by
  unfold EncRegs.advanced; split <;> rfl
@[simp] theorem EncRegs.advanced_mode : (e.advanced q).common.mode = e.common.mode := by
  unfold EncRegs.advanced; split <;> simp
@[simp] theorem EncRegs.next_inp : (e.next q).inp = e.inp := (e.covering q).advanced_inp q
@[simp] theorem EncRegs.next_pos : (e.next q).pos = e.pos + q.length := (e.covering q).advanced_pos q
@[simp] theorem EncRegs.next_mode : (e.next q).common.mode = e.common.mode :=
  ((e.covering q).advanced_mode q).trans (Common.afterPolicy_mode _ _)

end

/-- Sub-steps 4 to 6 keep the invariant (rules R155 to R157). -/
theorem EncRegs.Mid.advanced {e : EncRegs} {q : Bytes} {bits : Nat} (h : e.Mid q 1 bits) (hq : q ≠ [])
    (hnew : e.pos + q.length < e.inp.length → e.dict.codeOf (insertKey q e) = none) : (e.advanced q).Inv bits := by
  rw [EncRegs.inv_iff_mid]
  by_cases hroom : e.pos + q.length < e.inp.length ∧ e.common.count < e.common.L
  · have hkey : 2 ≤ (insertKey q e).length := by
      have hpos := List.length_pos_iff.2 hq
      rw [length_insertKey hroom.1]; omega
    rw [EncRegs.advanced, if_pos hroom]
    exact (h.insert hroom.2 hkey (hnew hroom.1)).grow.advance
  · rw [EncRegs.advanced, if_neg hroom]
    exact h.less_room.grow.advance

/-- The match with one more byte is a new key, after a reset too (rules R63, R155). -/
theorem EncRegs.codeOf_insertKey_covering {r : EncRegs} {q : Bytes} {c : Nat}
    (hmatch : r.dict.longestMatch (r.inp.drop r.pos) = some (q, c)) (hnext : r.pos + q.length < r.inp.length) :
    (r.covering q).dict.codeOf (insertKey q (r.covering q)) = none := by
  have hpos := List.length_pos_iff.2 (Store.longestMatch_sound hmatch).2.1
  have hseed : Store.seed.codeOf (insertKey q r) = none :=
    Store.codeOf_seed_of_two_le (by rw [length_insertKey hnext]; omega)
  have hdict : r.dict.codeOf (insertKey q r) = none :=
    Store.codeOf_longer_than_match hmatch (by rw [List.length_drop]; omega)
  change (if _ then Store.seed else r.dict).codeOf (insertKey q r) = none
  split
  · exact hseed
  · exact hdict

section
variable {r : EncRegs} {bits : Nat} (h : r.Inv bits)
include h

theorem EncRegs.Inv.exists_match (hpos : r.pos < r.inp.length) :
    ∃ q c, r.dict.longestMatch (r.inp.drop r.pos) = some (q, c) :=
  h.dict.exists_longestMatch (by rwa [ne_eq, List.drop_eq_nil_iff, not_le])

variable {q : Bytes} {c : Nat} (hmatch : r.dict.longestMatch (r.inp.drop r.pos) = some (q, c))
include hmatch

theorem EncRegs.Inv.read_match : r.dict.read c = some q :=
  Store.read_of_mem h.dict.canonical (Store.longestMatch_sound hmatch).1

/-- The codeword of a match fits the width and is not EOF (rules R46, R48). -/
theorem EncRegs.Inv.match_code : c < 2 ^ r.common.W ∧ c ≠ 256 := by
  have hread := h.read_match hmatch
  have hassigned := (h.dict.assigned c).1 (hread ▸ Option.some_ne_none q)
  refine ⟨?_, by omega⟩
  calc c < r.common.count := h.dict.code_lt h.common.seeded hread
    _ ≤ r.common.L := h.common.bounded
    _ = 2 ^ r.common.W := h.common.capacity

theorem EncRegs.Inv.match_within : r.pos + q.length ≤ r.inp.length := by
  have hlen : q.length ≤ r.inp.length - r.pos :=
    List.length_drop ▸ (Store.longestMatch_sound hmatch).2.2.length_le
  have hcursor := h.cursor
  omega

variable (hmode : r.common.mode ≠ .ratioMonitored)
include hmode

theorem EncRegs.Inv.covering : (r.covering q).Mid q 1 (bits + r.common.W) :=
  ((EncRegs.inv_iff_mid.1 h).emit (h.match_within hmatch)).policy
    (evalPolicy_of_ne_ratioMonitored .exact hmode)

theorem EncRegs.Inv.next : (r.next q).Inv (bits + r.common.W) :=
  (h.covering hmatch hmode).advanced (Store.longestMatch_sound hmatch).2.1 (EncRegs.codeOf_insertKey_covering hmatch)

end

/-! ### The Encoder's steps -/

/-- The Encoder runs alone, in mode None or FullReset, between steps. -/
structure Compressing (s : State) (r : EncRegs) (o : BitSink) : Prop where
  ready : EncReady s r o
  alone : s.host = []
  mode : r.common.mode ≠ .ratioMonitored
  inv : r.Inv o.bits.length

section
variable {s : State} {r : EncRegs} {o : BitSink} (h : Compressing s r o)
include h

theorem Compressing.moves : Moves s .enc s := .inr ⟨h.alone, rfl, (if_pos h.ready.phase).symm⟩

/-- One ENC.STEP (rules R151 to R157). -/
theorem Compressing.step {q : Bytes} {c : Nat} (hpos : r.pos < r.inp.length)
    (hmatch : r.dict.longestMatch (r.inp.drop r.pos) = some (q, c)) :
    ∃ t, Machine.step s = .next t ∧ Compressing t (r.next q) { o with bits := o.bits ++ natBits r.common.W c } := by
  have ⟨hready, halone, hmode, hinv⟩ := h
  have hW := hinv.common.width
  have hfits : seqFits s.params.seqMax q = true := hready.unbounded.2 ▸ seqFits_none q
  have hlookup : encLookup s = .go (q, c) s := encLookup_eq_go.2 ⟨rfl, hfits, r, hready.regs, hmatch⟩
  have hemit := encEmit_ready q hready ⟨by omega, hW.2⟩ (hinv.match_code hmatch).1
  have hcan := (hinv.covering hmatch hmode).canInsert (EncRegs.codeOf_insertKey_covering hmatch)
  have hpolicy : encPolicy (s.emitted r o q c) = .go () ((s.emitted r o q c).setEnc (r.covering q)) :=
    encPolicy_policed rfl hmode
  have hregs := State.setEnc_regs (r.covering q) (s.emitted r o q c)
  have hbody : encStepBody s = .go () ((s.emitted r o q c).setEnc (r.next q)) := by
    simp only [encStepBody, hlookup, Run.bind_go, hemit, hpolicy]
    rw [encInsert_grow_advance hregs hcan hready.unbounded.2, State.setEnc_setEnc, EncRegs.next]
  refine ⟨(s.emitted r o q c).setEnc (r.next q), ?_, ⟨hready.phase, rfl, rfl, hready.isOpen, hready.unbounded⟩,
    halone, ?_, ?_⟩
  · rw [step_of_moves h.moves (engineInstr_enc_of_input_left hready.phase hready.regs hpos), exec,
      execEncStep_of_input_left hready.phase hready.regs hpos, hbody, Run.outcome_go]
  · simpa using hmode
  · simpa using hinv.next hmatch hmode

/-- ENC.FINISH (rule R158). -/
theorem Compressing.finish (hpos : r.pos = r.inp.length) : ∃ t, Machine.step s = .next t ∧
    t.enc.phase = .done ∧ t.enc.regs = some r ∧
    t.enc.out = some (BitSink.close { o with bits := o.bits ++ natBits r.common.W 256 }) := by
  have hready := h.ready
  refine ⟨{ s with enc := { s.enc with
    phase := .done, out := some (BitSink.close { o with bits := o.bits ++ natBits r.common.W 256 }) } },
    ?_, rfl, hready.regs, rfl⟩
  rw [step_of_moves h.moves (engineInstr_enc_of_no_input_left hready.phase hready.regs hpos.ge), exec,
    execEncFinish_of_no_input_left hready.phase hready.regs hpos,
    encFinishBody_open hready.regs hready.out hready.isOpen h.inv.common.width, Run.outcome_go]

end

/-! ### The Decoder lags one codeword behind (rule R49) -/

/-- The Decoder's growth does not look at the counter `C` (rule R121). -/
theorem Common.decGrown_set_C (c : Common) (n : Nat) : Common.decGrown { c with C := n } = { c.decGrown with C := n } := by
  unfold Common.decGrown
  dsimp only
  split <;> rfl

/-- The Decoder's shared registers, one codeword behind the Encoder's. Rule R49 gives both one width; but one below the
capacity the Decoder has grown already, and the Encoder grows with the insertion that follows (rules R121, R181). The
counter `C` may differ (rule R236). -/
def Common.Lags (d e : Common) : Prop := ∃ n, d = { e.decGrown with C := n }

section
variable {d e : Common} (h : d.Lags e)
include h

theorem Common.Lags.count : d.count = e.count := by
  obtain ⟨n, rfl⟩ := h; exact e.decGrown_count

theorem Common.Lags.mode : d.mode = e.mode := by
  obtain ⟨n, rfl⟩ := h; exact e.decGrown_mode

theorem Common.Lags.width : d.W = e.decGrown.W := by
  obtain ⟨n, rfl⟩ := h; rfl

theorem Common.Lags.fires : d.fires = e.fires := by rw [Common.fires, h.count, h.mode, Common.fires]

/-- Both have room for an entry, or neither has. -/
theorem Common.Lags.room : d.count < d.L ↔ e.count < e.L := by
  obtain ⟨n, rfl⟩ := h
  unfold Common.decGrown
  split
  · show e.count < 2 * e.L ↔ e.count < e.L
    omega
  · exact Iff.rfl

theorem Common.Lags.accounted (q : Bytes) (w w' : Nat) : (d.accounted q w).Lags (e.accounted q w') := by
  obtain ⟨n, rfl⟩ := h
  refine ⟨n + w, ?_⟩
  unfold Common.decGrown Common.accounted
  dsimp only
  split <;> rfl

theorem Common.Lags.afterReset : d.afterReset.Lags e.afterReset := by
  obtain ⟨n, rfl⟩ := h
  refine ⟨n, ?_⟩
  unfold Common.decGrown
  split <;> rfl

theorem Common.Lags.decGrown : d.decGrown.Lags e.decGrown := by
  obtain ⟨n, rfl⟩ := h; exact ⟨n, e.decGrown.decGrown_set_C n⟩

end

/-- The Encoder's growth after an insertion is the Decoder's growth one codeword earlier (rules R121, R181). -/
theorem Common.encGrown_insert (c : Common) :
    Common.encGrown { c with count := c.count + 1 } = { c.decGrown with count := c.count + 1 } := by
  unfold Common.encGrown Common.decGrown
  dsimp only
  split <;> rfl

theorem Common.encGrown_of_room {c : Common} (h : c.W < 16 → c.count + 1 ≤ c.L) : c.encGrown = c :=
  if_neg (by omega)

theorem Common.decGrown_of_full {c : Common} (h : ¬ c.count < c.L) : c.decGrown = c :=
  if_neg (by omega)

theorem Common.Lags.insert {d e : Common} (h : d.Lags e) :
    (Common.decGrown { d with count := d.count + 1 }).Lags (Common.encGrown { e with count := e.count + 1 }) := by
  rw [Common.encGrown_insert, h.count]
  obtain ⟨n, rfl⟩ := h
  exact ⟨n, Common.decGrown_set_C { e.decGrown with count := e.count + 1 } n⟩

/-- The Decoder holds what the Encoder holds, and `D.val` is what the Encoder's step covers (rule R49). -/
structure DecRegs.Lags (d : DecRegs) (e : EncRegs) (q : Bytes) : Prop where
  common : d.common.Lags e.common
  table : d.table = e.dict
  val : d.val = some q

theorem DecRegs.Lags.taken {d : DecRegs} {e : EncRegs} {q : Bytes} (h : d.Lags e q) (w : Nat) : (d.taken w).Lags e q :=
  ⟨h.common, h.table, h.val⟩

/-- The lag through output and policy of the Decoder, emission and policy of the Encoder. -/
theorem DecRegs.Lags.covering {d : DecRegs} {e : EncRegs} {q : Bytes} (h : d.Lags e q) :
    (d.covering q).Lags (e.covering q) q := by
  have hc : (d.common.accounted q d.common.W).Lags (e.common.accounted q e.common.W) := h.common.accounted q _ _
  refine ⟨?_, ?_, h.val⟩
  · change Common.Lags (Common.afterPolicy _ _) (Common.afterPolicy _ _)
    rw [hc.fires]
    cases (e.common.accounted q e.common.W).fires with
    | false => exact hc
    | true => exact hc.afterReset
  · change (if _ then Store.seed else d.table) = (if _ then Store.seed else e.dict)
    rw [hc.fires, h.table]

section
variable {d : DecRegs} {e : EncRegs} {q p : Bytes} {b : Byte} {bits : Nat} (h : d.Lags e q) (hmid : e.Mid q 1 bits)
include hmid

/-- Where input is left after `q`, the Encoder's next width is the one the Decoder has grown to. -/
theorem EncRegs.Mid.advanced_width (hnext : e.pos + q.length < e.inp.length) :
    (e.advanced q).common.W = e.common.decGrown.W := by
  by_cases hroom : e.common.count < e.common.L
  · rw [EncRegs.advanced, if_pos ⟨hnext, hroom⟩]
    exact congrArg (·.W) e.common.encGrown_insert
  · rw [EncRegs.advanced, if_neg fun hn => hroom hn.2, Common.decGrown_of_full hroom]
    exact congrArg (·.W) (Common.encGrown_of_room hmid.room)

/-- Where no input is left, the Encoder's width is the one the Decoder has grown to but on a growth point (rule R235). -/
theorem EncRegs.Mid.advanced_width_last (hq : q ≠ []) (hlast : e.pos + q.length = e.inp.length)
    (hgrowth : ¬ EndsOnGrowth (e.advanced q)) : (e.advanced q).common.W = e.common.decGrown.W := by
  have hadv : e.advanced q = { e with pos := e.pos + q.length } := by
    rw [EncRegs.advanced, if_neg (by omega), Common.encGrown_of_room hmid.room]
  have hpos := List.length_pos_iff.2 hq
  have hinp : 0 < e.inp.length := by omega
  rw [hadv] at hgrowth ⊢
  have hne : ¬ (e.common.count + 1 = e.common.L ∧ e.common.W < 16) := fun hg => hgrowth ⟨hinp, hg⟩
  rw [Common.decGrown, if_neg hne]

include h

/-- The entry that the Encoder adds after `q` is the one that the Decoder adds when it has resolved the next codeword
(rules R155, R177). -/
theorem DecRegs.Lags.advanced (hnext : e.pos + q.length < e.inp.length)
    (hkey : (e.inp.drop e.pos).take (q.length + 1) = q ++ [b]) : (d.advanced q p b).Lags (e.advanced q) p := by
  by_cases hroom : e.common.count < e.common.L
  · rw [DecRegs.advanced, if_pos (h.common.room.2 hroom), EncRegs.advanced, if_pos ⟨hnext, hroom⟩, hkey]
    exact ⟨h.common.insert, by rw [← h.table, ← h.common.count], rfl⟩
  · rw [DecRegs.advanced, if_neg (mt h.common.room.1 hroom), EncRegs.advanced, if_neg fun hn => hroom hn.2,
      Common.encGrown_of_room hmid.room]
    refine ⟨?_, h.table, rfl⟩
    have hd := h.common.decGrown
    rwa [Common.decGrown_of_full hroom] at hd

/-- The codeword that the Encoder writes next resolves to its sequence, be it in the table or the next one to be assigned
(rules R97, R176). -/
theorem DecRegs.Lags.resolve {t : State} {c : Nat} (hd : t.dec.regs = some d) (hmax : t.params.seqMax = none)
    (hq : q ≠ []) (hkey : (e.inp.drop e.pos).take (q.length + 1) = q ++ [b])
    (hread : (e.advanced q).dict.read c = some (b :: p)) : decResolve c t = .go (b :: p) t := by
  have hfits (p : Bytes) : seqFits t.params.seqMax p = true := hmax ▸ seqFits_none p
  have assigned (hold : e.dict.read c = some (b :: p)) : decResolve c t = .go (b :: p) t := by
    have hcount := hmid.dict.code_lt hmid.common.seeded hold
    exact decResolve_assigned hd (h.common.count ▸ hcount)
      (hcount.trans_le (hmid.common.bounded.trans hmid.common.capacity_le)) (h.table ▸ hold) (hfits _)
  by_cases hroom : e.pos + q.length < e.inp.length ∧ e.common.count < e.common.L
  case neg =>
    rw [EncRegs.advanced, if_neg hroom] at hread
    exact assigned hread
  case pos =>
    rw [EncRegs.advanced, if_pos hroom, hkey] at hread
    by_cases hc : c = e.common.count
    case neg => exact assigned (Store.read_write_other hc _ _ ▸ hread)
    case pos =>
      obtain ⟨f, q', rfl⟩ := List.exists_cons_of_ne_nil hq
      rw [hc, Store.read_write_same, List.cons_append, Option.some.injEq, List.cons.injEq] at hread
      obtain ⟨rfl, rfl⟩ := hread
      exact decResolve_kwkwk hd (hc.trans h.common.count.symm) h.val (hfits _)

end

/-- Where a match follows the match `q`, the entry after `q` ends in its first byte (rules R155, R177). -/
theorem EncRegs.key_of_matches {e : EncRegs} {q p : Bytes} {c₀ c : Nat}
    (hmatch : e.dict.longestMatch (e.inp.drop e.pos) = some (q, c₀))
    (hnext : (e.next q).dict.longestMatch ((e.next q).inp.drop (e.next q).pos) = some (p, c)) :
    ∃ b p', p = b :: p' ∧ e.pos + q.length < e.inp.length ∧ (e.inp.drop e.pos).take (q.length + 1) = q ++ [b] := by
  obtain ⟨-, -, tail, htail⟩ := Store.longestMatch_sound hmatch
  obtain ⟨-, hp, rest, hrest⟩ := Store.longestMatch_sound hnext
  obtain ⟨b, p', rfl⟩ := List.exists_cons_of_ne_nil hp
  rw [EncRegs.next_inp, EncRegs.next_pos, ← List.drop_drop, ← htail, List.drop_left] at hrest
  have hlen := congrArg List.length htail
  simp only [← hrest, List.length_append, List.length_cons, List.length_drop] at hlen
  refine ⟨b, p', rfl, by omega, ?_⟩
  rw [← htail, ← hrest, List.take_length_add_append]
  rfl

/-! ### The Decoder's steps -/

/-- The codeword at the end of the bits that were taken, on the packed stream (rules R72, R73). -/
theorem peekBits_of_prefix {seen bits : Bits} {v n : Nat} (h : seen ++ natBits n v <+: bits) (hv : v < 2 ^ n)
    (hdvd : 8 ∣ bits.length) : peekBits (packBytes bits) seen.length n = some v := by
  obtain ⟨after, rfl⟩ := h
  exact getBitsReadsWhatPutBitsPut seen after v n hv hdvd

/-- The Decoder's open output when it holds the input that the Encoder has covered. -/
def EncRegs.coveredOut (e : EncRegs) : ByteSink := { bytes := e.inp.take e.pos, closed := false }

theorem EncRegs.coveredOut_append {e : EncRegs} {q : Bytes} (hq : q <+: e.inp.drop e.pos) :
    { e.coveredOut with bytes := e.coveredOut.bytes ++ q } = (e.next q).coveredOut := by
  simp [EncRegs.coveredOut, List.take_add, ← List.prefix_iff_eq_take.1 hq]

/-- The Decoder runs alone in phase LOOP, has taken the bits `seen` of the stream `bits`, and lags behind an Encoder with
the registers `e` whose step covers `q`. -/
structure Expanding (s : State) (d : DecRegs) (e : EncRegs) (q : Bytes) (seen bits : Bits) : Prop where
  ready : LoopReady s d e.coveredOut q
  alone : s.host = [] ∧ s.enc.phase ≠ .step
  noFault : s.dec.fault = .none
  lags : d.Lags e q
  src : d.src = packBytes bits
  bitpos : d.bitpos = seen.length

/-- The Decoder finishes with the output `X`. -/
def Expands (s : State) (X : Bytes) : Prop :=
  ∃ t, Reaches s t ∧ t.dec.phase = .done ∧ t.dec.fault = .none ∧ t.dec.out = some { bytes := X, closed := true }

theorem Expands.of_step {s t : State} {X : Bytes} (hstep : step s = .next t) (h : Expands t X) : Expands s X := by
  obtain ⟨u, hreach, hu⟩ := h
  exact ⟨u, .of_step hstep hreach, hu⟩

theorem moves_dec {s : State} (h : s.host = [] ∧ s.enc.phase ≠ .step) : Moves s .dec s :=
  .inr ⟨h.1, rfl, (if_neg h.2).symm⟩

/-- The state of a DEC.STEP between DEC.POLICY and DEC.READ, in modes None and FullReset (rule R172). -/
def State.policed (s : State) (d : DecRegs) (o : ByteSink) (q : Bytes) : State :=
  (s.written d o q).setDec (d.covering q)

@[simp] theorem DecRegs.advanced_src (d : DecRegs) (q p : Bytes) (b : Byte) : (d.advanced q p b).src = d.src := by
  unfold DecRegs.advanced; split <;> rfl
@[simp] theorem DecRegs.advanced_bitpos (d : DecRegs) (q p : Bytes) (b : Byte) :
    (d.advanced q p b).bitpos = d.bitpos := by
  unfold DecRegs.advanced; split <;> rfl

section
variable {s : State} {d : DecRegs} {e : EncRegs} {q : Bytes} {seen bits : Bits} {n c₀ : Nat}
  (h : Expanding s d e q seen bits) (hinv : e.Inv n) (hmode : e.common.mode ≠ .ratioMonitored)
  (hmatch : e.dict.longestMatch (e.inp.drop e.pos) = some (q, c₀)) (hdvd : 8 ∣ bits.length)
include h hmode

/-- A step is a DEC.STEP, whose output and policy go on (rules R172 to R174). -/
theorem Expanding.step_eq : step s = ((decRead readUnit (s.policed d e.coveredOut q)).bind fun c s =>
    (decResolve c s).bind fun p s => (decInsert p s).bind fun _ s => (decGrow s).bind fun _ s =>
      decAdvance p s).outcome := by
  have hp := h.ready.phase
  have hpolicy : decPolicy (s.written d e.coveredOut q) = .go () (s.policed d e.coveredOut q) :=
    decPolicy_policed rfl (h.lags.common.mode ▸ hmode)
  rw [step_of_moves_loop (moves_dec h.alone) hp, exec_loopInstr hp, exec_decStep hp]
  simp only [decStepBody, decOutput_ready h.ready, hpolicy, Run.bind_go]

include hinv hmatch hdvd

/-- The Decoder reads what the Encoder writes at its next width, where this is the one that the Decoder has grown to. -/
theorem Expanding.read {c : Nat} (hwidth : (e.next q).common.W = (e.covering q).common.decGrown.W)
    (hc : c < 2 ^ (e.next q).common.W) (hbits : seen ++ natBits (e.next q).common.W c <+: bits) :
    readUnit (s.policed d e.coveredOut q) =
      .go (some c) ((s.written d e.coveredOut q).setDec ((d.covering q).taken (e.next q).common.W)) := by
  have hW := (hinv.next hmatch hmode).common.width
  have heq : (d.covering q).common.W = (e.next q).common.W := h.lags.covering.common.width.trans hwidth.symm
  have hpeek : peekBits d.src d.bitpos (e.next q).common.W = some c := by
    rw [h.src, h.bitpos]
    exact peekBits_of_prefix hbits hc hdvd
  rw [← heq] at hW hpeek ⊢
  exact readUnit_of_peek (State.setDec_regs (d.covering q) _) ⟨by omega, hW.2⟩ hpeek

/-- DEC.STEP on the codeword of the Encoder's next match (rules R172 to R179). -/
theorem Expanding.step {p : Bytes} {c : Nat}
    (hnext : (e.next q).dict.longestMatch ((e.next q).inp.drop (e.next q).pos) = some (p, c))
    (hbits : seen ++ natBits (e.next q).common.W c <+: bits) :
    ∃ t u, Machine.step s = .next t ∧ Expanding t u (e.next q) p (seen ++ natBits (e.next q).common.W c) bits := by
  have hmid := hinv.covering hmatch hmode
  have hinv' := hinv.next hmatch hmode
  obtain ⟨-, hq, hqprefix⟩ := Store.longestMatch_sound hmatch
  obtain ⟨b, p, rfl, hleft, hkey⟩ := EncRegs.key_of_matches hmatch hnext
  have ⟨hc, hne⟩ := hinv'.match_code hnext
  have hread := h.read hinv hmode hmatch hdvd (hmid.advanced_width hleft) hc hbits
  have hlags := h.lags.covering.taken (e.next q).common.W
  have hregs := State.setDec_regs ((d.covering q).taken (e.next q).common.W) (s.written d e.coveredOut q)
  have hmax := h.ready.unbounded.2
  have hresolve := hlags.resolve hmid hregs hmax hq hkey (hinv'.read_match hnext)
  have hcode (hroom : (d.covering q).common.count < (d.covering q).common.L) : (d.covering q).common.count < 65536 :=
    hlags.common.count ▸ (hlags.common.room.1 hroom).trans_le hmid.common.capacity_le
  have hadvanced := hlags.advanced (p := b :: p) hmid hleft hkey
  refine ⟨(s.written d e.coveredOut q).setDec (((d.covering q).taken (e.next q).common.W).advanced q (b :: p) b), _, ?_,
    ⟨h.ready.phase, rfl, congrArg some (EncRegs.coveredOut_append hqprefix), rfl, hadvanced.val, h.ready.unbounded,
      h.ready.account⟩, h.alone, h.noFault, hadvanced, ?_, ?_⟩
  · rw [h.step_eq hmode, decRead_of_codeword hread hne, Run.bind_go, hresolve, Run.bind_go,
      decInsert_grow_advance hregs hlags.val hmax hcode, Run.outcome_go, State.setDec_setDec]
  · rw [DecRegs.advanced_src]; exact h.src
  · rw [DecRegs.advanced_bitpos, List.length_append, natBits_length, ← h.bitpos]; rfl

/-- DEC.STEP on EOF, where the Encoder did not end on a growth point (rules R175, R180, R235). -/
theorem Expanding.finish (hlast : e.pos + q.length = e.inp.length) (hgrowth : ¬ EndsOnGrowth (e.next q))
    (hbits : seen ++ natBits (e.next q).common.W 256 <+: bits) : Expands s e.inp := by
  have hmid := hinv.covering hmatch hmode
  have hW := (hinv.next hmatch hmode).common.width
  obtain ⟨-, hq, hqprefix⟩ := Store.longestMatch_sound hmatch
  have heof : 256 < 2 ^ (e.next q).common.W :=
    calc 256 < 2 ^ 9 := by decide
      _ ≤ _ := Nat.pow_le_pow_right (by decide) hW.1
  have hread := h.read hinv hmode hmatch hdvd (hmid.advanced_width_last hq hlast hgrowth) heof hbits
  have hout : e.coveredOut.bytes ++ q = e.inp := by
    have happend := congrArg (·.bytes) (EncRegs.coveredOut_append hqprefix)
    simpa [EncRegs.coveredOut, hlast] using happend
  have hstep := h.step_eq hmode
  rw [decRead_eof hread rfl, Run.bind_ended, Run.outcome_ended] at hstep
  exact ⟨_, .of_step hstep (.refl _), rfl, h.noFault, congrArg (fun q => some (ByteSink.mk q true)) hout⟩

end

/-! ### The two runs together -/

/-- The Encoder runs to phase DONE, with `seen` at the head of its output; and unless it ends on a growth point, every
Decoder that has taken `seen` and lags behind the registers `e`, whose step covers `q`, expands the output to the
input. -/
def RoundTrips (s : State) (e : EncRegs) (q : Bytes) (seen : Bits) : Prop :=
  ∃ t u o, Reaches s t ∧ t.enc.phase = .done ∧ t.enc.regs = some u ∧ t.enc.out = some o ∧ 8 ∣ o.bits.length ∧
    seen <+: o.bits ∧ (¬ EndsOnGrowth u → ∀ s' d, Expanding s' d e q seen o.bits → Expands s' e.inp)

/-- Closing the sink keeps the bits and makes whole bytes (rule R74). -/
theorem BitSink.close_bits (o : BitSink) : o.bits <+: o.close.bits ∧ 8 ∣ o.close.bits.length := by
  refine ⟨List.prefix_append _ _, ?_⟩
  simpa only [BitSink.close, List.length_append] using dvd_length_padBits _

/-- By induction over the input left to cover: one more step of both engines, or ENC.FINISH and the DEC.STEP that reads
EOF. -/
theorem Compressing.roundTrips {s : State} {e : EncRegs} {o : BitSink} {q : Bytes} {c : Nat} (h : Compressing s e o)
    (hmatch : e.dict.longestMatch (e.inp.drop e.pos) = some (q, c)) :
    RoundTrips s e q (o.bits ++ natBits e.common.W c) := by
  induction hn : e.inp.length - e.pos using Nat.strong_induction_on generalizing s e o q c with
  | _ n ih =>
    have hq := List.length_pos_iff.2 (Store.longestMatch_sound hmatch).2.1
    have hwithin := h.inv.match_within hmatch
    obtain ⟨t, hstep, ht⟩ := h.step (by omega) hmatch
    rcases hwithin.lt_or_eq with hleft | hlast
    · have hpos : (e.next q).pos < (e.next q).inp.length := by simpa using hleft
      obtain ⟨p, c', hnext⟩ := ht.inv.exists_match hpos
      have hmeasure : (e.next q).inp.length - (e.next q).pos < n := by rw [e.next_inp, e.next_pos]; omega
      obtain ⟨t', u, o', hreach, hphase, hregs, hout, hdvd, hseen, hexpands⟩ := ih _ hmeasure ht hnext rfl
      refine ⟨t', u, o', .of_step hstep hreach, hphase, hregs, hout, hdvd, (List.prefix_append _ _).trans hseen, ?_⟩
      intro hgrowth s' d hd
      obtain ⟨s'', d', hstep', hd'⟩ := hd.step h.inv h.mode hmatch hdvd hnext hseen
      exact .of_step hstep' (e.next_inp q ▸ hexpands hgrowth s'' d' hd')
    · obtain ⟨t', hfinish, hphase, hregs, hout⟩ := ht.finish (by simpa using hlast)
      obtain ⟨hbits, hdvd⟩ := BitSink.close_bits { o with
        bits := o.bits ++ natBits e.common.W c ++ natBits (e.next q).common.W 256 }
      refine ⟨t', e.next q, _, .of_step hstep (.of_step hfinish (.refl _)), hphase, hregs, hout, hdvd,
        (List.prefix_append _ _).trans hbits, ?_⟩
      intro hgrowth s' d hd
      exact hd.finish h.inv h.mode hmatch hdvd hlast hgrowth hbits

/-! ### The starts -/

/-- The Encoder's registers right after ENC.START (rule R52). -/
def EncRegs.started (mode : Mode) (X : Bytes) : EncRegs :=
  { common := startCommon mode, dict := Store.seed, inp := X, pos := 0 }

/-- The state after a COMPRESS at power-on. -/
def State.compressing (mode : Mode) (X : Bytes) : State := { State.reset with enc := Encoder.started mode X }

/-- COMPRESS at power-on (rules R104, R150, R230). -/
theorem step_compress_from_reset {m : BitVec 3} (hm : m = 1 ∨ m = 2) (X : Bytes) :
    ∃ mode, mode ≠ .ratioMonitored ∧
      step { State.reset with host := [.command m X] } = .next (State.compressing mode X) := by
  rcases hm with rfl | rfl
  · refine ⟨.none, by decide, (step_of_command rfl rfl).trans ?_⟩
    exact (encCommand_legal (m := 1) (s := { State.reset with byteSource := X }) rfl EncPhase.noConfusion).1
  · refine ⟨.fullReset, by decide, (step_of_command rfl rfl).trans ?_⟩
    exact (encCommand_legal (m := 2) (s := { State.reset with byteSource := X }) rfl EncPhase.noConfusion).1

theorem compressing_started {mode : Mode} (hmode : mode ≠ .ratioMonitored) (X : Bytes) :
    Compressing (State.compressing mode X) (EncRegs.started mode X)
      { bits := natBits 9 (modeNumber mode), closed := false } where
  ready := ⟨rfl, rfl, rfl, rfl, rfl, rfl⟩
  alone := rfl
  mode := hmode
  inv := EncRegs.inv_start mode X

/-- The Decoder's registers right after DEC.START (rule R53). -/
def DecRegs.started (mode : Mode) (bits : Bits) : DecRegs :=
  { common := startCommon mode, table := Store.seed, val := none, readW := none, src := packBytes bits, bitpos := 9 }

/-- The state after an EXPAND at power-on. -/
def State.expanding (mode : Mode) (bits : Bits) : State :=
  { State.reset with dec := Decoder.started mode (packBytes bits) }

/-- EXPAND at power-on, on a stream that begins with a mode tag (rules R91, R104, R170, R230). -/
theorem step_expand_from_reset {mode : Mode} {bits : Bits} (hdvd : 8 ∣ bits.length)
    (htag : natBits 9 (modeNumber mode) <+: bits) :
    step { State.reset with host := [.command 4 (packBytes bits)] } = .next (State.expanding mode bits) := by
  have hpeek : peekBits (packBytes bits) 0 9 = some (modeNumber mode) :=
    peekBits_of_prefix (seen := []) htag (by cases mode <;> decide) hdvd
  have hnumber : modeOfNumber (modeNumber mode) = some mode := by cases mode <;> rfl
  rw [step_of_command rfl rfl, exec_commandInstr]
  exact (expand_eq_startOnTag (s := { State.reset with bitSource := packBytes bits }) rfl hpeek).1.trans
    (startOnTag_legal hnumber rfl)

theorem step_expanding (mode : Mode) (bits : Bits) :
    step (State.expanding mode bits) = (decFirstBody readUnit (State.expanding mode bits)).outcome := by
  rw [step_of_moves_first (moves_dec ⟨rfl, EncPhase.noConfusion⟩) rfl, exec_firstInstr rfl, exec_decFirst rfl]

/-- The first codeword of the stream (rules R92, R171). -/
theorem readUnit_expanding {mode : Mode} {bits : Bits} {c : Nat} (hdvd : 8 ∣ bits.length) (hc : c < 2 ^ 9)
    (hbits : natBits 9 (modeNumber mode) ++ natBits 9 c <+: bits) :
    readUnit (State.expanding mode bits) =
      .go (some c) ((State.expanding mode bits).setDec ((DecRegs.started mode bits).taken 9)) := by
  have hpeek := peekBits_of_prefix hbits hc hdvd
  rw [natBits_length] at hpeek
  exact readUnit_of_peek (r := DecRegs.started mode bits) rfl (by decide : 1 ≤ 9 ∧ 9 ≤ 16) hpeek

/-- DEC.FIRST on EOF (rules R171, R180). -/
theorem expands_empty {mode : Mode} {bits : Bits} (hdvd : 8 ∣ bits.length)
    (hbits : natBits 9 (modeNumber mode) ++ natBits 9 256 <+: bits) : Expands (State.expanding mode bits) [] := by
  have hstep := step_expanding mode bits
  rw [decFirstBody_eof (readUnit_expanding hdvd (by decide) hbits), decFinishBody_out rfl, Run.outcome_go] at hstep
  exact ⟨_, .of_step hstep (.refl _), rfl, rfl, rfl⟩

/-- A match in the seed is a literal (rules R62, R64). -/
theorem seed_match_is_literal {X q : Bytes} {c : Nat} (hmatch : Store.seed.longestMatch X = some (q, c)) :
    Store.seed.read c = some q ∧ c < 256 := by
  have hread := Store.read_of_mem Store.wf_seed (Store.longestMatch_sound hmatch).1
  refine ⟨hread, ?_⟩
  by_contra hc
  rw [Store.read_seed, if_neg hc] at hread
  cases hread

/-- DEC.FIRST on the literal that is the Encoder's first match (rule R171). -/
theorem expanding_after_first {mode : Mode} {bits : Bits} {X q : Bytes} {c : Nat} (hdvd : 8 ∣ bits.length)
    (hmatch : Store.seed.longestMatch X = some (q, c)) (hbits : natBits 9 (modeNumber mode) ++ natBits 9 c <+: bits) :
    ∃ t d, step (State.expanding mode bits) = .next t ∧
      Expanding t d (EncRegs.started mode X) q (natBits 9 (modeNumber mode) ++ natBits 9 c) bits := by
  obtain ⟨hread, hlit⟩ := seed_match_is_literal hmatch
  have hunit := readUnit_expanding hdvd (by omega) hbits
  have hbyte : (BitVec.ofNat 8 c).toNat = c := Nat.mod_eq_of_lt hlit
  rw [← hbyte] at hunit hread
  have hstep := step_expanding mode bits
  rw [decFirstBody_literal hunit (State.setDec_regs _ _) hread rfl, Run.outcome_go] at hstep
  refine ⟨_, { (DecRegs.started mode bits).taken 9 with val := some q }, hstep,
    ⟨rfl, rfl, rfl, rfl, rfl, ⟨rfl, rfl⟩, rfl⟩, ⟨rfl, EncPhase.noConfusion⟩, rfl, ⟨⟨0, rfl⟩, rfl, rfl⟩, rfl, ?_⟩
  rw [List.length_append, natBits_length, natBits_length]
  rfl

/-- From ENC.START the Encoder runs to phase DONE; and unless it ends on a growth point, the Decoder expands the output from
DEC.START on to the input. -/
theorem roundTrip_from_start {mode : Mode} (hmode : mode ≠ .ratioMonitored) (X : Bytes) :
    ∃ t u o, Reaches (State.compressing mode X) t ∧ t.enc.phase = .done ∧ t.enc.regs = some u ∧ t.enc.out = some o ∧
      8 ∣ o.bits.length ∧ natBits 9 (modeNumber mode) <+: o.bits ∧
      (¬ EndsOnGrowth u → Expands (State.expanding mode o.bits) X) := by
  have hstart := compressing_started hmode X
  by_cases hX : X = []
  case pos =>
    subst hX
    obtain ⟨t, hfinish, hphase, hregs, hout⟩ := hstart.finish rfl
    obtain ⟨hbits, hdvd⟩ := BitSink.close_bits
      { bits := natBits 9 (modeNumber mode) ++ natBits 9 256, closed := false }
    exact ⟨t, _, _, .of_step hfinish (.refl _), hphase, hregs, hout, hdvd, (List.prefix_append _ _).trans hbits,
      fun _ => expands_empty hdvd hbits⟩
  case neg =>
    obtain ⟨q, c, hmatch⟩ := hstart.inv.exists_match (List.length_pos_iff.2 hX)
    obtain ⟨t, u, o, hreach, hphase, hregs, hout, hdvd, hseen, hexpands⟩ := hstart.roundTrips hmatch
    refine ⟨t, u, o, hreach, hphase, hregs, hout, hdvd, (List.prefix_append _ _).trans hseen, fun hgrowth => ?_⟩
    obtain ⟨s', d, hstep, hd⟩ := expanding_after_first hdvd hmatch hseen
    exact .of_step hstep (hexpands hgrowth s' d hd)

/-- Settles O14: the Decoder lags one codeword behind the Encoder, step by step, and but on a growth point it reads EOF at
the width at which it was written. -/
theorem roundTripIsLossless : Obligations.RoundTripIsLossless := by
  intro X m hm
  obtain ⟨mode, hmode, hcompress⟩ := step_compress_from_reset hm X
  obtain ⟨e, r, o, hreach, hphase, hregs, hout, hdvd, htag, hexpands⟩ := roundTrip_from_start hmode X
  obtain ⟨k, hk⟩ := Reaches.of_step hcompress hreach
  refine ⟨k, e, r, o, hk, hphase, hregs, hout, fun hgrowth => ?_⟩
  obtain ⟨d, ⟨j, hj⟩, hdone, hfault, hX⟩ := (hexpands hgrowth).of_step (step_expand_from_reset hdvd htag)
  exact ⟨j, d, hj, hdone, congrArg FaultCode.code hfault, hX⟩

end Sys2Proof.Machine

/-! ## Proofs: the mode below saturation (ModeIsIdleBelowSaturation)

Replacing the mode commutes with every sub-step of ENC.STEP; with ENC.POLICY, the only one that reads the mode, it does so
below saturation. -/

namespace Sys2Proof.Machine

/-- The shared registers with the mode replaced. -/
def Common.withMode (m : Mode) (c : Common) : Common := { c with mode := m }

/-- The Encoder's registers with the mode replaced. -/
def EncRegs.withMode (m : Mode) (r : EncRegs) : EncRegs := { r with common := r.common.withMode m }

/-- The state with the Encoder's mode replaced, where its registers hold values. -/
def State.withMode (m : Mode) (s : State) : State :=
  { s with enc := { s.enc with regs := s.enc.regs.map fun r => r.withMode m } }

theorem State.withMode_regs {m : Mode} {s : State} {r : EncRegs} (hr : s.enc.regs = some r) :
    (s.withMode m).enc.regs = some (r.withMode m) := by
  rw [State.withMode, hr, Option.map_some]

theorem State.withMode_eq_setEnc {m : Mode} {s : State} {r : EncRegs} (hr : s.enc.regs = some r) :
    s.withMode m = s.setEnc (r.withMode m) := by
  rw [State.withMode, hr, Option.map_some, State.setEnc]

/-- Replacing the mode before the operation, run on `s`, is replacing it after. -/
def IgnoresMode {α : Type} (m : Mode) (k : State → Run α) (s : State) : Prop :=
  k (s.withMode m) = (k s).mapState (State.withMode m)

namespace IgnoresMode

variable {α β : Type} {m : Mode} {s : State}

theorem bind {k : State → Run α} {l : α → State → Run β} (hk : IgnoresMode m k s)
    (hl : ∀ a t, k s = .go a t → IgnoresMode m (l a) t) : IgnoresMode m (fun s => (k s).bind l) s := by
  unfold IgnoresMode at hk ⊢
  dsimp only
  rw [hk]
  cases h : k s with
  | go a t => exact hl a t h
  | ended t => rfl
  | fault f => rfl
  | refused f => rfl

/-- An operation that first reads the registers. -/
theorem reads {k : EncRegs → State → Run α}
    (hk : ∀ r, s.enc.regs = some r → k (r.withMode m) (s.withMode m) = (k r s).mapState (State.withMode m)) :
    IgnoresMode m (fun s => (readEnc s).bind k) s := by
  unfold IgnoresMode
  cases hr : s.enc.regs with
  | none => simp only [readEnc, State.withMode, hr, Option.map_none, Run.bind_fault, Run.mapState]
  | some r =>
    dsimp only
    rw [readEnc_some hr, readEnc_some (State.withMode_regs hr)]
    exact hk r hr

/-- An operation that first reads the shared registers. -/
theorem readsCommon {k : Common → State → Run α}
    (hk : ∀ c, k (c.withMode m) (s.withMode m) = (k c s).mapState (State.withMode m)) :
    IgnoresMode m (fun s => (readCommon .enc s).bind k) s := by
  simpa only [readCommon, Run.bind_assoc, Run.bind_go] using reads (k := fun r => k r.common) fun r _ => hk r.common

theorem whenEnabled {b : State → Bool} {k : State → Run α} (hb : b (s.withMode m) = b s) (hk : IgnoresMode m k s) :
    IgnoresMode m (fun s => whenEnabled (b s) (k s)) s := by
  unfold IgnoresMode
  dsimp only
  rw [hb]
  cases b s with
  | true => exact hk
  | false => rfl

theorem outcome {k : State → Run α} (hk : IgnoresMode m k s) :
    (k (s.withMode m)).outcome = mapNext (State.withMode m) (k s).outcome := by
  rw [hk]
  cases k s <;> rfl

end IgnoresMode

section
variable (m : Mode) (s : State)

theorem holdSeq_ignoresMode (q : Bytes) : IgnoresMode m (holdSeq q) s := by
  unfold IgnoresMode holdSeq
  change (if seqFits s.params.seqMax q then _ else _) = _
  split <;> rfl

theorem longestPrefix_ignoresMode (rest : Bytes) : IgnoresMode m (longestPrefix rest) s :=
  .reads fun r _ => by
    change (match r.dict.longestMatch rest with | some b => _ | none => _) = _
    cases r.dict.longestMatch rest <;> rfl

theorem encLookup_ignoresMode : IgnoresMode m encLookup s :=
  .reads fun r _ => (longestPrefix_ignoresMode m s (r.inp.drop r.pos)).bind fun found t _ =>
    (holdSeq_ignoresMode m t found.1).bind fun _ _ _ => rfl

theorem putBits_ignoresMode (v n : Nat) : IgnoresMode m (putBits v n) s := by
  unfold IgnoresMode putBits
  split
  case isFalse => rfl
  case isTrue =>
    change (match s.enc.out with | none => _ | some o => _) = _
    cases s.enc.out with
    | none => rfl
    | some o => dsimp only; split <;> rfl

theorem writeCommon_withMode (c : Common) :
    writeCommon .enc (c.withMode m) (s.withMode m) = (writeCommon .enc c s).mapState (State.withMode m) := by
  cases hr : s.enc.regs with
  | none => simp only [writeCommon, readEnc, State.withMode, hr, Option.map_none, Run.bind_fault, Run.mapState]
  | some r => rw [writeCommon_enc hr, writeCommon_enc (State.withMode_regs hr)]; rfl

theorem accountBits_ignoresMode (u c : Nat) : IgnoresMode m (accountBits .enc u c) s :=
  .readsCommon fun d => by
    change (if counterOverflows s.params.cntW (d.U + u) || counterOverflows s.params.cntW (d.C + c) then _ else _) = _
    split
    · rfl
    · exact writeCommon_withMode m s { d with U := d.U + u, C := d.C + c }

theorem encEmit_ignoresMode (q : Bytes) (c : Nat) : IgnoresMode m (encEmit q c) s :=
  .reads fun r _ => (putBits_ignoresMode m s c r.common.W).bind fun _ t _ =>
    accountBits_ignoresMode m t (8 * q.length) r.common.W

theorem dictInsert_ignoresMode (key : Bytes) (code : Nat) : IgnoresMode m (dictInsert key code) s :=
  .reads fun r _ => by
    change (if key = [] ∨ Config.ceiling ≤ code ∨ r.dict.codeOf key ≠ none ∨ r.dict.read code ≠ none then _ else _) = _
    split
    · rfl
    · have hhold : holdSeq key (s.withMode m) = (holdSeq key s).mapState (State.withMode m) := holdSeq_ignoresMode m s key
      rw [hhold]
      cases holdSeq key s <;> rfl

theorem encInsert_ignoresMode (q : Bytes) : IgnoresMode m (encInsert q) s :=
  .reads fun r _ => by
    change (if r.pos + q.length < r.inp.length ∧ r.common.count < r.common.L then _ else _) = _
    split
    · have hinsert : dictInsert (insertKey q r) r.common.count (s.withMode m) =
          (dictInsert (insertKey q r) r.common.count s).mapState (State.withMode m) := dictInsert_ignoresMode m s _ _
      change (dictInsert (insertKey q r) r.common.count (s.withMode m)).bind _ = _
      rw [hinsert]
      cases dictInsert (insertKey q r) r.common.count s with
      | go a t => exact writeCommon_withMode m t { r.common with count := r.common.count + 1 }
      | ended t => rfl
      | fault f => rfl
      | refused f => rfl
    · rfl

theorem encGrow_ignoresMode : IgnoresMode m encGrow s :=
  .readsCommon fun d => by
    change (if capacityReached .enc d then _ else _) = _
    split
    · exact writeCommon_withMode m s (growWidth d)
    · rfl

theorem encAdvance_ignoresMode (q : Bytes) : IgnoresMode m (encAdvance q) s := .reads fun _ _ => rfl

end

section
variable (m : Mode) {s : State} {r : EncRegs} (hr : s.enc.regs = some r) (hcount : r.common.count ≠ 65536)
include hr hcount

/-- Below saturation the policy does nothing in any mode (rule R134). -/
theorem encPolicy_ignoresMode : IgnoresMode m encPolicy s := by
  have hquiet : encPolicy (s.withMode m) = .go () (s.withMode m) :=
    encPolicy_quiet (r := r.withMode m) (State.withMode_regs hr) (.inl hcount)
  rw [IgnoresMode, hquiet, encPolicy_quiet hr (.inl hcount), Run.mapState]

/-- ENC.LOOKUP and ENC.EMIT keep the count, so the policy of the step is the one below saturation. -/
theorem encStepBody_ignoresMode : IgnoresMode m encStepBody s := by
  refine (encLookup_ignoresMode m s).bind fun found t hlookup => ?_
  obtain ⟨rfl, -⟩ := encLookup_eq_go.1 hlookup
  refine (encEmit_ignoresMode m t found.1 found.2).bind fun _ u hemit => ?_
  have hbefore : t.enc.Has r.common.BeforePolicy := ⟨r, hr, rfl, rfl, rfl⟩
  obtain ⟨r', hr', hkept⟩ := (encEmit_width (E := fun _ => True) hbefore).of_go hemit
  refine (encPolicy_ignoresMode m hr' (hkept.count ▸ hcount)).bind fun _ _ _ => ?_
  exact (encInsert_ignoresMode m _ found.1).bind fun _ _ _ => (encGrow_ignoresMode m _).bind fun _ _ _ =>
    encAdvance_ignoresMode m _ found.1

theorem execEncStep_withMode : execEncStep (s.withMode m) = mapNext (State.withMode m) (execEncStep s) := by
  have hread : IgnoresMode m (fun s => (readEnc s).bind fun r s =>
      whenEnabled (decide (r.pos < r.inp.length)) (encStepBody s)) s := .reads fun r _ =>
    (encStepBody_ignoresMode m hr hcount).whenEnabled (b := fun _ => decide (r.pos < r.inp.length)) rfl
  exact (hread.whenEnabled (b := State.running .enc) rfl).outcome

end

/-- Settles O13: each sub-step commutes with replacing the mode, the policy below saturation. -/
theorem modeIsIdleBelowSaturation : Obligations.ModeIsIdleBelowSaturation := by
  intro s r m hr hcount
  have hmode := execEncStep_withMode m hr hcount
  rw [State.withMode_eq_setEnc hr] at hmode
  refine hmode.trans ?_
  rw [exec]
  cases execEncStep s <;> rfl

end Sys2Proof.Machine

/-! ## Proofs: power-on (PowerOnIsIdleAndEmpty) -/

namespace Sys2Proof.Machine

/-- Settles O1: with no command the Decoder has the move, and it does not run. -/
theorem powerOnIsIdleAndEmpty : Obligations.PowerOnIsIdleAndEmpty :=
  ⟨rfl, rfl, rfl, rfl, rfl, rfl, rfl, rfl, step_of_moves_not_running (x := .dec) (.inr ⟨rfl, rfl, rfl⟩) rfl⟩

end Sys2Proof.Machine
